-- ==== Sys2Proof/Word.lean ====
section
/-! DEFINITION. The widths of the block's quantities (00_scope.md R7, R8) and the one hardware word with fields, a NODE entry
(10_state.md R24). -/

namespace Sys2Proof

/-- A literal byte, `BYTE_W` = 8 bits (R7). -/
abbrev Byte := BitVec 8
/-- A symbol field, `SYM_W` = 9 bits (R7, R20). -/
abbrev Sym := BitVec 9
/-- A node pointer, `PTR_W` = 10 bits (R7, R24). -/
abbrev Ptr := BitVec 10
/-- An occurrence count, `CW` = 32 bits (R7, R26). -/
abbrev Count := BitVec 32
/-- A node weight, `WW` = 41 bits (R7, R26). -/
abbrev Weight := BitVec 41
/-- The marker, `MAGIC_W` = 32 bits (R7, R71). -/
abbrev Mark := BitVec 32

/-- One entry of the node memory NODE (R24). `sym` means something in a Leaf only; `left` and `right` are NULL in a Leaf. -/
structure Node where
  leaf : Bool
  sym : Sym
  weight : Weight
  left : Ptr
  right : Ptr
  deriving DecidableEq, Repr, Inhabited

end Sys2Proof
end

