-- ==== Sys2Proof/Config.lean ====
section
/-! DEFINITION. The constants of the build (00_scope.md R7) and the free values: what the spec leaves open while the block goes
on. A free value has no body: nothing can be proved of it beyond its type. -/

namespace Sys2Proof

/-- `ALPH`, the number of symbols of the alphabet (R7, R20). -/
abbrev Config.alph : Nat := 257

/-- `EOFSYM`, the sentinel symbol, the last of the alphabet; the literals are the symbols below it (R7, R20). -/
abbrev Config.eofSym : Nat := 256

/-- `NODE_CAP` = `2 * ALPH - 1`, the number of entries of the node memory (R7, D10). -/
abbrev Config.nodeCap : Nat := 513

/-- `CODE_MAX` = `ALPH - 1`, the length of the longest possible code (R7, R23). -/
abbrev Config.codeMax : Nat := 256

/-- `LEN_W`, the width of a code length: it holds 0 to `CODE_MAX` (R7, R23). -/
abbrev Config.lenW : Nat := 9

/-- `NULL`, the pointer to no node (R7, R24). -/
def Config.null : Ptr := 0x3FF#10

/-- `2^CW - 1`, the largest count (R26, R112). -/
def Config.countMax : Count := 0xFFFFFFFF#32

/-- The default of the OPEN parameter `MAGIC` (R7, D2, G1). Only `State.reset` uses it; the value a run uses is the state's own
`magic` field, which no step writes (log 2). -/
def Config.defaultMagic : Mark := 0xFACE8201#32

/-- FREE VALUE (log 6): which position inside the range of U7 the input transport is left at by a read that returned EOS. -/
opaque Config.freePos : Nat → Nat

/-- FREE VALUE (log 8): while a command runs and the host has an action ready, whether the host moves before the core's next
operation. -/
opaque Config.hostFirst : Nat → Bool

/-- FREE VALUE (log 9): how many transactions of an operation abandoned by a reset had taken effect (R201, U16). -/
opaque Config.abandoned : Nat → Nat

/-- FREE VALUE (log 7): the `sym` field of the Internal entry at a pointer (R24: unspecified). -/
opaque Config.freeSym : Nat → Ptr → Sym

/-- FREE VALUE (log 5): the contents of FREQ[0..255] when the spec calls them unspecified (R40, R45, R103, U14). -/
opaque Config.freeFreq : Nat → Vector Count Config.eofSym

/-- FREE VALUE (log 5): the contents of CODE, likewise; each entry is cut to `CODE_MAX` bits where it is used. -/
opaque Config.freeCode : Nat → Vector (List Bool) Config.alph

/-- FREE VALUE (log 5): the contents of CODEV, likewise. -/
opaque Config.freeCodev : Nat → Vector Bool Config.alph

/-- FREE VALUE (log 5): the contents of NODE, likewise. -/
opaque Config.freeNode : Nat → Vector Node Config.nodeCap

/-- FREE VALUE (log 5): ROOT when unspecified. -/
opaque Config.freeRoot : Nat → Ptr

/-- FREE VALUE (log 5): CUR when unspecified. -/
opaque Config.freeCur : Nat → Ptr

/-- FREE VALUE (log 5): NALLOC when unspecified; cut to 0 to `NODE_CAP` where it is used (R25). -/
opaque Config.freeNalloc : Nat → Nat

/-- FREE VALUE (log 5): K when unspecified; cut to 0 to `ALPH - 1` where it is used (R35). -/
opaque Config.freeK : Nat → Nat

end Sys2Proof
end

