-- ==== Sys2Proof/Syntax.lean ====
section
/-! DEFINITION. The instructions of the block, one constructor per row of spec/opcode_table.json (30_encoding.md R86), and the
abstract tree the stream elements spell (10_state.md R21). -/

namespace Sys2Proof

/-- The sixteen rows of the opcode table (R86): two commands, seven unit operations, two sequencer steps, five stream
elements. -/
inductive Instr where
  /-- COMPRESS, the CMD value 0 (R80, R101). -/
  | compress
  /-- DECOMPRESS, the CMD value 1 (R80, R102). -/
  | decompress
  /-- COUNT, PHASE 1 (R110). -/
  | count
  /-- BUILD, PHASE 2 (R120). -/
  | build
  /-- GENCODES, PHASE 3 (R130). -/
  | gencodes
  /-- WRHDR, PHASE 4 (R140). -/
  | wrhdr
  /-- ENCODE, PHASE 5 (R160). -/
  | encode
  /-- RDHDR, PHASE 6 (R150). -/
  | rdhdr
  /-- DECODE, PHASE 7 (R170). -/
  | decode
  /-- REWIND, PHASE 8 (R104). -/
  | rewind
  /-- CLOSE, PHASE 9 (R104). -/
  | close
  /-- MARKER, stream bits 0 to 31 (R71): the 32-bit value at the marker's place. -/
  | marker (m : Mark)
  /-- NODE.INTERNAL, the tag bit 0 (R72). -/
  | nodeInternal
  /-- NODE.LEAF, the tag bit 1 and a 9-bit symbol field (R72, R73); 257 to 511 are the reserved values of R82. -/
  | nodeLeaf (sym : Sym)
  /-- CODEWORD, a root-to-leaf path of 0 to 256 bits, the root's branch first (R83). -/
  | codeword (bits : List Bool)
  /-- PAD, the 0 to 7 bits that fill the last byte (R76). -/
  | pad (n : Nat)
  deriving DecidableEq, Repr

/-- The abstract tree (R21). -/
inductive Tree where
  | leaf (sym : Sym) (weight : Nat)
  | internal (weight : Nat) (left right : Tree)
  deriving DecidableEq, Repr

end Sys2Proof
end

