-- ==== Sys2Proof/Machine/Bits.lean ====
section
/-! DEFINITION. Bit-strings and unsigned fields, most significant bit first (00_scope.md R8, 20_memory.md R56, R57). -/

namespace Sys2Proof

/-- `bits_n(v)` of R8: the `n` low bits of `v`, most significant first. -/
def bitsOf : Nat → Nat → List Bool
  | 0, _ => []
  | n + 1, v => v.testBit n :: bitsOf n v

/-- `val(b)` of R8: the unsigned integer a bit-string spells, most significant bit first. -/
def valOf (bs : List Bool) : Nat :=
  bs.foldl (fun acc b => 2 * acc + b.toNat) 0

/-- The bits of an underlying byte stream: byte `k` holds bits `8k` to `8k+7`, the first in its most significant place (R57). -/
def bitsOfBytes (bytes : List Byte) : List Bool :=
  bytes.flatMap fun b => bitsOf 8 b.toNat

/-- The next `n` bits as an unsigned value with what follows, or nothing where fewer remain (R51, R60). -/
def takeField (n : Nat) (bs : List Bool) : Option (Nat × List Bool) :=
  if n ≤ bs.length then some (valOf (bs.take n), bs.drop n) else none

end Sys2Proof
end

