-- ==== Sys2Proof/Machine/Tree.lean ====
section
/-! DEFINITION. Functions of the abstract tree of 10_state.md R21: its leaves, its codes (43_canonical_code_generator.md R130), its
preorder encoding (30_encoding.md R72), its shape (45_tree_deserializer.md R156). -/

namespace Sys2Proof

/-- The weight of a tree's root (R21). -/
def Tree.weight : Tree → Nat
  | .leaf _ w => w
  | .internal w _ _ => w

/-- The symbols of the leaves, left to right (R21). -/
def Tree.symbols : Tree → List Sym
  | .leaf s _ => [s]
  | .internal _ l r => l.symbols ++ r.symbols

/-- The number of nodes, internal ones included (R21). -/
def Tree.size : Tree → Nat
  | .leaf _ _ => 1
  | .internal _ l r => 1 + l.size + r.size

/-- `codes(t, path)` of R130, in the order the walk visits the leaves. -/
def Tree.codesFrom : Tree → List Bool → List (Sym × List Bool)
  | .leaf s _, path => [(s, path)]
  | .internal _ l r, path => l.codesFrom (path ++ [false]) ++ r.codesFrom (path ++ [true])

/-- `codes(t)` of R130. -/
def Tree.codes (t : Tree) : List (Sym × List Bool) := t.codesFrom []

/-- `enc(t)` of R72: the preorder encoding. -/
def Tree.enc : Tree → List Bool
  | .leaf s _ => true :: bitsOf 9 s.toNat
  | .internal _ l r => false :: (l.enc ++ r.enc)

/-- `shape(t)` of R156, written as the same tree with every weight 0, which is what RDHDR builds (R152). -/
def Tree.shape : Tree → Tree
  | .leaf s _ => .leaf s 0
  | .internal _ l r => .internal 0 l.shape r.shape

end Sys2Proof
end

