-- ==== Sys2Proof/WellFormed.lean ====
section
/-! DEFINITION. Which instructions the format gives a meaning as written: the ranges of the stream elements' fields. -/

namespace Sys2Proof

/-- The bounds of an instruction's fields: a leaf's symbol is 0 to 256 (R73, R82), a codeword has at most `CODE_MAX` = 256 bits
(R7, R83), the padding at most 7 (R76). -/
def Instr.wf : Instr → Bool
  | .compress => true
  | .decompress => true
  | .count => true
  | .build => true
  | .gencodes => true
  | .wrhdr => true
  | .encode => true
  | .rdhdr => true
  | .decode => true
  | .rewind => true
  | .close => true
  | .marker _ => true
  | .nodeInternal => true
  | .nodeLeaf sym => decide (sym.toNat ≤ Config.eofSym)
  | .codeword bits => decide (bits.length ≤ Config.codeMax)
  | .pad n => decide (n ≤ 7)

/-- `i` is well formed. -/
abbrev Instr.WellFormed (i : Instr) : Prop := i.wf = true

end Sys2Proof
end

