-- ==== Sys2Proof/Decode.lean ====
section
/-! DEFINITION. The decoder and the encoder of every row of the opcode table (30_encoding.md). Which table of encodings applies is
decided by the place the bits stand in (R86): a write to CMD, the PHASE register, or a position in the compressed stream. -/

namespace Sys2Proof

/-- Where the bits of an instruction stand (the "format" column of opcode_table.json; the stream's five elements are told apart
by position, R86). -/
inductive Format where
  /-- The value of a host write to CMD (R80). -/
  | cmd
  /-- The PHASE register (R79). -/
  | phase
  /-- Bit 0 of a compressed stream (R71). -/
  | marker
  /-- A place in the tree encoding where a node starts (R72). -/
  | node
  /-- A place in the payload where a codeword of this tree starts (R83). -/
  | codeword (t : Tree)
  /-- The end of the payload (R76). -/
  | pad
  deriving DecidableEq, Repr

/-- Why bits are no instruction. -/
inductive DecodeError where
  /-- A CMD value with one of bits 7:1 set (R82): the write is ignored. -/
  | reservedCommand
  /-- PHASE 10 to 14 (R82): never occurs. -/
  | unusedPhase
  /-- PHASE IDLE or FAULT (R79): no operation runs. -/
  | restPhase
  /-- Fewer bits than a CMD value or a PHASE value has. -/
  | shortRegister
  /-- Fewer than 32 bits at the marker's place (R81). -/
  | shortMarker
  /-- No tag bit where a node starts (R81). -/
  | shortTag
  /-- Fewer than 9 bits after a leaf's tag (R81). -/
  | shortSymbol
  /-- The bits end inside a codeword (R81). -/
  | shortCodeword
  deriving DecidableEq, Repr

/-- The CMD values (R80, R82). -/
def decodeCmd (v : Byte) : Except DecodeError Instr :=
  if v = 0#8 then .ok .compress
  else if v = 1#8 then .ok .decompress
  else .error .reservedCommand

/-- The PHASE values (R79, R82). -/
def decodePhase (v : BitVec 4) : Except DecodeError Instr :=
  match v.toNat with
  | 1 => .ok .count
  | 2 => .ok .build
  | 3 => .ok .gencodes
  | 4 => .ok .wrhdr
  | 5 => .ok .encode
  | 6 => .ok .rdhdr
  | 7 => .ok .decode
  | 8 => .ok .rewind
  | 9 => .ok .close
  | 0 => .error .restPhase
  | 15 => .error .restPhase
  | _ => .error .unusedPhase

/-- One node of a tree encoding (R72, R73): any 9-bit symbol field is read, the reserved values among them (R82: it is RDHDR that
judges them). -/
def decodeNode : List Bool → Except DecodeError (Instr × List Bool)
  | [] => .error .shortTag
  | false :: rest => .ok (.nodeInternal, rest)
  | true :: rest =>
    match takeField 9 rest with
    | none => .error .shortSymbol
    | some (v, rest') => .ok (.nodeLeaf (BitVec.ofNat 9 v), rest')

/-- The codeword of tree `t` at the head of the bits: the path walked from the root to the first leaf (R83). -/
def takeCodeword : Tree → List Bool → Option (List Bool × List Bool)
  | .leaf _ _, bs => some ([], bs)
  | .internal _ _ _, [] => none
  | .internal _ l _, false :: bs => (takeCodeword l bs).map fun c => (false :: c.1, c.2)
  | .internal _ _ r, true :: bs => (takeCodeword r bs).map fun c => (true :: c.1, c.2)

/-- The decoder, total on any bits: the instruction at their head and the bits that follow it. The padding is what stands before
the next whole byte, whatever its bits are (R76, R82). -/
def decode (f : Format) (bs : List Bool) : Except DecodeError (Instr × List Bool) :=
  match f with
  | .cmd =>
    match takeField 8 bs with
    | none => .error .shortRegister
    | some (v, rest) => (decodeCmd (BitVec.ofNat 8 v)).map fun i => (i, rest)
  | .phase =>
    match takeField 4 bs with
    | none => .error .shortRegister
    | some (v, rest) => (decodePhase (BitVec.ofNat 4 v)).map fun i => (i, rest)
  | .marker =>
    match takeField 32 bs with
    | none => .error .shortMarker
    | some (v, rest) => .ok (.marker (BitVec.ofNat 32 v), rest)
  | .node => decodeNode bs
  | .codeword t =>
    match takeCodeword t bs with
    | none => .error .shortCodeword
    | some (c, rest) => .ok (.codeword c, rest)
  | .pad => .ok (.pad (bs.length % 8), bs.drop (bs.length % 8))

/-- The encoder: an instruction's bits in stream order, a register value's most significant bit first (R71 to R76, R79, R80,
R83). -/
def encode : Instr → List Bool
  | .compress => bitsOf 8 0
  | .decompress => bitsOf 8 1
  | .count => bitsOf 4 1
  | .build => bitsOf 4 2
  | .gencodes => bitsOf 4 3
  | .wrhdr => bitsOf 4 4
  | .encode => bitsOf 4 5
  | .rdhdr => bitsOf 4 6
  | .decode => bitsOf 4 7
  | .rewind => bitsOf 4 8
  | .close => bitsOf 4 9
  | .marker m => bitsOf 32 m.toNat
  | .nodeInternal => [false]
  | .nodeLeaf sym => true :: bitsOf 9 sym.toNat
  | .codeword bits => bits
  | .pad n => List.replicate n false

/-- A tree in which `c` is the path to a leaf: every branch off the path is a leaf. It gives a codeword a place to stand in. -/
def Tree.along : List Bool → Tree
  | [] => .leaf 0 0
  | false :: c => .internal 0 (Tree.along c) (.leaf 0 0)
  | true :: c => .internal 0 (.leaf 0 0) (Tree.along c)

/-- A place an instruction's bits can stand in. -/
def Instr.format : Instr → Format
  | .compress => .cmd
  | .decompress => .cmd
  | .count => .phase
  | .build => .phase
  | .gencodes => .phase
  | .wrhdr => .phase
  | .encode => .phase
  | .rdhdr => .phase
  | .decode => .phase
  | .rewind => .phase
  | .close => .phase
  | .marker _ => .marker
  | .nodeInternal => .node
  | .nodeLeaf _ => .node
  | .codeword bits => .codeword (Tree.along bits)
  | .pad _ => .pad

/-- The instruction a whole bit-string is in format `f`, where nothing is left over. -/
def decodeWhole (f : Format) (bs : List Bool) : Option Instr :=
  match decode f bs with
  | .ok (i, []) => some i
  | _ => none

/-- The host's table words (log 19). A row of the table is told from the others by its format; the words alone do not say it, so
the width decides: 8 bits are a CMD value, and where CMD has none of that value a PHASE value; 4 bits a PHASE value; 1 bit and 10
bits (16 in whole bytes) a node of a header; 32 bits a marker. -/
def decodeTableWord (nbits w : Nat) : Option Instr :=
  if nbits = 1 then decodeWhole .node (bitsOf 1 w)
  else if nbits = 4 then decodeWhole .phase (bitsOf 4 w)
  else if nbits = 8 then
    match decodeWhole .cmd (bitsOf 8 w) with
    | some i => some i
    | none => if w < 16 then decodeWhole .phase (bitsOf 4 w) else none
  else if nbits = 10 ∨ nbits = 16 then
    if w < 1024 then decodeWhole .node (bitsOf 10 w) else none
  else if nbits = 32 then decodeWhole .marker (bitsOf 32 w)
  else none

end Sys2Proof
end

