-- ==== Sys2Proof/Machine/State.lean ====
section
/-! DEFINITION. The state of the machine (10_state.md), of the two transports and of the host, as plain data; the reasons a step
can stop; the state right after reset. -/

namespace Sys2Proof.Machine

/-- PHASE (R28, R79): which step of a command runs. The unused codes 10 to 14 have no value here (R82, U12, log 23). -/
inductive Phase where
  | idle | count | build | gencodes | wrhdr | encode | rdhdr | decode | rewind | close | fault
  deriving DecidableEq, Repr

/-- The error kinds of ERR (R80, R180). -/
inductive ErrKind where
  | formatError | truncatedStreamError | corruptTreeError | countOverflow | missingCode
  deriving DecidableEq, Repr

/-- One element of the builder's queue Q (R35): a node index and its tie-break number `seq` (R122); its weight stands in NODE
(log 25). -/
structure QEntry where
  ptr : Ptr
  seq : BitVec 10
  deriving DecidableEq, Repr

/-- One entry of RDHDR's walk stack (R36): an Internal node whose tag was read, and its left subtree once that is complete
(R150). -/
structure Frame where
  ptr : Ptr
  left : Option Ptr
  deriving DecidableEq, Repr

/-- The MODEL's own: which stream element the running unit reads next from IN (log 17). `unit`: none, the operation PHASE names
has not begun (or has just ended). -/
inductive Expect where
  | unit | marker | node | codeword
  deriving DecidableEq, Repr

/-- The input transport (R38). `second` is the bits it shows after a rewind where it breaks its contract (R53, R204, log 14);
`none` where it honours it. -/
structure InStream where
  bits : List Bool
  pos : Nat
  second : Option (List Bool)
  deriving DecidableEq, Repr

/-- The output transport (R39). -/
structure OutStream where
  bits : List Bool
  closed : Bool
  deriving DecidableEq, Repr

/-- A transport transaction as the core sees it (R6, R51 to R55): a read of `n` bits with its value, or `none` for EOS; a rewind;
a write of the `n` low bits of a value; a close. -/
inductive Txn where
  | inReadBits (n : Nat) (result : Option Nat)
  | inReset
  | outWriteBits (n v : Nat)
  | outClose
  deriving DecidableEq, Repr

/-- What the host does, one line of a host script each (R84), and the transport ceasing to answer (U9). -/
inductive HostAction where
  /-- Assert and release reset (R200, R201). -/
  | reset
  /-- Attach an input transport that holds these bits, at position 0; `second` as in `InStream`. -/
  | attachIn (bits : List Bool) (second : Option (List Bool))
  /-- Attach an empty, open output transport. -/
  | attachOut
  /-- Write a host register (R89, R100). -/
  | write (reg : Nat) (v : Byte)
  /-- Read a host register (R89). -/
  | read (reg : Nat)
  /-- Read STATUS until BUSY is 0. DESIGN CHOICE (log 24): how many reads that makes is open, and the model records none of them. -/
  | wait
  /-- The transport answers no further transaction (U9, R216). -/
  | stall
  deriving DecidableEq, Repr

/-- The whole machine and its surroundings. -/
structure State where
  /-- FREQ[0..255] (R22); FREQ[256] is the constant 1 and has no storage (log 3). -/
  freq : Vector Count Config.eofSym
  /-- CODE[0..256] (R23). -/
  code : Vector (List Bool) Config.alph
  /-- CODEV[0..256] (R23). -/
  codev : Vector Bool Config.alph
  /-- NODE[0..512] (R24). -/
  node : Vector Node Config.nodeCap
  /-- ROOT (R25). -/
  root : Ptr
  /-- NALLOC (R25). -/
  nalloc : BitVec 10
  /-- CUR (R27). -/
  cur : Ptr
  /-- PHASE (R28). -/
  phase : Phase
  /-- FV: FREQ holds the counts of the current input (R29). -/
  fv : Bool
  /-- TV: NODE and ROOT hold a complete tree (R29). -/
  tv : Bool
  /-- CV: CODE and CODEV hold that tree's table (R29). -/
  cv : Bool
  /-- STATUS, host register 1 (R31). -/
  status : Byte
  /-- ERR, host register 2 (R32). -/
  err : Byte
  /-- ERRINFO, host register 3 (R33). -/
  errinfo : Byte
  /-- Q, the builder's queue (R35). -/
  q : List QEntry
  /-- K, the merges done (R35). -/
  k : BitVec 9
  /-- The walk stack (R36), the innermost open node first. -/
  walk : List Frame
  /-- MAGIC, the build parameter (R7, R71): no step writes it (log 2). -/
  magic : Mark
  /-- The input transport (R38). -/
  inp : InStream
  /-- The output transport (R39). -/
  out : OutStream
  /-- Every transaction so far, oldest first (R12, R62). -/
  trace : List Txn
  /-- What the host will do, next action first (R84). -/
  host : List HostAction
  /-- The reads the host's READ actions made, with their values, oldest first (R89); the STATUS reads of a WAIT are not recorded
  (log 24). -/
  reads : List (Nat × Byte)
  /-- The transport no longer answers (U9). -/
  stalled : Bool
  /-- The model's own: the stream element read next (log 17). -/
  expect : Expect
  /-- The model's own: the counter free values are taken at (log 5). -/
  free : Nat
  deriving DecidableEq, Repr

/-- Why the machine stops with a fault. The spec's own five faults are no such stop: they are taken (R188) and leave a next
state. -/
inductive Fault where
  /-- Raised by GENCODES, WRHDR and DECODE when a pointer they follow names no entry of NODE (R9: indices 0 to 512). SAFE: the
  model stops; unreachable while TV = 1 (R43). -/
  | nodeIndex
  /-- Raised by GENCODES and WRHDR when a leaf they reach holds 257 to 511, which is no symbol (R20, R21). SAFE: the model stops;
  unreachable from reset (R154). -/
  | symbolIndex
  /-- Raised by GENCODES and WRHDR when the pointers from ROOT close a cycle, so that the walk never ends (R43 excludes it). SAFE:
  the model stops; unreachable while TV = 1. -/
  | endlessWalk
  deriving DecidableEq, Repr

/-- Why a step is refused. -/
inductive Refusal where
  /-- An instruction whose meaning is not written yet. SAFE. No arm of `exec` answers it. -/
  | notModelled (mnemonic : String)
  /-- Raised by WRHDR, ENCODE, DECODE and the stream elements when they would write to a closed output (R54 "It must not be called
  when OUT.closed = 1", U18: refuse). SAFE. -/
  | closedOutput
  /-- Raised by a host action that attaches a transport while a command runs (R65, R206, U3: refuse). SAFE. -/
  | transportInUse
  /-- Raised by a stream element in a PHASE that neither reads nor writes that kind of element (R86: an element is selected by its
  position in the stream). SAFE. -/
  | elementOutOfPlace
  /-- Raised by no step that meets a state the spec allows: a loop of a unit ran out of its bound (R216 bounds every loop). SAFE
  (log 26). -/
  | loopBound
  deriving DecidableEq, Repr

/-- The state right after reset (R45, R200). The contents of FREQ, CODE, CODEV and NODE, which R45 leaves unspecified, are the
model's choice (log 4); the transports, which reset does not touch, are empty (log 10); no program is placed (log 20). -/
def State.reset : State where
  freq := Vector.replicate Config.eofSym 0#32
  code := Vector.replicate Config.alph []
  codev := Vector.replicate Config.alph false
  node := Vector.replicate Config.nodeCap { leaf := false, sym := 0#9, weight := 0#41, left := 0#10, right := 0#10 }
  root := Config.null
  nalloc := 0#10
  cur := Config.null
  phase := .idle
  fv := false
  tv := false
  cv := false
  status := 0#8
  err := 0#8
  errinfo := 0#8
  q := []
  k := 0#9
  walk := []
  magic := Config.defaultMagic
  inp := { bits := [], pos := 0, second := none }
  out := { bits := [], closed := false }
  trace := []
  host := []
  reads := []
  stalled := false
  expect := .unit
  free := 0

end Sys2Proof.Machine
end

