-- ==== Sys2Proof/Machine/Flags.lean ====
section
/-! DEFINITION. The flags and register fields: PHASE's code (R79), STATUS (R31), ERR and ERRINFO (R32, R33, R80), FV, TV, CV (R29).
They are the block's only flags: no operation sets a flag as a side effect of a value (R31). -/

namespace Sys2Proof.Machine

/-- The 4-bit code of a phase (R79). -/
def Phase.code : Phase → BitVec 4
  | .idle => 0#4
  | .count => 1#4
  | .build => 2#4
  | .gencodes => 3#4
  | .wrhdr => 4#4
  | .encode => 5#4
  | .rdhdr => 6#4
  | .decode => 7#4
  | .rewind => 8#4
  | .close => 9#4
  | .fault => 15#4

/-- Whether a command runs: PHASE is neither IDLE nor FAULT (R31). -/
def Phase.busy : Phase → Bool
  | .idle => false
  | .fault => false
  | .count => true
  | .build => true
  | .gencodes => true
  | .wrhdr => true
  | .encode => true
  | .rdhdr => true
  | .decode => true
  | .rewind => true
  | .close => true

/-- The code of an error kind (R80). -/
def ErrKind.code : ErrKind → Byte
  | .formatError => 1#8
  | .truncatedStreamError => 2#8
  | .corruptTreeError => 3#8
  | .countOverflow => 4#8
  | .missingCode => 5#8

/-- STATUS.BUSY, bit 0 (R31). -/
def State.busy (s : State) : Bool := s.status.getLsbD 0

/-- STATUS.DONE, bit 1 (R31). -/
def State.done (s : State) : Bool := s.status.getLsbD 1

/-- STATUS.FAULT, bit 2 (R31). -/
def State.faulted (s : State) : Bool := s.status.getLsbD 2

/-- A STATUS value from its three fields; bits 7:3 read 0 (R31). -/
def statusOf (busy done fault : Bool) : Byte :=
  BitVec.ofNat 8 (busy.toNat + 2 * done.toNat + 4 * fault.toNat)

/-- Write STATUS's three fields (R31, log 15). -/
def State.setStatus (s : State) (busy done fault : Bool) : State :=
  { s with status := statusOf busy done fault }

/-- `FV <- 0; TV <- 0; CV <- 0` (R100, R103, R188). -/
def State.clearValid (s : State) : State :=
  { s with fv := false, tv := false, cv := false }

/-- ERRINFO from the phase at the fault and the sub-cause (R33, R188): `(PHASE << 2) | info`. -/
def errinfoOf (p : Phase) (info : BitVec 2) : Byte :=
  (p.code.setWidth 8 <<< 2) ||| info.setWidth 8

end Sys2Proof.Machine
end

