-- ==== Sys2Proof/Machine/Operands.lean ====
section
/-! DEFINITION. The operands of the operations (30_encoding.md R85): the table entries they read and write by symbol and by node
index (10_state.md R22 to R25), and how a field of a stream becomes a symbol, a literal or a branch. -/

namespace Sys2Proof.Machine

/-- FREQ[sym] (R22): entry 256 is the constant 1 (R41, log 3). -/
def State.freqAt (s : State) (sym : Nat) : Count :=
  if sym = Config.eofSym then 1#32 else s.freq[sym]?.getD 0#32

/-- `FREQ[sym] <- c`; entry 256 has no storage (R22). -/
def State.setFreq (s : State) (sym : Nat) (c : Count) : State :=
  { s with freq := s.freq.setIfInBounds sym c }

/-- CODE[sym] (R23). -/
def State.codeAt (s : State) (sym : Nat) : List Bool := s.code[sym]?.getD []

/-- The stored form of CODE[sym], which the operations read as a list (log 22): its length field `len`, `LEN_W` bits (R23). -/
def State.codeLenAt (s : State) (sym : Nat) : BitVec Config.lenW := BitVec.ofNat Config.lenW (s.codeAt sym).length

/-- The stored form's field `bits`, `CODE_MAX` bits: the code from the most significant end, zeros after it (R23). -/
def State.codeBitsAt (s : State) (sym : Nat) : BitVec Config.codeMax :=
  BitVec.ofNat Config.codeMax
    (valOf (s.codeAt sym ++ List.replicate (Config.codeMax - (s.codeAt sym).length) false))

/-- CODEV[sym] (R23). -/
def State.codevAt (s : State) (sym : Nat) : Bool := s.codev[sym]?.getD false

/-- `CODE[sym] <- path; CODEV[sym] <- 1` (R130). -/
def State.setCode (s : State) (sym : Nat) (path : List Bool) : State :=
  { s with code := s.code.setIfInBounds sym path, codev := s.codev.setIfInBounds sym true }

/-- NODE[p], or nothing where `p` names no entry (R9, R24). -/
def State.nodeAt (s : State) (p : Ptr) : Option Node := s.node[p.toNat]?

/-- `NODE[p] <- n` (R9). -/
def State.setNode (s : State) (p : Ptr) (n : Node) : State :=
  { s with node := s.node.setIfInBounds p.toNat n }

/-- The entry of a Leaf: childless (R24). -/
def leafNode (sym : Sym) (w : Weight) : Node :=
  { leaf := true, sym := sym, weight := w, left := Config.null, right := Config.null }

/-- The entry of an Internal node; its symbol field is unspecified (R24, log 7). -/
def internalNode (free : Nat) (p : Ptr) (w : Weight) (l r : Ptr) : Node :=
  { leaf := false, sym := Config.freeSym free p, weight := w, left := l, right := r }

/-- The child a payload bit chooses: 0 is `left`, 1 is `right` (R83, R85, R172). -/
def childOf (n : Node) (b : Bool) : Ptr := if b then n.right else n.left

/-- The literal byte DECODE writes for a symbol: its low 8 bits (R85, R173). -/
def literalOf (sym : Sym) : Nat := sym.toNat % 256

/-- `tree(p)` of R43, read from the node memory. `fuel` bounds the depth: a tree that fits NODE is far less deep than 513
(R21). -/
def treeAt (nodes : Vector Node Config.nodeCap) : Nat → Ptr → Except Fault Tree
  | 0, _ => .error .endlessWalk
  | fuel + 1, p =>
    match nodes[p.toNat]? with
    | none => .error .nodeIndex
    | some n =>
      if n.leaf then
        if n.sym.toNat ≤ Config.eofSym then .ok (.leaf n.sym n.weight.toNat) else .error .symbolIndex
      else
        match treeAt nodes fuel n.left with
        | .error e => .error e
        | .ok l =>
          match treeAt nodes fuel n.right with
          | .error e => .error e
          | .ok r => .ok (.internal n.weight.toNat l r)

/-- "The tree" of every unit rule: `tree(ROOT)` (R43). -/
def State.tree (s : State) : Except Fault Tree := treeAt s.node Config.nodeCap s.root

end Sys2Proof.Machine
end

