-- ==== Sys2Proof/Machine/Ops.lean ====
section
/-! DEFINITION. The shared operations: how a piece of an operation ends, fault entry (60_exceptions.md R188), reset (R200), the four
transport transactions (20_memory.md R51 to R55). -/

namespace Sys2Proof.Machine

/-- How a piece of an operation's pseudocode ends: it goes on from a state; a fault of the spec was raised and taken, and nothing
after it runs (R188); or the model stops, at the state it had reached. -/
inductive Act where
  | go (s : State)
  | raised (s : State)
  | fault (f : Fault) (s : State)
  | refuse (r : Refusal) (s : State)
  deriving DecidableEq, Repr

/-- The lines after a piece of pseudocode run only if it went on (R9, R62, R188). -/
def Act.andThen (a : Act) (f : State → Act) : Act :=
  match a with
  | .go s => f s
  | .raised s => .raised s
  | .fault e s => .fault e s
  | .refuse r s => .refuse r s

/-- The outcome of a whole operation: a raised fault of the spec is a next state, the one its entry made. -/
def Act.outcome : Act → Host.Outcome State Fault Refusal
  | .go s => .next s
  | .raised s => .next s
  | .fault f _ => .fault f
  | .refuse r _ => .refused r

/-- The state a piece of an operation had reached when it ended. -/
def Act.state : Act → State
  | .go s => s
  | .raised s => s
  | .fault _ s => s
  | .refuse _ s => s

/-- The contents of the tables, the node memory, ROOT, NALLOC, CUR and K become unspecified (R40, R45, R103, U14): free values,
each inside the range the spec gives it (log 5). -/
def State.forget (s : State) : State :=
  { s with
    freq := Config.freeFreq s.free
    code := (Config.freeCode s.free).map (List.take Config.codeMax)
    codev := Config.freeCodev s.free
    node := Config.freeNode s.free
    root := Config.freeRoot s.free
    nalloc := BitVec.ofNat 10 (Config.freeNalloc s.free % (Config.nodeCap + 1))
    cur := Config.freeCur s.free
    k := BitVec.ofNat 9 (Config.freeK s.free % Config.alph)
    free := s.free + 1 }

/-- `raise E(info)` (R188). What the command had computed is unspecified from here (R40); but ROOT stays as it is, NULL, when
RDHDR faults (R153, log 5), and the walk stack is empty when an operation ends (R36). -/
def raise (e : ErrKind) (info : BitVec 2) (s : State) : Act :=
  let t := s.forget.clearValid.setStatus false false true
  .raised
    { t with
      root := if s.phase = Phase.rdhdr then s.root else t.root
      err := e.code
      errinfo := errinfoOf s.phase info
      phase := .fault
      walk := []
      expect := .unit }

/-- The block's reset (R45, R200): the core's state at its reset values, the tables unspecified, the transports untouched. It is
also the only return from a fault (R189). -/
def State.coreReset (s : State) : State :=
  { s.forget.clearValid with
    root := Config.null
    nalloc := 0#10
    cur := Config.null
    phase := .idle
    status := 0#8
    err := 0#8
    errinfo := 0#8
    q := []
    k := 0#9
    walk := []
    expect := .unit }

/-- The number of bits of IN not read yet (R38). -/
def State.unread (s : State) : Nat := s.inp.bits.length - s.inp.pos

/-- IN.pos after a read that returned EOS: any value from the position before it to the end (R52, U7, log 6). -/
def State.eosPos (s : State) : Nat :=
  if s.unread = 0 then s.inp.pos else s.inp.pos + Config.freePos s.free % (s.unread + 1)

/-- Record a transaction (R62). -/
def State.record (s : State) (t : Txn) : State := { s with trace := s.trace ++ [t] }

/-- `InReadBits(n)` (R51, R52): the value of the next `n` bits, or `none` for EOS. -/
def inReadBits (n : Nat) (s : State) : Option Nat × State :=
  if s.inp.pos + n ≤ s.inp.bits.length then
    let v := valOf ((s.inp.bits.drop s.inp.pos).take n)
    (some v, { s with inp := { s.inp with pos := s.inp.pos + n } }.record (.inReadBits n (some v)))
  else
    (none, { s with inp := { s.inp with pos := s.eosPos }, free := s.free + 1 }.record (.inReadBits n none))

/-- `InReset()` (R53): back to the start; the bits are the same unless the transport breaks its contract (R204, log 14). -/
def inReset (s : State) : State :=
  { s with inp := { bits := s.inp.second.getD s.inp.bits, pos := 0, second := none } }.record .inReset

/-- `OutWriteBits(n, v)` (R54): append the `n` low bits of `v`. It must not be called on a closed output (R54, U18, log 11). -/
def outWriteBits (n v : Nat) (s : State) : Act :=
  if s.out.closed then .refuse .closedOutput s
  else .go ({ s with out := { s.out with bits := s.out.bits ++ bitsOf n v } }.record (.outWriteBits n v))

/-- The number of padding bits that complete the last byte (R55, R76). -/
def padLength (len : Nat) : Nat := (8 - len % 8) % 8

/-- The padding bits that `close()` appends (R55, R76). -/
def State.padOut (s : State) (n : Nat) : State :=
  { s with out := { s.out with bits := s.out.bits ++ List.replicate n false } }

/-- `OutClose()` (R55): pad to a byte and close. -/
def outClose (s : State) : State :=
  let t := s.padOut (padLength s.out.bits.length)
  { t with out := { t.out with closed := true } }.record .outClose

/-- What one transaction does to the transports, and nothing else (R51 to R55); used for the part of an abandoned operation that
took effect (R201). -/
def applyTxn (t : Txn) (s : State) : State :=
  match t with
  | .inReadBits n (some v) =>
    { s with inp := { s.inp with pos := min (s.inp.pos + n) s.inp.bits.length } }.record (.inReadBits n (some v))
  | .inReadBits n none => { s with inp := { s.inp with pos := s.eosPos }, free := s.free + 1 }.record (.inReadBits n none)
  | .inReset => inReset s
  | .outWriteBits n v => { s with out := { s.out with bits := s.out.bits ++ bitsOf n v } }.record (.outWriteBits n v)
  | .outClose => outClose s

end Sys2Proof.Machine
end

