-- ==== Sys2Proof/Machine/Build.lean ====
section
/-! DEFINITION. huffman_tree_builder: BUILD (42_huffman_tree_builder.md R120 to R127). -/

namespace Sys2Proof.Machine

/-- One pass of the leaf loop (R120, R121): a symbol with a count gets a Leaf at index NALLOC, with seq = the symbol, in Q. -/
def buildLeaf (s : State) (sym : Nat) : State :=
  if s.freqAt sym = 0#32 then s
  else
    { s.setNode s.nalloc (leafNode (BitVec.ofNat 9 sym) ((s.freqAt sym).setWidth 41)) with
      nalloc := s.nalloc + 1#10
      q := s.q ++ [{ ptr := s.nalloc, seq := BitVec.ofNat 10 sym }] }

/-- The weight of a queued node (R122). -/
def State.weightOf (s : State) (e : QEntry) : Nat :=
  match s.nodeAt e.ptr with
  | none => 0
  | some n => n.weight.toNat

/-- `key(a) < key(b)`: the pairs (weight, seq), compared lexicographically (R122). -/
def State.keyLt (s : State) (a b : QEntry) : Bool :=
  decide (s.weightOf a < s.weightOf b) || (decide (s.weightOf a = s.weightOf b) && decide (a.seq.toNat < b.seq.toNat))

/-- The element of least key (R122). -/
def State.least (s : State) : QEntry → List QEntry → QEntry
  | m, [] => m
  | m, e :: es => s.least (if s.keyLt e m then e else m) es

/-- `removeMin` (R122): the queued node of least key, and the queue without it; nothing of an empty queue. -/
def State.removeMin (s : State) (q : List QEntry) : Option (QEntry × List QEntry) :=
  match q with
  | [] => none
  | e :: es => some (s.least e es, (e :: es).erase (s.least e es))

/-- The merge of the two nodes removed (R120, R123, R124): `left` is the first removed, the weight the exact sum, seq = 257 + K, where 257 is ALPH. -/
def State.merge (s : State) (a b : QEntry) (q : List QEntry) : State :=
  { s.setNode s.nalloc
      (internalNode s.free s.nalloc (BitVec.ofNat 41 (s.weightOf a + s.weightOf b)) a.ptr b.ptr) with
    nalloc := s.nalloc + 1#10
    q := q ++ [{ ptr := s.nalloc, seq := BitVec.ofNat 10 (Config.alph + s.k.toNat) }]
    k := s.k + 1#9 }

/-- A rule by which BUILD takes the next node from Q: TIEBREAK, a parameter of the build (R7, U1). -/
abbrev TieBreak := State → List QEntry → Option (QEntry × List QEntry)

/-- The merge loop (R120) under a tie-break rule: while Q holds two nodes or more. `fuel` bounds the passes (R127). -/
def mergeLoopBy (pick : TieBreak) : Nat → State → State
  | 0, s => s
  | fuel + 1, s =>
    match pick s s.q with
    | none => s
    | some (a, q1) =>
      match pick s q1 with
      | none => s
      | some (b, q2) => mergeLoopBy pick fuel (s.merge a b q2)

/-- BUILD before its merges (R120): NALLOC, K and Q cleared, the leaves made in ascending symbol order. -/
def buildLeaves (s : State) : State :=
  (List.range Config.alph).foldl buildLeaf { s with nalloc := 0#10, k := 0#9, q := [] }

/-- The last lines of R120: ROOT the one node left in Q, FV cleared, TV set. -/
def buildEnd (s : State) : State :=
  { s with
    root := (s.q.head?.map QEntry.ptr).getD Config.null
    fv := false
    tv := true
    free := s.free + 1 }

/-- BUILD under a tie-break rule (R120, R126): leaves, merges, end. -/
def buildActBy (pick : TieBreak) (s : State) : Act :=
  .go (buildEnd (mergeLoopBy pick (buildLeaves s).q.length (buildLeaves s)))

/-- BUILD of this hardware, whose tie-break rule is R122's `removeMin`. -/
def buildAct (s : State) : Act := buildActBy State.removeMin s

/-- The meaning of BUILD. -/
def execBuild (s : State) : Host.Outcome State Fault Refusal := (buildAct s).outcome

end Sys2Proof.Machine
end

