-- ==== Sys2Proof/Machine/Commands.lean ====
section
/-! DEFINITION. The commands and the sequencer (40_commands.md R100 to R104). -/

namespace Sys2Proof.Machine

/-- Accepting a command (R100): nothing while BUSY or FAULT is 1; else DONE 0, BUSY 1, the validity flags 0, and the first unit of
the command. -/
def accept (first : Phase) (s : State) : State :=
  if s.busy || s.faulted then s
  else { s.clearValid.setStatus true false s.faulted with phase := first, expect := .unit }

/-- The meaning of COMPRESS, the host write CMD <- 0 (R100, R101): the sequence of R101 is run by the steps that follow. -/
def execCompress (s : State) : Host.Outcome State Fault Refusal := .next (accept .count s)

/-- The meaning of DECOMPRESS, the host write CMD <- 1 (R100, R102): the sequence of R102 is run by the steps that follow. -/
def execDecompress (s : State) : Host.Outcome State Fault Refusal := .next (accept .rdhdr s)

/-- The meaning of REWIND: the one transaction InReset() (R104). -/
def execRewind (s : State) : Host.Outcome State Fault Refusal := .next (inReset s)

/-- The meaning of CLOSE: the one transaction OutClose() (R104). -/
def execClose (s : State) : Host.Outcome State Fault Refusal := .next (outClose s)

/-- Completion (R103): the validity flags 0, PHASE IDLE, BUSY 0, DONE 1; what the command had computed is unspecified from here
(R40, log 5). -/
def complete (s : State) : State :=
  { s.forget.clearValid.setStatus false true s.faulted with phase := .idle, expect := .unit }

/-- The sequencer after the operation PHASE names has ended without a fault (R101, R102). -/
def advancePhase (s : State) : State :=
  match s.phase with
  | .idle => s
  | .count => { s with phase := .build, expect := .unit }
  | .build => { s with phase := .gencodes, expect := .unit }
  | .gencodes => { s with phase := .wrhdr, expect := .unit }
  | .wrhdr => { s with phase := .rewind, expect := .unit }
  | .rewind => { s with phase := .encode, expect := .unit }
  | .encode => { s with phase := .close, expect := .unit }
  | .rdhdr => { s with phase := .decode, expect := .unit }
  | .decode => { s with phase := .close, expect := .unit }
  | .close => complete s
  | .fault => s

end Sys2Proof.Machine
end

