-- ==== Sys2Proof/Machine/Count.lean ====
section
/-! DEFINITION. symbol_frequency_counter: COUNT (41_symbol_frequency_counter.md R110 to R114). -/

namespace Sys2Proof.Machine

/-- The loop of R110: read bytes to EOS and count each; a full count raises CountOverflow (R112). `fuel` bounds the passes. -/
def countLoop : Nat → State → Act
  | 0, s => .refuse .loopBound s
  | fuel + 1, s =>
    match inReadBits 8 s with
    | (none, s') => .go s'
    | (some r, s') =>
      if s'.freqAt r = Config.countMax then raise .countOverflow 0#2 s'
      else countLoop fuel (s'.setFreq r (s'.freqAt r + 1#32))

/-- COUNT (R110): clear FREQ[0..255] (entry 256 is 1 by itself, R22), count, set FV. -/
def countAct (s : State) : Act :=
  (countLoop (s.unread + 1) { s with freq := Vector.replicate Config.eofSym 0#32 }).andThen fun s' =>
    .go { s' with fv := true }

/-- The meaning of COUNT. -/
def execCount (s : State) : Host.Outcome State Fault Refusal := (countAct s).outcome

end Sys2Proof.Machine
end

