-- ==== Sys2Proof/Machine/Gencodes.lean ====
section
/-! DEFINITION. canonical_code_generator: GENCODES (43_canonical_code_generator.md R130 to R135). -/

namespace Sys2Proof.Machine

/-- `CODE[sym] <- path; CODEV[sym] <- 1` at a leaf of the walk (R130). -/
def recordCode (s : State) (c : Sym × List Bool) : State := s.setCode c.1.toNat c.2

/-- GENCODES (R130): clear CODEV, record the path of each leaf in the order of the walk (so the last visited leaf of a symbol
wins, R135), set CV. -/
def gencodesAct (s : State) : Act :=
  match s.tree with
  | .error e => .fault e s
  | .ok t => .go { t.codes.foldl recordCode { s with codev := Vector.replicate Config.alph false } with cv := true }

/-- The meaning of GENCODES. -/
def execGencodes (s : State) : Host.Outcome State Fault Refusal := (gencodesAct s).outcome

end Sys2Proof.Machine
end

