-- ==== Sys2Proof/Machine/Elements.lean ====
section
/-! DEFINITION. The stream elements (30_encoding.md R70 to R76, R83): what each does where a unit writes it (WRHDR, ENCODE, CLOSE)
and where a unit has read it (RDHDR, DECODE), and the reading of one from IN. The units of the header and of the payload are made
of these (log 17). -/

namespace Sys2Proof.Machine

/-- WRHDR's tag of an Internal node (R140). -/
def writeInternal (s : State) : Act := outWriteBits 1 0 s

/-- WRHDR's Leaf: the tag, then the 9-bit symbol (R140, R143). -/
def writeLeaf (sym : Sym) (s : State) : Act := (outWriteBits 1 1 s).andThen (outWriteBits 9 sym.toNat)

/-- `emit(c)` of ENCODE: one bit a transaction, the root's branch first (R160, R161). -/
def emit : List Bool → State → Act
  | [], s => .go s
  | b :: bs, s => (outWriteBits 1 b.toNat s).andThen (emit bs)

/-- RDHDR's judgement of the 32 bits read (R151). -/
def readMarker (m : Mark) (s : State) : Act :=
  if m = s.magic then .go { s with expect := .node } else raise .formatError 0#2 s

/-- RDHDR has a complete subtree at `p` (R150): it is the left child of the innermost open node, or its right child, which
completes that node in turn; with no open node it is the tree. -/
def attach : List Frame → Ptr → State → State
  | [], p, s => { s with walk := [], root := p, tv := true, expect := .unit, free := s.free + 1 }
  | { ptr := q, left := none } :: st, p, s => { s with walk := { ptr := q, left := some p } :: st }
  | { ptr := q, left := some l } :: st, p, s => attach st q (s.setNode q (internalNode s.free q 0#41 l p))

/-- RDHDR after a tag 0 (R150): the node at index NALLOC is open until both its subtrees are read. -/
def readInternal (s : State) : Act :=
  if s.nalloc.toNat = Config.nodeCap then raise .corruptTreeError 2#2 s
  else .go { s with walk := { ptr := s.nalloc, left := none } :: s.walk, nalloc := s.nalloc + 1#10 }

/-- RDHDR after a tag 1 and a symbol field (R150, R154): 257 to 511 raise CorruptTreeError(1). -/
def readLeaf (sym : Sym) (s : State) : Act :=
  if s.nalloc.toNat = Config.nodeCap then raise .corruptTreeError 2#2 s
  else
    let t := { s with nalloc := s.nalloc + 1#10 }
    if sym.toNat > Config.eofSym then raise .corruptTreeError 1#2 t
    else .go (attach t.walk s.nalloc (t.setNode s.nalloc (leafNode sym 0#41)))

/-- One pass of DECODE's loop after the bit is read (R170, R172, R173, R175). -/
def decodePass (b : Bool) (s : State) : Act :=
  match s.nodeAt s.cur with
  | none => .fault .nodeIndex s
  | some n =>
    let t := { s with cur := childOf n b }
    if t.cur = Config.null then raise .corruptTreeError 0#2 t
    else
      match t.nodeAt t.cur with
      | none => .fault .nodeIndex t
      | some m =>
        if m.leaf then
          if m.sym.toNat = Config.eofSym then .go { t with expect := .unit }
          else (outWriteBits 8 (literalOf m.sym) t).andThen fun u => .go { u with cur := u.root }
        else .go t

/-- DECODE on the bits of a codeword, up to the sentinel (R170). DESIGN CHOICE, safe (log 17): the codeword of no bits makes no pass and
has no effect, also where the cursor stands on a root that is the sentinel's leaf; R171 puts the test for that root into DECODE, before
its loop (`decodeAct`), and gives the element alone no effect, so the element does not end the operation. DESIGN CHOICE, safe (log 17):
the end of R173 is told by the field `expect`, so a codeword run where `expect` is `unit`, which is before DECODE's loop has begun or after
it has ended, makes only the pass of its first bit (R172), and the bits after it have no effect. DECODE itself and every step between two
codewords have `expect` = `codeword`, where all passes run. -/
def decodeBits : List Bool → State → Act
  | [], s => .go s
  | b :: bs, s => (decodePass b s).andThen fun t => if t.expect = .unit then .go t else decodeBits bs t

/-- What reading a stream element from IN gives: the element, or the end of the operation. -/
inductive Fetched where
  | got (i : Instr) (s : State)
  | stopped (a : Act)
  deriving DecidableEq, Repr

/-- The marker: one read of 32 bits (R151). -/
def fetchMarker (s : State) : Fetched :=
  match inReadBits 32 s with
  | (none, t) => .stopped (raise .truncatedStreamError 0#2 t)
  | (some m, t) => .got (.marker (BitVec.ofNat 32 m)) t

/-- A node of the header: the capacity is checked before the tag is read (R154, C10), then the tag, then a leaf's symbol (R150,
R153). -/
def fetchNode (s : State) : Fetched :=
  if s.nalloc.toNat = Config.nodeCap then .stopped (raise .corruptTreeError 2#2 s)
  else
    match inReadBits 1 s with
    | (none, t) => .stopped (raise .truncatedStreamError 1#2 t)
    | (some tag, t) =>
      if tag = 0 then .got .nodeInternal t
      else
        match inReadBits 9 t with
        | (none, u) => .stopped (raise .truncatedStreamError 2#2 u)
        | (some v, u) => .got (.nodeLeaf (BitVec.ofNat 9 v)) u

/-- A codeword of the payload: bits are read while the walk from `p` stands on Internal nodes (R83, R174); `acc` is what was read.
It ends at a leaf, or where the walk leaves the tree (R175). -/
def fetchCodeword : Nat → Ptr → List Bool → State → Fetched
  | 0, _, _, s => .stopped (.refuse .loopBound s)
  | fuel + 1, p, acc, s =>
    match inReadBits 1 s with
    | (none, t) => .stopped (raise .truncatedStreamError 3#2 t)
    | (some v, t) =>
      let b := decide (v = 1)
      match t.nodeAt p with
      | none => .stopped (.fault .nodeIndex t)
      | some n =>
        match t.nodeAt (childOf n b) with
        | none => .got (.codeword (acc ++ [b])) t
        | some m =>
          if m.leaf then .got (.codeword (acc ++ [b])) t
          else fetchCodeword fuel (childOf n b) (acc ++ [b]) t

/-- The meaning of MARKER: WRHDR writes it as one 32-bit write (R141); RDHDR compares it (R151). -/
def execMarker (m : Mark) (s : State) : Host.Outcome State Fault Refusal :=
  match s.phase with
  | .wrhdr => (outWriteBits 32 m.toNat s).outcome
  | .rdhdr => (readMarker m s).outcome
  | _ => .refused .elementOutOfPlace

/-- The meaning of NODE.INTERNAL: WRHDR writes the tag; RDHDR opens a node (R72, R140, R150). -/
def execNodeInternal (s : State) : Host.Outcome State Fault Refusal :=
  match s.phase with
  | .wrhdr => (writeInternal s).outcome
  | .rdhdr => (readInternal s).outcome
  | _ => .refused .elementOutOfPlace

/-- The meaning of NODE.LEAF: WRHDR writes tag and symbol; RDHDR makes the leaf (R73, R140, R150, R154). -/
def execNodeLeaf (sym : Sym) (s : State) : Host.Outcome State Fault Refusal :=
  match s.phase with
  | .wrhdr => (writeLeaf sym s).outcome
  | .rdhdr => (readLeaf sym s).outcome
  | _ => .refused .elementOutOfPlace

/-- The meaning of CODEWORD: ENCODE emits it (R161); DECODE walks it from its cursor (R170). -/
def execCodeword (bits : List Bool) (s : State) : Host.Outcome State Fault Refusal :=
  match s.phase with
  | .encode => (emit bits s).outcome
  | .decode => (decodeBits bits s).outcome
  | _ => .refused .elementOutOfPlace

/-- The meaning of PAD: in CLOSE the transport appends the bits (R55, R76); everywhere else it has no effect, since the core neither
writes nor reads padding (R76, R82, R164, R177, log 18). -/
def execPad (n : Nat) (s : State) : Host.Outcome State Fault Refusal :=
  match s.phase with
  | .close => .next (s.padOut n)
  | _ => .next s

end Sys2Proof.Machine
end

