-- ==== Sys2Proof/Machine/Header.lean ====
section
/-! DEFINITION. tree_serializer: WRHDR (44_tree_serializer.md R140 to R144), and tree_deserializer: RDHDR
(45_tree_deserializer.md R150 to R157). -/

namespace Sys2Proof.Machine

/-- `ser` of R140 on the abstract tree: preorder, left before right (R142). -/
def ser : Tree → State → Act
  | .leaf sym _, s => writeLeaf sym s
  | .internal _ l r, s => ((writeInternal s).andThen (ser l)).andThen (ser r)

/-- WRHDR (R140, R141): the marker, then the tree. -/
def wrhdrAct (s : State) : Act :=
  match s.tree with
  | .error e => .fault e s
  | .ok t => (outWriteBits 32 s.magic.toNat s).andThen (ser t)

/-- The meaning of WRHDR. -/
def execWrhdr (s : State) : Host.Outcome State Fault Refusal := (wrhdrAct s).outcome

/-- One element of the header: read it and do what it does (R150). -/
def headerStep (s : State) : Act :=
  match (if s.expect = .marker then fetchMarker s else fetchNode s) with
  | .stopped a => a
  | .got (.marker m) t => readMarker m t
  | .got .nodeInternal t => readInternal t
  | .got (.nodeLeaf sym) t => readLeaf sym t
  | .got _ t => .refuse .elementOutOfPlace t

/-- The elements of the header up to the one that completes the tree (R150, R152). `fuel` bounds their number: a marker and at most
513 nodes (R154). -/
def rdhdrLoop : Nat → State → Act
  | 0, s => .refuse .loopBound s
  | fuel + 1, s => (headerStep s).andThen fun t => if t.expect = .unit then .go t else rdhdrLoop fuel t

/-- A bound on the elements of any header RDHDR reads whole, the refused 514th node included. -/
def headerFuel : Nat := 515

/-- RDHDR (R150): NALLOC 0, ROOT NULL, the walk stack empty (R36), then the marker and the tree. -/
def rdhdrAct (s : State) : Act :=
  rdhdrLoop headerFuel { s with nalloc := 0#10, root := Config.null, walk := [], expect := .marker }

/-- The meaning of RDHDR. -/
def execRdhdr (s : State) : Host.Outcome State Fault Refusal := (rdhdrAct s).outcome

end Sys2Proof.Machine
end

