-- ==== Sys2Proof/Machine/Payload.lean ====
section
/-! DEFINITION. huffman_encoder: ENCODE (46_huffman_encoder.md R160 to R165), and huffman_decoder: DECODE (47_huffman_decoder.md R170
to R178). -/

namespace Sys2Proof.Machine

/-- The loop of R160: a byte's code is on OUT before the next byte is read (R161); a byte without a code raises MissingCode (R163);
at EOS the sentinel's code, once (R162). `fuel` bounds the passes. -/
def encodeLoop : Nat → State → Act
  | 0, s => .refuse .loopBound s
  | fuel + 1, s =>
    match inReadBits 8 s with
    | (none, t) => emit (t.codeAt Config.eofSym) t
    | (some r, t) =>
      if t.codevAt r then (emit (t.codeAt r) t).andThen (encodeLoop fuel)
      else raise .missingCode 0#2 t

/-- ENCODE (R160): the payload, then CV cleared. -/
def encodeAct (s : State) : Act :=
  (encodeLoop (s.unread + 1) s).andThen fun t => .go { t with cv := false }

/-- The meaning of ENCODE. -/
def execEncode (s : State) : Host.Outcome State Fault Refusal := (encodeAct s).outcome

/-- The loop of R170: one bit a pass, up to the sentinel; EOS before it raises TruncatedStreamError(3) (R174). `fuel` bounds the
passes. -/
def decodeLoop : Nat → State → Act
  | 0, s => .refuse .loopBound s
  | fuel + 1, s =>
    match inReadBits 1 s with
    | (none, t) => raise .truncatedStreamError 3#2 t
    | (some v, t) =>
      (decodePass (decide (v = 1)) t).andThen fun u => if u.expect = .unit then .go u else decodeLoop fuel u

/-- DECODE (R170): the cursor to the root; no tree raises CorruptTreeError(0) (R175 (c)); a root that is the sentinel's leaf stops at
once (R171). -/
def decodeAct (s : State) : Act :=
  let t := { s with cur := s.root }
  if t.cur = Config.null then raise .corruptTreeError 0#2 t
  else
    match t.nodeAt t.cur with
    | none => .fault .nodeIndex t
    | some n =>
      if n.leaf && decide (n.sym.toNat = Config.eofSym) then .go { t with expect := .unit }
      else decodeLoop (t.unread + 1) { t with expect := .codeword }

/-- The meaning of DECODE. -/
def execDecode (s : State) : Host.Outcome State Fault Refusal := (decodeAct s).outcome

end Sys2Proof.Machine
end

