-- ==== Sys2Proof/Machine/Dispatch.lean ====
section
/-! DEFINITION. The meaning of every instruction, one arm per row of spec/opcode_table.json. -/

namespace Sys2Proof.Machine

def exec (i : Instr) (s : State) : Host.Outcome State Fault Refusal :=
  match i with
  | .compress => Sys2Proof.Machine.execCompress s
  | .decompress => Sys2Proof.Machine.execDecompress s
  | .count => Sys2Proof.Machine.execCount s
  | .build => Sys2Proof.Machine.execBuild s
  | .gencodes => Sys2Proof.Machine.execGencodes s
  | .wrhdr => Sys2Proof.Machine.execWrhdr s
  | .encode => Sys2Proof.Machine.execEncode s
  | .rdhdr => Sys2Proof.Machine.execRdhdr s
  | .decode => Sys2Proof.Machine.execDecode s
  | .rewind => Sys2Proof.Machine.execRewind s
  | .close => Sys2Proof.Machine.execClose s
  | .marker m => Sys2Proof.Machine.execMarker m s
  | .nodeInternal => Sys2Proof.Machine.execNodeInternal s
  | .nodeLeaf sym => Sys2Proof.Machine.execNodeLeaf sym s
  | .codeword bits => Sys2Proof.Machine.execCodeword bits s
  | .pad n => Sys2Proof.Machine.execPad n s

end Sys2Proof.Machine
end

