-- ==== Sys2Proof/Machine/Sequencer.lean ====
section
/-! DEFINITION. What a step is made of: the core's next operation (PHASE plays the program counter's part, R28), the host's actions
between the core's operations (R84, R89, R100, R200), reset while a command runs (R201), and the placing of an instruction where the
next step runs it. -/

namespace Sys2Proof.Machine

/-- The next state of an outcome, changed by `f`. -/
def onNext (f : State → State) : Host.Outcome State Fault Refusal → Host.Outcome State Fault Refusal
  | .next s => .next (f s)
  | .fault e => .fault e
  | .refused r => .refused r

/-- After an element of a header or a payload: the sequencer moves on only when the unit has ended (R101, R102). -/
def advanceIfEnded (s : State) : State := if s.expect = .unit then advancePhase s else s

/-- The stream element the running unit reads next from IN (log 17). -/
def fetchElement (s : State) : Fetched :=
  match s.expect with
  | .codeword => fetchCodeword (s.unread + 1) s.cur [] s
  | .marker => fetchMarker s
  | .node => fetchNode s
  | .unit => .stopped (.go s)

/-- The core inside a unit that reads stream elements: read one, run it. -/
def elementStep (s : State) : Host.Outcome State Fault Refusal :=
  match fetchElement s with
  | .stopped a => a.outcome
  | .got i t => onNext advanceIfEnded (exec i t)

/-- The core's move: nothing while it rests or while the transport does not answer (R200, R216); inside a unit the next stream
element; else the operation PHASE names, after which the sequencer moves on (R101, R102). -/
def coreStep (s : State) : Host.Outcome State Fault Refusal :=
  if s.stalled then .next s
  else
    match s.expect with
    | .marker => elementStep s
    | .node => elementStep s
    | .codeword => elementStep s
    | .unit =>
      match decodePhase s.phase.code with
      | .ok i => onNext advancePhase (exec i s)
      | .error _ => .next s

/-- A host read of register `r` (R89, R30 to R33): CMD and unassigned numbers read 0. -/
def State.readReg (s : State) (r : Nat) : Byte :=
  match r with
  | 1 => s.status
  | 2 => s.err
  | 3 => s.errinfo
  | _ => 0#8

/-- A host write of register `r` (R89, R100): only CMD does anything, and only for a value that is a command (R82). -/
def hostWrite (r : Nat) (v : Byte) (s : State) : Host.Outcome State Fault Refusal :=
  if r = 0 then
    match decodeCmd v with
    | .ok i => exec i s
    | .error _ => .next s
  else .next s

/-- What is left of the running unit's pseudocode at a state, as an operation (R201). -/
def remaining (s : State) : Act :=
  match s.phase with
  | .idle => .go s
  | .count => countAct s
  | .build => buildAct s
  | .gencodes => gencodesAct s
  | .wrhdr => wrhdrAct s
  | .rewind => .go (inReset s)
  | .encode => encodeAct s
  | .rdhdr => if s.expect = .unit then rdhdrAct s else rdhdrLoop headerFuel s
  | .decode => if s.expect = .unit then decodeAct s else decodeLoop (s.unread + 1) s
  | .close => .go (outClose s)
  | .fault => .go s

/-- A running operation abandoned by a reset (R201, U16): some first part of its transactions has taken effect on the transports;
which part is a free value (log 9). -/
def abandon (s : State) : State :=
  let later := (remaining s).state.trace.drop s.trace.length
  (later.take (Config.abandoned s.free)).foldl (fun u t => applyTxn t u) { s with free := s.free + 1 }

/-- One action of the host (R84). WAIT is "read STATUS until BUSY = 0", and the spec leaves open how many reads that makes. DESIGN
CHOICE, safe (log 24): WAIT ends where the core rests, and records no read in `reads`; that the core rests is read from PHASE, which by
R31 says the same as BUSY = 0 (the invariant `State.Consistent`, log 15). -/
def hostAct (a : HostAction) (s : State) : Host.Outcome State Fault Refusal :=
  match a with
  | .reset => .next (if s.phase.busy then (abandon s).coreReset else s.coreReset)
  | .attachIn bits second =>
    if s.phase.busy then .refused .transportInUse
    else .next { s with inp := { bits := bits, pos := 0, second := second }, stalled := false }
  | .attachOut =>
    if s.phase.busy then .refused .transportInUse
    else .next { s with out := { bits := [], closed := false } }
  | .write r v => hostWrite r v s
  | .read r => .next { s with reads := s.reads ++ [(r, s.readReg r)] }
  | .wait => .next s
  | .stall => .next { s with stalled := true }

/-- One step of the whole: the host's next action, or the core's move. While the core rests the host moves; a host that WAITs, or has
nothing to do, leaves the moves to a running command; where a command runs and the host has another action, which of them moves
first is a free value (log 8), and the counter advances so that the next choice is a fresh one. That a WAIT ends is read from PHASE, not
from STATUS (DESIGN CHOICE, log 24; the two agree by R31). -/
def stepState (s : State) : Host.Outcome State Fault Refusal :=
  match s.host with
  | [] => coreStep s
  | .wait :: rest => if s.phase.busy then coreStep s else hostAct .wait { s with host := rest }
  | a :: rest =>
    if s.phase.busy then
      if Config.hostFirst s.free then hostAct a { s with host := rest, free := s.free + 1 }
      else coreStep { s with free := s.free + 1 }
    else hostAct a { s with host := rest }

/-- The state in which the next step runs instruction `i` (log 20): a command stands as the host's write while the core rests; a
unit operation or a sequencer step in PHASE of a running command, and for GENCODES and WRHDR, which R106 gives the precondition TV = 1,
the smallest tree where the state holds none; a stream element at IN's position inside the unit that reads it. -/
def placeInstr (s : State) (i : Instr) : State :=
  let unitAt (p : Phase) : State :=
    { s.setStatus true false false with phase := p, expect := .unit, host := [], stalled := false }
  let walkAt (p : Phase) : State :=
    match s.tree with
    | .ok _ => unitAt p
    | .error _ =>
      { (unitAt p).setNode 0#10 (leafNode (BitVec.ofNat 9 Config.eofSym) 1#41) with
        root := 0#10, nalloc := 1#10, tv := true }
  let elementAt (e : Expect) : State :=
    { s.setStatus true false false with
      phase := .rdhdr
      expect := e
      host := []
      stalled := false
      nalloc := 0#10
      walk := []
      inp := { bits := encode i, pos := 0, second := none } }
  let writeAt (v : Byte) : State :=
    { s with phase := if s.phase.busy then .idle else s.phase, host := [.write 0 v] }
  match i with
  | .compress => writeAt 0#8
  | .decompress => writeAt 1#8
  | .count => unitAt .count
  | .build => unitAt .build
  | .gencodes => walkAt .gencodes
  | .wrhdr => walkAt .wrhdr
  | .encode => unitAt .encode
  | .rdhdr => unitAt .rdhdr
  | .decode => unitAt .decode
  | .rewind => unitAt .rewind
  | .close => unitAt .close
  | .marker _ => elementAt .marker
  | .nodeInternal => elementAt .node
  | .nodeLeaf _ => elementAt .node
  | .codeword _ => s
  | .pad _ => s

end Sys2Proof.Machine
end

