-- ==== Sys2Proof/Machine/Step.lean ====
section
/-! DEFINITION. The step, and the placing of a table word where the next step runs it. -/

namespace Sys2Proof.Machine

/-- One step of the machine and its host (Machine/Sequencer.lean). -/
def step (s : State) : Host.Outcome State Fault Refusal := stepState s

/-- `s` with the instruction of a table word placed where the next step runs it (log 19, 20). -/
def State.withFetchWord (s : State) (nbits w : Nat) : State :=
  match decodeTableWord nbits w with
  | some i => placeInstr s i
  | none => s

end Sys2Proof.Machine
end

