-- ==== Sys2Proof/Safety.lean ====
section
/-! DEFINITION. The terms claims are stated in: what a stream holds, the transactions an operation makes, and the two invariants of the
machine: its control registers agree (10_state.md R28 to R36), and each operation finds what it needs (40_commands.md R106). -/

namespace Sys2Proof.Machine

/-- The bits of IN not read yet (R38). -/
def State.ahead (s : State) : List Bool := s.inp.bits.drop s.inp.pos

/-- `s` after bits, and the transactions that wrote them, were appended to OUT (R54, R62). -/
def State.wrote (s : State) (bits : List Bool) (txns : List Txn) : State :=
  { s with out := { s.out with bits := s.out.bits ++ bits }, trace := s.trace ++ txns }

/-- The weights of a tree are exact for a table of counts: a leaf's is its symbol's count, an internal node's the sum of its
children's (R21, R124). -/
def weightsExact (count : Nat → Count) : Tree → Prop
  | .leaf sym w => w = (count sym.toNat).toNat
  | .internal w l r => w = l.weight + r.weight ∧ weightsExact count l ∧ weightsExact count r

/-- The transactions of `N` byte reads that returned `bytes`, then EOS (R110, R165). -/
def byteReads (bytes : List Byte) : List Txn :=
  bytes.map (fun b => Txn.inReadBits 8 (some b.toNat)) ++ [.inReadBits 8 none]

/-- The transactions WRHDR makes for a tree, in preorder (R143). -/
def headerWrites : Tree → List Txn
  | .leaf sym _ => [.outWriteBits 1 1, .outWriteBits 9 sym.toNat]
  | .internal _ l r => .outWriteBits 1 0 :: (headerWrites l ++ headerWrites r)

/-- The transactions RDHDR makes for a tree, in preorder (R150). -/
def headerReads : Tree → List Txn
  | .leaf sym _ => [.inReadBits 1 (some 1), .inReadBits 9 (some sym.toNat)]
  | .internal _ l r => .inReadBits 1 (some 0) :: (headerReads l ++ headerReads r)

/-- The transactions that read the bits of a path (R172). -/
def bitReads (c : List Bool) : List Txn := c.map fun b => .inReadBits 1 (some b.toNat)

/-- One node of a header as the stream spells it: `none` is an internal node's tag, `some sym` a leaf's tag and symbol (R72). -/
def nodeBits : Option Sym → List Bool
  | none => [false]
  | some sym => true :: bitsOf 9 sym.toNat

/-- The transactions RDHDR makes for one node (R150). -/
def nodeReads : Option Sym → List Txn
  | none => [.inReadBits 1 (some 0)]
  | some sym => [.inReadBits 1 (some 1), .inReadBits 9 (some sym.toNat)]

/-- How many subtrees are still to come after these nodes, where `n` were to come before them (R78: a tag 0 announces two, a leaf is
one); 0 as soon as none is to come. A header starts with one. -/
def subtreesLeft : Nat → List (Option Sym) → Nat
  | 0, _ => 0
  | n + 1, [] => n + 1
  | n + 1, none :: ns => subtreesLeft (n + 2) ns
  | n + 1, some _ :: ns => subtreesLeft n ns

/-- Where the branches of a path lead from entry `p` of NODE (R83, R172). -/
def State.walkTo (s : State) : Ptr → List Bool → Ptr
  | p, [] => p
  | p, b :: c =>
    match s.nodeAt p with
    | none => p
    | some n => s.walkTo (childOf n b) c

/-- The transactions that emit a code (R161). -/
def codeWrites (c : List Bool) : List Txn := c.map fun b => .outWriteBits 1 b.toNat

/-- What every tie-break rule does (R122): it takes one element of a queue that is not empty, and leaves the others. (That the
element is one of least weight, as TIEBREAK says, is not asked.) -/
def TakesOne (pick : TieBreak) : Prop :=
  (∀ s, pick s [] = none) ∧ ∀ s q, q ≠ [] → ∃ e q', pick s q = some (e, q') ∧ q.Perm (e :: q')

/-- A COMPRESS whose BUILD follows a tie-break rule of its own (R7, R105, U1): the command and COUNT as this machine runs them, BUILD
under that rule, and the other five operations as this machine runs them. -/
def compressBy (pick : TieBreak) (s : State) : Host.Outcome State Fault Refusal :=
  match Sys2Proof.core.run 2 s with
  | .next c =>
    match buildActBy pick c with
    | .go b => Sys2Proof.core.run 5 (advancePhase b)
    | a => a.outcome
  | o => o

/-- The combinations of ERR and ERRINFO that occur (R81, R181 to R186). -/
def legalErrors : List (Byte × Byte) :=
  [(1#8, 0x18#8), (2#8, 0x18#8), (2#8, 0x19#8), (2#8, 0x1A#8), (2#8, 0x1F#8),
   (3#8, 0x1C#8), (3#8, 0x19#8), (3#8, 0x1A#8), (4#8, 0x04#8), (5#8, 0x14#8)]

/-- The control registers agree with each other: STATUS with PHASE (R31), ERR and ERRINFO with the fault state (R32, R33, R81, R189),
the place inside a unit with PHASE, the walk stack empty outside RDHDR (R36), NALLOC, K and IN.pos inside their ranges (R25, R35,
R38). -/
abbrev State.Consistent (s : State) : Prop :=
  (s.phase.busy = true → s.status = 1#8) ∧
  (s.phase = .idle → s.status = 0#8 ∨ s.status = 2#8) ∧
  (s.phase = .fault → s.status = 4#8) ∧
  (s.phase = .fault → (s.err, s.errinfo) ∈ legalErrors) ∧
  (s.phase ≠ .fault → s.err = 0#8 ∧ s.errinfo = 0#8) ∧
  (s.expect = .marker ∨ s.expect = .node → s.phase = .rdhdr) ∧
  (s.expect = .codeword → s.phase = .decode) ∧
  (s.expect ≠ .node → s.walk = []) ∧
  s.nalloc.toNat ≤ Config.nodeCap ∧
  s.k.toNat ≤ 256 ∧
  s.inp.pos ≤ s.inp.bits.length

/-- Whether the root, where it is a Leaf, is childless (R24: a Leaf's pointers are NULL). -/
def State.rootChildless (s : State) : Bool :=
  match s.nodeAt s.root with
  | none => true
  | some n => !n.leaf || (decide (n.left = Config.null) && decide (n.right = Config.null))

/-- Between operations, the preconditions of R106 hold that the block itself sees to: the validity flags, and ENCODE's IN.pos = 0, which
REWIND makes; and while TV is 1 the node memory holds a tree at ROOT (R43). (COUNT's and RDHDR's IN.pos = 0 is the host's duty, R202.) -/
abbrev State.Ready (s : State) : Prop :=
  s.expect = .unit ∧
  (s.phase = .build → s.fv = true) ∧
  (s.phase = .gencodes ∨ s.phase = .wrhdr ∨ s.phase = .decode → s.tv = true) ∧
  (s.phase = .wrhdr ∨ s.phase = .rewind ∨ s.phase = .encode → s.cv = true) ∧
  (s.phase = .encode → s.inp.pos = 0) ∧
  (s.tv = true → s.tree.isOk = true ∧ s.rootChildless = true)

/-- The state in which the host has just been given a fresh pair of transports and the block rests (R202): what every command
starts from. -/
structure State.Fresh (s : State) (input : List Bool) : Prop where
  phase : s.phase = .idle
  busy : s.busy = false
  faulted : s.faulted = false
  expect : s.expect = .unit
  stalled : s.stalled = false
  inp : s.inp = { bits := input, pos := 0, second := none }
  out : s.out = { bits := [], closed := false }

end Sys2Proof.Machine
end

