-- ==== Sys2Proof/Certificates/Slice0/Obligations.lean ====
section
/-! DEFINITION. The statements for the provers, from the numbered rules of spec/. -/

open Sys2Proof Sys2Proof.Machine

/-! ### Encodings (30_encoding.md) -/

/-- A well-formed instruction's bits, standing where such bits can stand and followed by anything, decode to it and leave what
follows. Padding alone asks something of what follows it: it is what stands before the next whole byte (R76). A codeword decodes so in
every tree of which it is a path (R83). -/
def Obligations.DecodeOfEncodeIsTheInstruction : Prop :=
  (∀ (i : Instr) (rest : List Bool), i.WellFormed → (∀ n, i = .pad n → rest.length % 8 = 0) →
    decode i.format (encode i ++ rest) = .ok (i, rest)) ∧
  (∀ (t : Tree) (sym : Sym) (c rest : List Bool), (sym, c) ∈ t.codes →
    decode (.codeword t) (encode (.codeword c) ++ rest) = .ok (.codeword c, rest))

/-- No bit of an encoding is dropped: what decodes is the encoding of what it decodes to (R71 to R73, R79, R80, R83). Padding is the
one exception: its bits are not interpreted (R82). -/
def Obligations.DecodedBitsAreTheEncoding : Prop :=
  ∀ (f : Format) (bs rest : List Bool) (i : Instr), f ≠ .pad → decode f bs = .ok (i, rest) → encode i ++ rest = bs

/-- Words written out from the spec's encodings decode to what they stand for: CMD values (R80), PHASE values (R79), the leaf of byte
65, the sentinel's leaf, an internal node's tag (R72, R73), the default marker's four bytes (R71). -/
def Obligations.SpecWordsDecode : Prop :=
  decode .cmd [false, false, false, false, false, false, false, true] = .ok (.decompress, []) ∧
  decode .phase [false, true, true, false] = .ok (.rdhdr, []) ∧
  decode .node [true, false, false, true, false, false, false, false, false, true] = .ok (.nodeLeaf 65#9, []) ∧
  decode .node [true, true, false, false, false, false, false, false, false, false] = .ok (.nodeLeaf 256#9, []) ∧
  decode .node [false] = .ok (.nodeInternal, []) ∧
  decode .marker (bitsOfBytes [0xFA#8, 0xCE#8, 0x82#8, 0x01#8]) = .ok (.marker 0xFACE8201#32, [])

/-- Every encoding that is not assigned is refused by name (R82): a CMD value with a bit of 7:1 set, PHASE 10 to 14. -/
def Obligations.ReservedRegisterValuesRefused : Prop :=
  (∀ v : Byte, 1 < v.toNat → decodeCmd v = .error .reservedCommand) ∧
  (∀ p : BitVec 4, 9 < p.toNat → p.toNat < 15 → decodePhase p = .error .unusedPhase)

/-- The length of a tree encoding: `T = 11 L - 1` for `L` leaves (R74). -/
def Obligations.TreeEncodingLength : Prop :=
  ∀ t : Tree, t.enc.length + 1 = 11 * t.symbols.length

/-- A tree encoding is self-delimiting and has one reading: at the head of a stream it fixes the tree's shape and symbols, and where
it ends (R78). -/
def Obligations.TreeEncodingHasOneReading : Prop :=
  ∀ (t u : Tree) (r r' : List Bool), t.enc ++ r = u.enc ++ r' → t.shape = u.shape ∧ r = r'

/-- Prefix-freedom (R133): the paths of two different leaves of a tree, neither is a prefix of the other. -/
def Obligations.CodesArePrefixFree : Prop :=
  ∀ (t : Tree) (i j : Nat) (c d : Sym × List Bool), t.codes[i]? = some c → t.codes[j]? = some d → i ≠ j → ¬ c.2 <+: d.2

/-! ### Transport transactions (20_memory.md) -/

/-- `InReadBits(n)` (R51): the next `n` bits as an unsigned integer, the position moved past them, or EOS where fewer remain; after
EOS the position lies between where it was and the end (U7). Nothing else changes but the record of the transaction. -/
def Obligations.ReadReturnsNextBitsOrEos : Prop :=
  ∀ (n : Nat) (s : State),
    (s.inp.pos + n ≤ s.inp.bits.length →
      inReadBits n s =
        (some (valOf (s.ahead.take n)),
          { s with inp := { s.inp with pos := s.inp.pos + n }
                   trace := s.trace ++ [.inReadBits n (some (valOf (s.ahead.take n)))] })) ∧
    (s.inp.pos ≤ s.inp.bits.length → s.inp.bits.length < s.inp.pos + n →
      ∃ p, s.inp.pos ≤ p ∧ p ≤ s.inp.bits.length ∧
        inReadBits n s =
          (none, { s with inp := { s.inp with pos := p }, free := s.free + 1
                          trace := s.trace ++ [.inReadBits n none] }))

/-- `OutWriteBits(n, v)` (R54): the `n` low bits of `v`, most significant first, are appended; on a closed output it is refused. -/
def Obligations.WriteAppendsLowBits : Prop :=
  ∀ (n v : Nat) (s : State),
    (s.out.closed = false →
      ∃ bits, bits.length = n ∧ valOf bits = v % 2 ^ n ∧ outWriteBits n v s = .go (s.wrote bits [.outWriteBits n v])) ∧
    (s.out.closed = true → outWriteBits n v s = .refuse .closedOutput s)

/-- REWIND (R104) is `InReset()` (R53): the position goes to 0, the bits are unchanged, nothing else changes. A transport that breaks
its contract shows its other bits (R204, log 14). -/
def Obligations.RewindReturnsToTheStart : Prop :=
  ∀ s : State,
    (s.inp.second = none →
      exec .rewind s = .next { s with inp := { s.inp with pos := 0 }, trace := s.trace ++ [.inReset] }) ∧
    (∀ bits, s.inp.second = some bits →
      exec .rewind s =
        .next { s with inp := { bits := bits, pos := 0, second := none }, trace := s.trace ++ [.inReset] })

/-- CLOSE (R104) is `OutClose()` (R55): 0 to 7 zero bits complete the last byte, OUT is closed, nothing else changes. -/
def Obligations.ClosePadsToAByte : Prop :=
  ∀ s : State, ∃ p, p ≤ 7 ∧ (s.out.bits.length + p) % 8 = 0 ∧
    exec .close s =
      .next { s with out := { bits := s.out.bits ++ List.replicate p false, closed := true }
                     trace := s.trace ++ [.outClose] }

/-! ### Commands and the sequencer (40_commands.md) -/

/-- A command is accepted when BUSY and FAULT are 0 (R100): DONE 0, BUSY 1, FV, TV, CV 0, PHASE the command's first unit; nothing
else changes. -/
def Obligations.CommandIsAccepted : Prop :=
  ∀ s : State, s.busy = false → s.faulted = false →
    exec .compress s =
      .next { s with status := 1#8, fv := false, tv := false, cv := false, phase := .count, expect := .unit } ∧
    exec .decompress s =
      .next { s with status := 1#8, fv := false, tv := false, cv := false, phase := .rdhdr, expect := .unit }

/-- A host write of `c` to CMD (R100), whole: (a) nothing while BUSY or FAULT is 1; (b) nothing for a reserved value; else DONE 0, BUSY
1, FV, TV, CV 0, PHASE COUNT for COMPRESS and RDHDR for DECOMPRESS; nothing else changes. -/
def Obligations.CmdWriteIsAcceptedOrIgnored : Prop :=
  ∀ (s : State) (c : Byte),
    (s.busy = true ∨ s.faulted = true → hostWrite 0 c s = .next s) ∧
    (1 < c.toNat → hostWrite 0 c s = .next s) ∧
    (s.busy = false → s.faulted = false → c = 0#8 →
      hostWrite 0 c s =
        .next { s with status := 1#8, fv := false, tv := false, cv := false, phase := .count, expect := .unit }) ∧
    (s.busy = false → s.faulted = false → c = 1#8 →
      hostWrite 0 c s =
        .next { s with status := 1#8, fv := false, tv := false, cv := false, phase := .rdhdr, expect := .unit })

/-- While BUSY or FAULT is 1 a command does nothing (R100 (a)). -/
def Obligations.CommandIgnoredWhileBusyOrFaulted : Prop :=
  ∀ s : State, s.busy = true ∨ s.faulted = true → exec .compress s = .next s ∧ exec .decompress s = .next s

/-- The four host registers (R89): a write to CMD of a command runs it, any other write changes nothing (R82, U13); CMD and the
unassigned numbers read 0, the others read their register. -/
def Obligations.HostRegisters : Prop :=
  ∀ s : State,
    hostWrite 0 0#8 s = exec .compress s ∧ hostWrite 0 1#8 s = exec .decompress s ∧
    (∀ (r : Nat) (v : Byte), r ≠ 0 ∨ 1 < v.toNat → hostWrite r v s = .next s) ∧
    s.readReg 0 = 0#8 ∧ s.readReg 1 = s.status ∧ s.readReg 2 = s.err ∧ s.readReg 3 = s.errinfo ∧
    (∀ r : Nat, 4 ≤ r → s.readReg r = 0#8)

/-- The order of the operations of a command (R101, R102): each phase's operation is followed by the one the rule names, and CLOSE
by completion (R103): FV, TV, CV 0, PHASE IDLE, BUSY 0, DONE 1, ERR and ERRINFO as they are. -/
def Obligations.SequencerFollowsTheCommandsOrder : Prop :=
  ∀ s : State,
    (s.phase = .count → advancePhase s = { s with phase := .build, expect := .unit }) ∧
    (s.phase = .build → advancePhase s = { s with phase := .gencodes, expect := .unit }) ∧
    (s.phase = .gencodes → advancePhase s = { s with phase := .wrhdr, expect := .unit }) ∧
    (s.phase = .wrhdr → advancePhase s = { s with phase := .rewind, expect := .unit }) ∧
    (s.phase = .rewind → advancePhase s = { s with phase := .encode, expect := .unit }) ∧
    (s.phase = .encode → advancePhase s = { s with phase := .close, expect := .unit }) ∧
    (s.phase = .rdhdr → advancePhase s = { s with phase := .decode, expect := .unit }) ∧
    (s.phase = .decode → advancePhase s = { s with phase := .close, expect := .unit }) ∧
    (s.phase = .close → s.faulted = false →
      (advancePhase s).phase = .idle ∧ (advancePhase s).status = 2#8 ∧ (advancePhase s).fv = false ∧ (advancePhase s).tv = false ∧
      (advancePhase s).cv = false ∧ (advancePhase s).err = s.err ∧ (advancePhase s).errinfo = s.errinfo ∧
      (advancePhase s).inp = s.inp ∧ (advancePhase s).out = s.out ∧ (advancePhase s).trace = s.trace) ∧
    (s.phase = .fault → advancePhase s = s)

/-- A step runs the operation PHASE names (R28, R101, R102): when the phase code decodes to an instruction and no unit is half way,
the step is that instruction's meaning, after which the sequencer moves on. -/
def Obligations.StepRunsThePhasesOperation : Prop :=
  ∀ (s : State) (i : Instr), s.host = [] → s.stalled = false → s.expect = .unit → decodePhase s.phase.code = .ok i →
    step s = onNext advancePhase (exec i s)

/-- A step inside a unit runs the stream element it read, and the sequencer moves on when the unit has ended (that a unit can stand
between two elements is the model's own, log 17). -/
def Obligations.StepRunsTheFetchedElement : Prop :=
  ∀ (s t : State) (i : Instr), s.host = [] → s.stalled = false → s.expect ≠ .unit → fetchElement s = .got i t →
    step s = onNext advanceIfEnded (exec i t)

/-- A step in which the host writes a command while the core rests runs that command (R100). -/
def Obligations.StepRunsTheHostsCommand : Prop :=
  ∀ (s : State) (v : Byte) (i : Instr) (rest : List HostAction), s.phase.busy = false → s.host = .write 0 v :: rest →
    decodeCmd v = .ok i → step s = exec i { s with host := rest }

/-- The element of the header that is read at IN.pos is the one the decoder reads in the bits there, and IN.pos moves past exactly its
bits (R71 to R73, R151, R152). -/
def Obligations.FetchedHeaderElementIsTheDecodedOne : Prop :=
  ∀ (s t : State) (i : Instr),
    (fetchMarker s = .got i t → decode .marker s.ahead = .ok (i, t.ahead) ∧ t.inp.bits = s.inp.bits) ∧
    (fetchNode s = .got i t → decode .node s.ahead = .ok (i, t.ahead) ∧ t.inp.bits = s.inp.bits)

/-- The core rests in IDLE and in FAULT: with no host action, a step changes nothing (R200: no self-start; R189). While a transport
does not answer, a running core makes no step either: whatever the host does but reset, PHASE, STATUS and the transactions stay as they
are, BUSY is 1 and the transport stays silent (R216, U9; that the silence falls between two steps is the model's choice, log 13). -/
def Obligations.RestingCoreDoesNothing : Prop :=
  (∀ s : State, s.host = [] → s.expect = .unit → s.phase = .idle ∨ s.phase = .fault → step s = .next s) ∧
  (∀ s : State, s.host = [] → s.stalled = true → step s = .next s) ∧
  (∀ s t : State, s.stalled = true → s.phase.busy = true → s.busy = true → s.host.head? ≠ some .reset → step s = .next t →
    t.phase = s.phase ∧ t.status = s.status ∧ t.busy = true ∧ t.inp = s.inp ∧ t.out = s.out ∧ t.trace = s.trace ∧ t.stalled = true)

/-! ### COUNT (41_symbol_frequency_counter.md) -/

/-- COUNT completes when no byte value occurs `2^32` times (R110, R111, R113): FREQ holds the occurrences of each byte value of the
input, FREQ[256] is 1, FV is 1; bits after the last whole byte are not counted; nothing else changes but IN.pos. -/
def Obligations.CountTabulatesTheInput : Prop :=
  ∀ (s : State) (bytes : List Byte) (tail : List Bool),
    s.inp.pos ≤ s.inp.bits.length → s.ahead = bitsOfBytes bytes ++ tail → tail.length < 8 →
    (∀ b : Byte, bytes.count b < 2 ^ 32) →
    ∃ t, exec .count s = .next t ∧
      (∀ b : Byte, (t.freqAt b.toNat).toNat = bytes.count b) ∧ t.freqAt 256 = 1#32 ∧
      t = { s with freq := t.freq, fv := true, inp := { s.inp with pos := t.inp.pos }
                   trace := s.trace ++ byteReads bytes, free := t.free } ∧
      s.inp.pos + 8 * bytes.length ≤ t.inp.pos ∧ t.inp.pos ≤ s.inp.bits.length

/-- A count that would pass `2^32 - 1` raises CountOverflow (R112, R184): ERR 4, sub-cause 0, and OUT is untouched. -/
def Obligations.CountOverflowIsRaised : Prop :=
  ∀ (s : State) (bytes : List Byte) (tail : List Bool) (b : Byte),
    s.ahead = bitsOfBytes bytes ++ tail → 2 ^ 32 ≤ bytes.count b → s.phase = .count →
    ∃ t, exec .count s = .next t ∧ t.phase = .fault ∧ t.status = 4#8 ∧ t.err = 4#8 ∧ t.errinfo = 0x04#8 ∧
      t.fv = false ∧ t.tv = false ∧ t.cv = false ∧ t.out = s.out

/-! ### BUILD (42_huffman_tree_builder.md) -/

/-- `removeMin` (R122): of a queue that is not empty it takes an element whose pair (weight, seq) is the least, the weights compared
first and the seq numbers where the weights are equal, and leaves the others; of an empty queue it takes nothing. -/
def Obligations.RemoveMinTakesTheLeastKey : Prop :=
  ∀ (s : State) (q : List QEntry),
    (q = [] → s.removeMin q = none) ∧
    (q ≠ [] → ∃ e q', s.removeMin q = some (e, q') ∧ q.Perm (e :: q') ∧
      ∀ x ∈ q, s.weightOf e < s.weightOf x ∨ (s.weightOf e = s.weightOf x ∧ e.seq.toNat ≤ x.seq.toNat))

/-- BUILD always completes (R127) and makes a tree whose leaves are exactly the symbols with a nonzero count, each once (R121, R125),
with exact weights (R124), and with the smaller key on the left of every internal node, keys of equal weight in the order of the node
indices, which is that of their seq numbers (R25, R122, R123): `NALLOC = 2 L - 1`, `ROOT = 2 L - 2`, `K = L - 1` for `L` leaves (R25,
R125), Q the root alone, FV cleared, TV set; nothing else changes. -/
def Obligations.BuildMakesTheTreeOfTheCounts : Prop :=
  ∀ s : State, ∃ (t : State) (tr : Tree), exec .build s = .next t ∧ t.tree = .ok tr ∧
    (tr.symbols.map BitVec.toNat).Perm ((List.range 257).filter fun sym => s.freqAt sym ≠ 0#32) ∧
    weightsExact s.freqAt tr ∧
    (∀ p n, p.toNat < t.nalloc.toNat → t.nodeAt p = some n → n.leaf = false →
      ∃ l r, t.nodeAt n.left = some l ∧ t.nodeAt n.right = some r ∧
        (l.weight.toNat < r.weight.toNat ∨ (l.weight.toNat = r.weight.toNat ∧ n.left.toNat < n.right.toNat))) ∧
    t.nalloc.toNat + 1 = 2 * tr.symbols.length ∧ t.root.toNat + 2 = 2 * tr.symbols.length ∧
    t.k.toNat + 1 = tr.symbols.length ∧ t.q.map QEntry.ptr = [t.root] ∧
    t = { s with node := t.node, root := t.root, nalloc := t.nalloc, q := t.q, k := t.k, fv := false, tv := true
                 free := t.free }

/-- Determinism (R126): the tree is a function of the counts alone. -/
def Obligations.BuildDependsOnTheCountsAlone : Prop :=
  ∀ s s' t t' : State, (∀ sym, sym ≤ 256 → s.freqAt sym = s'.freqAt sym) →
    exec .build s = .next t → exec .build s' = .next t' → t.tree = t'.tree

/-- A pass of BUILD's loop (R120, R123, R124): `removeMin` twice, then the merge of the first and the second removed. The merge: the new
node's left child is the first, its right child the second, its weight the sum of theirs, its seq `257 + K`. -/
def Obligations.MergeMakesTheInternalNode : Prop :=
  ∀ (s : State) (a b : QEntry),
    (∀ (fuel : Nat) (q1 q2 : List QEntry), s.removeMin s.q = some (a, q1) → s.removeMin q1 = some (b, q2) →
      mergeLoopBy State.removeMin (fuel + 1) s = mergeLoopBy State.removeMin fuel (s.merge a b q2)) ∧
    (∀ q : List QEntry, s.nalloc.toNat < Config.nodeCap → s.weightOf a + s.weightOf b < 2 ^ 41 → s.k.toNat < 256 →
      ∃ n, (s.merge a b q).nodeAt s.nalloc = some n ∧ n.leaf = false ∧ n.left = a.ptr ∧ n.right = b.ptr ∧
        n.weight.toNat = s.weightOf a + s.weightOf b ∧
        (s.merge a b q).k.toNat = s.k.toNat + 1 ∧ (s.merge a b q).nalloc.toNat = s.nalloc.toNat + 1 ∧
        ∃ e, (s.merge a b q).q = q ++ [e] ∧ e.ptr = s.nalloc ∧ e.seq.toNat = 257 + s.k.toNat)

/-! ### GENCODES (43_canonical_code_generator.md) -/

/-- GENCODES on a tree (R130, R132, R135): a symbol has an entry exactly when it labels a leaf, its code is the path to the leaf of it
that is visited last, CV is set; nothing else changes. -/
def Obligations.GencodesRecordsThePaths : Prop :=
  ∀ (s : State) (t : Tree), s.tree = .ok t →
    ∃ u, exec .gencodes s = .next u ∧ u = { s with code := u.code, codev := u.codev, cv := true } ∧
      (∀ sym : Sym, u.codevAt sym.toNat = decide (sym ∈ t.symbols)) ∧
      (∀ (before after : List (Sym × List Bool)) (sym : Sym) (path : List Bool),
        t.codes = before ++ (sym, path) :: after → (∀ c ∈ after, c.1 ≠ sym) → u.codeAt sym.toNat = path)

/-! ### WRHDR (44_tree_serializer.md) -/

/-- WRHDR on a tree (R140 to R143): the marker and the tree's preorder encoding are appended to OUT, in the transactions R143 lists;
nothing of the core changes. -/
def Obligations.WrhdrWritesMarkerAndTree : Prop :=
  ∀ (s : State) (t : Tree), s.tree = .ok t → s.out.closed = false →
    exec .wrhdr s =
      .next (s.wrote (bitsOf 32 s.magic.toNat ++ t.enc) (.outWriteBits 32 s.magic.toNat :: headerWrites t))

/-! ### RDHDR (45_tree_deserializer.md) -/

/-- Header self-description (R156): on the header of any tree of at most 257 leaves with symbols at most 256, whatever follows it,
RDHDR ends without a fault with that tree's shape and symbols, every weight 0 (R152), IN.pos just past the header, NALLOC its number
of nodes and ROOT 0 (R25), TV set; its transactions are the marker's read and then, node by node in preorder, a tag's read and a leaf's
symbol's (R150); nothing else changes. -/
def Obligations.HeaderSelfDescription : Prop :=
  ∀ (s : State) (t : Tree) (rest : List Bool),
    s.ahead = bitsOf 32 s.magic.toNat ++ t.enc ++ rest → t.symbols.length ≤ 257 → (∀ sym ∈ t.symbols, sym.toNat ≤ 256) →
    ∃ u, exec .rdhdr s = .next u ∧ u.tree = .ok t.shape ∧ u.inp.pos = s.inp.pos + 32 + t.enc.length ∧
      u.nalloc.toNat = t.size ∧ u.root = 0#10 ∧
      u = { s with node := u.node, root := u.root, nalloc := u.nalloc, walk := [], tv := true, expect := .unit
                   inp := { s.inp with pos := u.inp.pos }, free := u.free
                   trace := s.trace ++ .inReadBits 32 (some s.magic.toNat) :: headerReads t }

/-- The marker check (R151, R181): 32 bits that are not MAGIC raise FormatError after that one read, with OUT as it was. -/
def Obligations.ForeignMarkerIsAFormatError : Prop :=
  ∀ (s : State) (m : Nat) (rest : List Bool), s.ahead = bitsOf 32 m ++ rest → m < 2 ^ 32 → m ≠ s.magic.toNat →
    s.phase = .rdhdr →
    ∃ t, exec .rdhdr s = .next t ∧ t.phase = .fault ∧ t.status = 4#8 ∧ t.err = 1#8 ∧ t.errinfo = 0x18#8 ∧
      t.tv = false ∧ t.inp.pos = s.inp.pos + 32 ∧ t.out = s.out ∧ t.trace = s.trace ++ [.inReadBits 32 (some m)]

/-- A stream that ends inside the header raises TruncatedStreamError (R151, R153, R182): inside the marker with sub-cause 0; where a
node's tag would stand with sub-cause 1; inside a leaf's symbol with sub-cause 2. `nodes` are any nodes that announce more subtrees than
they complete, whether or not a tree that fits would complete them; the last clause says the same of the bits of a tree cut anywhere. TV
stays 0, OUT is as it was. (That ROOT is NULL after the fault is R153's word for the tree; against U14, and for the marker, it is the
model's choice, log 5.) -/
def Obligations.TruncatedHeaderIsRaised : Prop :=
  ∀ s : State, s.phase = .rdhdr →
    (s.ahead.length < 32 →
      ∃ t, exec .rdhdr s = .next t ∧ t.phase = .fault ∧ t.status = 4#8 ∧ t.err = 2#8 ∧ t.errinfo = 0x18#8 ∧
        t.tv = false ∧ t.root = Config.null ∧ t.out = s.out ∧ t.trace = s.trace ++ [.inReadBits 32 none]) ∧
    (∀ nodes : List (Option Sym), s.ahead = bitsOf 32 s.magic.toNat ++ nodes.flatMap nodeBits →
      nodes.length < 513 → (∀ sym, some sym ∈ nodes → sym.toNat ≤ 256) → 0 < subtreesLeft 1 nodes →
      ∃ t, exec .rdhdr s = .next t ∧ t.phase = .fault ∧ t.status = 4#8 ∧ t.err = 2#8 ∧ t.errinfo = 0x19#8 ∧
        t.tv = false ∧ t.root = Config.null ∧ t.out = s.out ∧
        t.trace = s.trace ++ .inReadBits 32 (some s.magic.toNat) :: (nodes.flatMap nodeReads ++ [.inReadBits 1 none])) ∧
    (∀ (nodes : List (Option Sym)) (p : List Bool),
      s.ahead = bitsOf 32 s.magic.toNat ++ (nodes.flatMap nodeBits ++ true :: p) → p.length < 9 →
      nodes.length < 513 → (∀ sym, some sym ∈ nodes → sym.toNat ≤ 256) → 0 < subtreesLeft 1 nodes →
      ∃ t, exec .rdhdr s = .next t ∧ t.phase = .fault ∧ t.status = 4#8 ∧ t.err = 2#8 ∧ t.errinfo = 0x1A#8 ∧
        t.tv = false ∧ t.root = Config.null ∧ t.out = s.out ∧
        t.trace = s.trace ++ .inReadBits 32 (some s.magic.toNat) ::
          (nodes.flatMap nodeReads ++ [.inReadBits 1 (some 1), .inReadBits 9 none])) ∧
    (∀ (t : Tree) (p : List Bool), s.ahead = bitsOf 32 s.magic.toNat ++ p → p <+: t.enc → p ≠ t.enc →
      t.symbols.length ≤ 257 → (∀ sym ∈ t.symbols, sym.toNat ≤ 256) →
      ∃ u, exec .rdhdr s = .next u ∧ u.phase = .fault ∧ u.status = 4#8 ∧ u.err = 2#8 ∧
        (u.errinfo = 0x19#8 ∨ u.errinfo = 0x1A#8) ∧ u.tv = false ∧ u.root = Config.null ∧ u.out = s.out)

/-- A header whose tree has more than 513 nodes raises CorruptTreeError sub-cause 2 (R154, R183); so do 513 nodes that announce another,
whatever follows them, and the tag of that other node is not read (R154 (b)). -/
def Obligations.OversizedTreeIsRaised : Prop :=
  ∀ (s : State) (rest : List Bool), s.phase = .rdhdr →
    (∀ t : Tree, s.ahead = bitsOf 32 s.magic.toNat ++ t.enc ++ rest → 513 < t.size → (∀ sym ∈ t.symbols, sym.toNat ≤ 256) →
      ∃ u, exec .rdhdr s = .next u ∧ u.phase = .fault ∧ u.status = 4#8 ∧ u.err = 3#8 ∧ u.errinfo = 0x1A#8 ∧ u.tv = false ∧
        u.out = s.out) ∧
    (∀ nodes : List (Option Sym), s.ahead = bitsOf 32 s.magic.toNat ++ (nodes.flatMap nodeBits ++ rest) → nodes.length = 513 →
      (∀ sym, some sym ∈ nodes → sym.toNat ≤ 256) → 0 < subtreesLeft 1 nodes →
      ∃ u, exec .rdhdr s = .next u ∧ u.phase = .fault ∧ u.status = 4#8 ∧ u.err = 3#8 ∧ u.errinfo = 0x1A#8 ∧ u.tv = false ∧
        u.out = s.out ∧ u.inp.pos = s.inp.pos + 32 + (nodes.flatMap nodeBits).length ∧
        u.trace = s.trace ++ .inReadBits 32 (some s.magic.toNat) :: nodes.flatMap nodeReads)

/-- The two checks of R154. In RDHDR as a whole: a leaf's symbol field of 257 to 511, after any nodes that announce another, raises
CorruptTreeError sub-cause 1 once the field was read, and nothing after it is read. In a step that stands where a node is to be read (a
place inside the unit, the model's own grain, log 17): a node beyond the capacity is refused before its tag is read, and such a symbol
after its field was. -/
def Obligations.HeaderNodeChecks : Prop :=
  ∀ s : State, s.phase = .rdhdr →
    (∀ (nodes : List (Option Sym)) (v : Nat) (rest : List Bool),
      s.ahead = bitsOf 32 s.magic.toNat ++ (nodes.flatMap nodeBits ++ true :: (bitsOf 9 v ++ rest)) → 256 < v → v < 512 →
      nodes.length < 513 → (∀ sym, some sym ∈ nodes → sym.toNat ≤ 256) → 0 < subtreesLeft 1 nodes →
      ∃ t, exec .rdhdr s = .next t ∧ t.phase = .fault ∧ t.status = 4#8 ∧ t.err = 3#8 ∧ t.errinfo = 0x19#8 ∧ t.tv = false ∧
        t.out = s.out ∧ t.inp.pos = s.inp.pos + 32 + (nodes.flatMap nodeBits).length + 10 ∧
        t.trace = s.trace ++ .inReadBits 32 (some s.magic.toNat) ::
          (nodes.flatMap nodeReads ++ [.inReadBits 1 (some 1), .inReadBits 9 (some v)])) ∧
    (s.expect = .node → s.host = [] → s.stalled = false →
      (s.nalloc.toNat = 513 →
        ∃ t, step s = .next t ∧ t.phase = .fault ∧ t.err = 3#8 ∧ t.errinfo = 0x1A#8 ∧ t.inp = s.inp ∧ t.trace = s.trace) ∧
      (∀ (v : Nat) (rest : List Bool), s.nalloc.toNat < 513 → 256 < v → v < 512 → s.ahead = true :: (bitsOf 9 v ++ rest) →
        ∃ t, step s = .next t ∧ t.phase = .fault ∧ t.err = 3#8 ∧ t.errinfo = 0x19#8 ∧ t.inp.pos = s.inp.pos + 10))

/-! ### ENCODE (46_huffman_encoder.md) -/

/-- ENCODE completes when every byte of the input has an entry (R160 to R162, R165): the codes of the bytes in input order, then the
sentinel's once, are appended to OUT, one bit a transaction, each byte's code before the next byte is read; CV is cleared; nothing
else changes but IN.pos. -/
def Obligations.EncodeEmitsTheCodes : Prop :=
  ∀ (s : State) (bytes : List Byte) (tail : List Bool),
    s.ahead = bitsOfBytes bytes ++ tail → tail.length < 8 → (∀ b ∈ bytes, s.codevAt b.toNat = true) →
    s.out.closed = false →
    ∃ t, exec .encode s = .next t ∧
      t = { (s.wrote (bytes.flatMap (fun b => s.codeAt b.toNat) ++ s.codeAt 256)
            (bytes.flatMap (fun b => .inReadBits 8 (some b.toNat) :: codeWrites (s.codeAt b.toNat)) ++
              .inReadBits 8 none :: codeWrites (s.codeAt 256))) with
            cv := false, inp := { s.inp with pos := t.inp.pos }, free := t.free }

/-- A byte without an entry raises MissingCode (R163, R185): the codes emitted before it stay on OUT, not closed. -/
def Obligations.ByteWithoutCodeIsRaised : Prop :=
  ∀ (s : State) (bytes : List Byte) (b : Byte) (rest : List Bool),
    s.ahead = bitsOfBytes bytes ++ (bitsOf 8 b.toNat ++ rest) → (∀ x ∈ bytes, s.codevAt x.toNat = true) →
    s.codevAt b.toNat = false → s.out.closed = false → s.phase = .encode →
    ∃ t, exec .encode s = .next t ∧ t.phase = .fault ∧ t.status = 4#8 ∧ t.err = 5#8 ∧ t.errinfo = 0x14#8 ∧
      t.out = { bits := s.out.bits ++ bytes.flatMap (fun x => s.codeAt x.toNat), closed := false } ∧
      t.inp.pos = s.inp.pos + 8 * (bytes.length + 1)

/-! ### DECODE (47_huffman_decoder.md) -/

/-- DECODE completes on a payload made of paths of the tree that ends with a sentinel's path (R170 to R173, R177, R178): it writes one
byte for each literal, in order, and reads not one bit more than the paths; its transactions are, path by path, one read a bit and then
the literal's write, and at the end the reads of the sentinel's path; CUR is left at that sentinel's leaf; nothing else changes. -/
def Obligations.DecodeFollowsThePaths : Prop :=
  ∀ (s : State) (t : Tree) (words : List (Sym × List Bool)) (stop rest : List Bool),
    s.tree = .ok t → s.out.closed = false → (∀ w ∈ words, w ∈ t.codes ∧ w.1.toNat < 256) → (256#9, stop) ∈ t.codes →
    s.ahead = words.flatMap (fun w => w.2) ++ stop ++ rest →
    exec .decode s =
      .next { s with cur := s.walkTo s.root stop, expect := .unit
                     trace := s.trace ++ words.flatMap (fun w => bitReads w.2 ++ [.outWriteBits 8 w.1.toNat]) ++ bitReads stop
                     out := { bits := s.out.bits ++ words.flatMap (fun w => bitsOf 8 w.1.toNat), closed := false }
                     inp := { s.inp with pos := s.inp.pos + (words.flatMap (fun w => w.2)).length + stop.length } }

/-- The pre-loop test (R171): a root that is the sentinel's leaf stops DECODE before any transaction. -/
def Obligations.DecodeStopsAtASentinelRoot : Prop :=
  ∀ (s : State) (n : Node), s.nodeAt s.root = some n → n.leaf = true → n.sym = 256#9 →
    exec .decode s = .next { s with cur := s.root, expect := .unit }

/-- A payload that ends before the sentinel's path is complete raises TruncatedStreamError sub-cause 3 (R174, R182); the literals
already written stay, and OUT is not closed (R190). So does DECODE on a tree that is one leaf, not the sentinel's, where no bit is left:
the end of the stream is tested before the cursor moves (R175 (a), U24). -/
def Obligations.TruncatedPayloadIsRaised : Prop :=
  (∀ (s : State) (t : Tree) (words : List (Sym × List Bool)) (c : Sym × List Bool) (p : List Bool),
    s.tree = .ok t → s.out.closed = false → s.phase = .decode → (∀ w ∈ words, w ∈ t.codes ∧ w.1.toNat < 256) →
    c ∈ t.codes → p <+: c.2 → p ≠ c.2 → s.ahead = words.flatMap (fun w => w.2) ++ p →
    ∃ u, exec .decode s = .next u ∧ u.phase = .fault ∧ u.status = 4#8 ∧ u.err = 2#8 ∧ u.errinfo = 0x1F#8 ∧
      u.out = { bits := s.out.bits ++ words.flatMap (fun w => bitsOf 8 w.1.toNat), closed := false }) ∧
  (∀ (s : State) (n : Node), s.phase = .decode → s.nodeAt s.root = some n → n.leaf = true → n.sym ≠ 256#9 → s.ahead = [] →
    ∃ u, exec .decode s = .next u ∧ u.phase = .fault ∧ u.status = 4#8 ∧ u.err = 2#8 ∧ u.errinfo = 0x1F#8 ∧
      u.out = s.out ∧ u.trace = s.trace ++ [.inReadBits 1 none])

/-- The absent cursor (R175): CorruptTreeError sub-cause 0, with nothing written. (a) A root that is a leaf but not the sentinel's
raises it once one bit is read. (b) So does an internal node whose child in the direction of the bit is NULL, wherever the branches of
`c` through internal nodes lead to it. (c) No tree at all raises it before any read. -/
def Obligations.AbsentCursorIsRaised : Prop :=
  ∀ s : State, s.phase = .decode →
    (∀ (n : Node) (b : Bool) (rest : List Bool), s.nodeAt s.root = some n → n.leaf = true → n.sym ≠ 256#9 →
      n.left = Config.null → n.right = Config.null → s.ahead = b :: rest →
      ∃ t, exec .decode s = .next t ∧ t.phase = .fault ∧ t.status = 4#8 ∧ t.err = 3#8 ∧ t.errinfo = 0x1C#8 ∧
        t.out = s.out ∧ t.inp.pos = s.inp.pos + 1) ∧
    (∀ (c : List Bool) (n : Node) (b : Bool) (rest : List Bool),
      (∀ d, d <+: c → ∃ m, s.nodeAt (s.walkTo s.root d) = some m ∧ m.leaf = false) →
      s.nodeAt (s.walkTo s.root c) = some n → childOf n b = Config.null → s.ahead = c ++ b :: rest →
      ∃ t, exec .decode s = .next t ∧ t.phase = .fault ∧ t.status = 4#8 ∧ t.err = 3#8 ∧ t.errinfo = 0x1C#8 ∧
        t.out = s.out ∧ t.inp.pos = s.inp.pos + c.length + 1) ∧
    (s.root = Config.null →
      ∃ t, exec .decode s = .next t ∧ t.phase = .fault ∧ t.status = 4#8 ∧ t.err = 3#8 ∧ t.errinfo = 0x1C#8 ∧
        t.out = s.out ∧ t.inp = s.inp)

/-- The sentinel is never a literal byte (R176): whatever DECODE does, what it adds to OUT is a sequence of bytes (R173). -/
def Obligations.DecodeWritesWholeBytes : Prop :=
  ∀ s t : State, exec .decode s = .next t → ∃ bytes : List Byte, t.out.bits = s.out.bits ++ bitsOfBytes bytes

/-! ### The stream elements (30_encoding.md, where the units write and read them) -/

/-- A header element run in WRHDR appends its own encoding to OUT and changes nothing else. That the elements are instructions which
write themselves there is the model's choice (log 17), also for a marker that is not MAGIC and a symbol that WRHDR never writes; what
WRHDR itself writes (R140, R141, R143) is WrhdrWritesMarkerAndTree. -/
def Obligations.HeaderElementsWriteTheirEncoding : Prop :=
  ∀ (s : State) (m : Mark) (sym : Sym), s.phase = .wrhdr → s.out.closed = false →
    exec (.marker m) s = .next (s.wrote (encode (.marker m)) [.outWriteBits 32 m.toNat]) ∧
    exec .nodeInternal s = .next (s.wrote (encode .nodeInternal) [.outWriteBits 1 0]) ∧
    exec (.nodeLeaf sym) s = .next (s.wrote (encode (.nodeLeaf sym)) [.outWriteBits 1 1, .outWriteBits 9 sym.toNat])

/-- A header element run in RDHDR (that it is an instruction, and the field `expect`, are the model's choice, log 17) does what
the lines of R150 and R151 for it do: the marker lets the tree be read; an internal node takes the next index and waits for its two
subtrees; a leaf takes the next index and its entry. The leaf completes every innermost open node that has its left subtree (`full`, each
node with its left child), from the inside out, each becoming the right child of the next; the subtree so made is the left child of the
open node that waits for one, or the tree where no node is open. No other entry of NODE and nothing else of the core or the streams
changes. -/
def Obligations.HeaderElementsBuildTheTree : Prop :=
  ∀ (s : State) (sym : Sym), s.phase = .rdhdr →
    exec (.marker s.magic) s = .next { s with expect := .node } ∧
    (s.nalloc.toNat < 513 →
      exec .nodeInternal s =
        .next { s with walk := { ptr := s.nalloc, left := none } :: s.walk, nalloc := s.nalloc + 1#10 }) ∧
    (s.nalloc.toNat < 513 → sym.toNat ≤ 256 →
      ∃ t, exec (.nodeLeaf sym) s = .next t ∧
        t = { s with nalloc := s.nalloc + 1#10, node := t.node, root := t.root, walk := t.walk, tv := t.tv, expect := t.expect
                     free := t.free } ∧
        (∀ p, p ≠ s.nalloc → (∀ f ∈ s.walk, f.ptr ≠ p) → t.nodeAt p = s.nodeAt p) ∧
        (∀ (full : List (Ptr × Ptr)) (st : List Frame),
          s.walk = full.map (fun f => { ptr := f.1, left := some f.2 }) ++ st → (∀ f, st.head? = some f → f.left = none) →
          (s.nalloc :: full.map Prod.fst).Nodup → (∀ f ∈ full, f.1.toNat < 513) →
          t.nodeAt s.nalloc = some (leafNode sym 0#41) ∧
          (∀ (i : Nat) (q l : Ptr), full[i]? = some (q, l) →
            ∃ n r, t.nodeAt q = some n ∧ (s.nalloc :: full.map Prod.fst)[i]? = some r ∧
              n.leaf = false ∧ n.weight = 0#41 ∧ n.left = l ∧ n.right = r) ∧
          (st = [] → t.root = (full.map Prod.fst).getLastD s.nalloc ∧ t.tv = true ∧ t.expect = .unit ∧ t.walk = []) ∧
          (∀ q st', st = { ptr := q, left := none } :: st' →
            t.walk = { ptr := q, left := some ((full.map Prod.fst).getLastD s.nalloc) } :: st' ∧
            t.root = s.root ∧ t.tv = s.tv ∧ t.expect = s.expect)))

/-- A codeword run as an instruction (the model's choice, log 17): in ENCODE its bits are emitted as R161 emits a code; in DECODE, from
the root, it does what the passes of R172 and R173 on its bits do: a literal's writes the byte and returns the cursor to the root, the
sentinel's leaves the cursor at its leaf and ends the operation; a codeword of no bits makes no pass and changes nothing (R171's test is
DECODE's, before its loop). What is read as a codeword at IN.pos is what the decoder of the tree reads there, and where the decoder reads
none the stream has ended (R174). -/
def Obligations.CodewordsAreEmittedAndWalked : Prop :=
  (∀ (s : State) (t : Tree) (sym : Sym) (c : List Bool), s.out.closed = false →
    (s.phase = .encode → exec (.codeword c) s = .next (s.wrote c (codeWrites c))) ∧
    (s.phase = .decode → exec (.codeword []) s = .next s) ∧
    (s.phase = .decode → s.tree = .ok t → s.cur = s.root → s.expect = .codeword → (sym, c) ∈ t.codes → c ≠ [] →
      (sym.toNat < 256 →
        exec (.codeword c) s = .next (s.wrote (bitsOf 8 sym.toNat) [.outWriteBits 8 sym.toNat])) ∧
      (sym = 256#9 → exec (.codeword c) s = .next { s with cur := s.walkTo s.root c, expect := .unit }))) ∧
  (∀ (s : State) (t : Tree), s.tree = .ok t → 2 ≤ t.symbols.length → s.cur = s.root → s.expect = .codeword →
    (∀ (i : Instr) (rest : List Bool), decode (.codeword t) s.ahead = .ok (i, rest) →
      ∃ u, fetchElement s = .got i u ∧ u.ahead = rest ∧
        u = { s with inp := { s.inp with pos := u.inp.pos }, trace := s.trace ++ bitReads (encode i) }) ∧
    (∀ e, decode (.codeword t) s.ahead = .error e → ∃ u, fetchElement s = .stopped (raise .truncatedStreamError 3#2 u)))

/-- Padding run as an instruction (the model's choices, logs 17 and 18): in CLOSE, where the transport's close() appends it (R55, R76),
its zero bits are appended; everywhere else it has no effect, as the core neither writes nor reads it. What CLOSE itself appends is
ClosePadsToAByte. -/
def Obligations.PaddingIsTheTransports : Prop :=
  ∀ (s : State) (n : Nat),
    (s.phase = .close → exec (.pad n) s = .next { s with out := { s.out with bits := s.out.bits ++ encode (.pad n) } }) ∧
    (s.phase ≠ .close → exec (.pad n) s = .next s)

/-- Where an operation stops the machine, it stops by the name of what it lacks (the model's choices, logs 11 and 21): GENCODES and
WRHDR on node memory that holds no tree (R43), DECODE on a ROOT that is neither NULL nor an index (R9), WRHDR on a closed output
(R54). -/
def Obligations.OperationsStopByName : Prop :=
  ∀ s : State,
    (∀ f, s.tree = .error f → exec .gencodes s = .fault f ∧ exec .wrhdr s = .fault f) ∧
    (513 ≤ s.root.toNat → s.root ≠ Config.null → exec .decode s = .fault .nodeIndex) ∧
    (∀ t, s.tree = .ok t → s.out.closed = true → exec .wrhdr s = .refused .closedOutput)

/-- A stream element in a phase whose operation neither writes nor reads that kind of element is refused by name: the model's choice
(log 17); in the format an element is selected by its position alone. -/
def Obligations.ElementsOutOfPlaceAreRefused : Prop :=
  ∀ (s : State) (m : Mark) (sym : Sym) (c : List Bool),
    (s.phase ≠ .wrhdr → s.phase ≠ .rdhdr →
      exec (.marker m) s = .refused .elementOutOfPlace ∧ exec .nodeInternal s = .refused .elementOutOfPlace ∧
      exec (.nodeLeaf sym) s = .refused .elementOutOfPlace) ∧
    (s.phase ≠ .encode → s.phase ≠ .decode → exec (.codeword c) s = .refused .elementOutOfPlace)

/-! ### Faults and reset (60_exceptions.md, 70_reset_and_hazards.md) -/

/-- Fault entry (R188): ERR, ERRINFO, the validity flags, PHASE and STATUS; the rest of the operation does not run, and no further
transaction is made. -/
def Obligations.FaultEntryRecordsTheFault : Prop :=
  ∀ (e : ErrKind) (info : BitVec 2) (s : State), ∃ t, raise e info s = .raised t ∧
    (∀ f : State → Act, (raise e info s).andThen f = .raised t) ∧
    t.err = e.code ∧ t.errinfo = (s.phase.code.setWidth 8 <<< 2) ||| info.setWidth 8 ∧
    t.fv = false ∧ t.tv = false ∧ t.cv = false ∧ t.phase = .fault ∧ t.busy = false ∧ t.done = false ∧ t.faulted = true ∧
    t.inp = s.inp ∧ t.out = s.out ∧ t.trace = s.trace

/-- A fault stays until reset (R189): whatever the host does but reset, a step leaves PHASE, STATUS, ERR and ERRINFO as they are and
makes no transaction, so no later fault overwrites it; a register write changes nothing at all. -/
def Obligations.FaultStaysUntilReset : Prop :=
  ∀ s : State, s.Consistent → s.phase = .fault → s.host.head? ≠ some .reset →
    (∃ t, step s = .next t ∧ t.phase = .fault ∧ t.status = s.status ∧ t.faulted = true ∧ t.err = s.err ∧ t.errinfo = s.errinfo ∧
      t.trace = s.trace) ∧
    (∀ (r : Nat) (v : Byte) (rest : List HostAction), s.host = .write r v :: rest → step s = .next { s with host := rest })

/-- Reset (R45, R200): the core's registers take their reset values, from FAULT too (R189); the transports are not touched. -/
def Obligations.HostResetRestoresTheCore : Prop :=
  ∀ (s : State) (rest : List HostAction), s.phase.busy = false → s.host = .reset :: rest →
    ∃ t, step s = .next t ∧ t.phase = .idle ∧ t.status = 0#8 ∧ t.err = 0#8 ∧ t.errinfo = 0#8 ∧ t.fv = false ∧
      t.tv = false ∧ t.cv = false ∧ t.root = Config.null ∧ t.cur = Config.null ∧ t.nalloc = 0#10 ∧ t.k = 0#9 ∧ t.q = [] ∧
      t.walk = [] ∧ t.inp = s.inp ∧ t.out = s.out ∧ t.magic = s.magic ∧ t.host = rest

/-- Reset while a command runs (R201, U16): the core is as after any reset, and both transports are as after the first `n` of the
running operation's remaining transactions, which are recorded; nothing is undone or closed. Which `n` is the model's free value
(log 9). -/
def Obligations.ResetWhileBusyAbandonsTheCommand : Prop :=
  ∀ s : State, s.phase.busy = true →
    ∃ (t : State) (n : Nat) (done : State), hostAct .reset s = .next t ∧
      done = (((remaining s).state.trace.drop s.trace.length).take n).foldl (fun u x => applyTxn x u) { s with free := s.free + 1 } ∧
      t.inp = done.inp ∧ t.out = done.out ∧
      t.trace = s.trace ++ ((remaining s).state.trace.drop s.trace.length).take n ∧
      t.phase = .idle ∧ t.status = 0#8 ∧ t.err = 0#8 ∧ t.errinfo = 0#8 ∧ t.fv = false ∧ t.tv = false ∧ t.cv = false ∧
      t.root = Config.null ∧ t.cur = Config.null ∧ t.nalloc = 0#10 ∧ t.k = 0#9 ∧ t.q = [] ∧ t.walk = [] ∧
      t.magic = s.magic ∧ t.host = s.host

/-- What reset leaves (R45, R200): PHASE IDLE, STATUS, ERR, ERRINFO 0, FV, TV, CV 0, ROOT and CUR NULL, NALLOC and K 0, Q and the walk
stack empty. -/
def Obligations.ResetStateHasTheSpecsValues : Prop :=
  State.reset.phase = .idle ∧ State.reset.status = 0#8 ∧ State.reset.err = 0#8 ∧ State.reset.errinfo = 0#8 ∧
  State.reset.fv = false ∧ State.reset.tv = false ∧ State.reset.cv = false ∧ State.reset.root = 0x3FF#10 ∧
  State.reset.cur = 0x3FF#10 ∧ State.reset.nalloc = 0#10 ∧ State.reset.k = 0#9 ∧ State.reset.q = [] ∧ State.reset.walk = []

/-! ### Invariants -/

/-- The control registers agree at reset. -/
def Obligations.ResetIsConsistent : Prop := State.reset.Consistent

/-- Every step keeps the control registers in agreement (R25, R28, R31 to R33, R35, R36, R38, R81, R186). -/
def Obligations.StepKeepsConsistent : Prop :=
  ∀ s t : State, s.Consistent → step s = .next t → t.Consistent

/-- No step changes the build parameter MAGIC (R7, R42). -/
def Obligations.StepKeepsTheBuildParameter : Prop :=
  ∀ s t : State, step s = .next t → t.magic = s.magic

/-- The preconditions hold at reset. -/
def Obligations.ResetIsReady : Prop := State.reset.Ready

/-- Every step keeps the preconditions of R106 that the block sees to: FV for BUILD, TV for GENCODES, WRHDR and DECODE, CV and IN.pos = 0
for ENCODE; and while TV is 1 the node memory holds a tree (R43). COUNT's and RDHDR's IN.pos = 0 is the host's duty (R202) and no part
of it. -/
def Obligations.StepKeepsReady : Prop :=
  ∀ s t : State, s.Consistent → s.Ready → step s = .next t → t.Ready

/-- No operation ever stops for want of its precondition, of a tree, of an entry or of an end (R106, R127, R144, R216): a step that
gives no next state is a write to a closed output or a transport attached while a command runs. -/
def Obligations.ReadyStepNeverStops : Prop :=
  ∀ s : State, s.Consistent → s.Ready →
    (∀ f, step s ≠ .fault f) ∧ (∀ r, step s = .refused r → r = .closedOutput ∨ r = .transportInUse)

/-! ### Whole commands -/

/-- COMPRESS on fresh transports completes for every input in which no byte value occurs `2^32` times, and its output is a well-formed
compressed stream (R70, R101, R107): marker, tree encoding, payload, padding, for a tree whose leaves are the input's byte values and
the sentinel. -/
def Obligations.CompressWritesACompressedStream : Prop :=
  ∀ (s : State) (bytes : List Byte), s.Fresh (bitsOfBytes bytes) → (∀ b : Byte, bytes.count b < 2 ^ 32) →
    ∃ (d : State) (t : Tree) (code : Byte → List Bool) (stop : List Bool) (p : Nat),
      Sys2Proof.core.run 8 { s with host := [.write 0 0#8] } = .next d ∧
      d.phase = .idle ∧ d.status = 2#8 ∧ d.out.closed = true ∧ p ≤ 7 ∧ d.out.bits.length % 8 = 0 ∧
      t.symbols.Nodup ∧ (∀ sym : Sym, sym ∈ t.symbols ↔ sym = 256#9 ∨ ∃ b ∈ bytes, sym = b.setWidth 9) ∧
      (∀ b ∈ bytes, (b.setWidth 9, code b) ∈ t.codes) ∧ (256#9, stop) ∈ t.codes ∧
      d.out.bits =
        bitsOf 32 s.magic.toNat ++ t.enc ++ bytes.flatMap code ++ stop ++ List.replicate p false

/-- Round trip (R105), for every finite byte sequence in which no byte value occurs `2^32` times, whatever MAGIC, and whatever the
tie-break rule of BUILD: COMPRESS completes; what it wrote is marker, tree encoding, the input's codes and the sentinel's, padding; and
DECOMPRESS of it, by a block with the same MAGIC, completes and writes the same bytes, having read exactly `32 + T + P` bits (R177).
`removeMin` is such a rule, and with it the COMPRESS is this machine's own eight steps. -/
def Obligations.RoundTrip : Prop :=
  TakesOne State.removeMin ∧
  ∀ (pick : TieBreak) (s s' : State) (bytes : List Byte), TakesOne pick →
    s.Fresh (bitsOfBytes bytes) → (∀ b : Byte, bytes.count b < 2 ^ 32) → s'.magic = s.magic →
    ∃ (d : State) (t : Tree) (code : Byte → List Bool) (stop : List Bool) (p : Nat),
      compressBy pick { s with host := [.write 0 0#8] } = .next d ∧
      (pick = State.removeMin → Sys2Proof.core.run 8 { s with host := [.write 0 0#8] } = .next d) ∧
      d.phase = .idle ∧ d.status = 2#8 ∧ d.out.closed = true ∧ p ≤ 7 ∧
      (∀ b ∈ bytes, (b.setWidth 9, code b) ∈ t.codes) ∧ (256#9, stop) ∈ t.codes ∧
      d.out.bits = bitsOf 32 s.magic.toNat ++ t.enc ++ (bytes.flatMap code ++ stop) ++ List.replicate p false ∧
      (s'.Fresh d.out.bits →
        ∃ e : State, Sys2Proof.core.run 4 { s' with host := [.write 0 1#8] } = .next e ∧
          e.phase = .idle ∧ e.status = 2#8 ∧ e.out = { bits := bitsOfBytes bytes, closed := true } ∧
          e.inp.pos = 32 + t.enc.length + (bytes.flatMap code ++ stop).length)
end

