-- ==== Sys2Proof/Laws/Bits.lean ====
section
/-! SUPPORT. Laws of bit-strings and unsigned fields (00_scope.md R8): `bits_n` and `val` are inverse, and a field is read back from
the head of a stream. -/

namespace Sys2Proof

@[simp] theorem bitsOf_length (n v : Nat) : (bitsOf n v).length = n := by
  induction n with
  | zero => rfl
  | succ n ih => simp [bitsOf, ih]

theorem foldl_val (bs : List Bool) (a : Nat) :
    bs.foldl (fun acc b => 2 * acc + b.toNat) a = a * 2 ^ bs.length + valOf bs := by
  induction bs generalizing a with
  | nil => simp [valOf]
  | cons b bs ih =>
    simp only [List.foldl_cons, valOf, List.length_cons]
    rw [ih, ih (2 * 0 + b.toNat)]
    rw [Nat.pow_succ]
    simp only [Nat.mul_zero, Nat.zero_add, Nat.add_mul]
    rw [Nat.mul_comm 2 a, Nat.mul_assoc, Nat.mul_comm 2, Nat.add_assoc]

@[simp] theorem valOf_nil : valOf [] = 0 := rfl

theorem valOf_cons (b : Bool) (bs : List Bool) : valOf (b :: bs) = b.toNat * 2 ^ bs.length + valOf bs := by
  simpa [valOf] using foldl_val bs b.toNat

theorem valOf_lt (bs : List Bool) : valOf bs < 2 ^ bs.length := by
  induction bs with
  | nil => simp
  | cons b bs ih =>
    rw [valOf_cons, List.length_cons, Nat.pow_succ]
    cases b <;> simp <;> omega

/-- `val(bits_n(v))` is `v` cut to `n` bits (R8). -/
theorem valOf_bitsOf (n v : Nat) : valOf (bitsOf n v) = v % 2 ^ n := by
  induction n with
  | zero => simp [bitsOf, Nat.mod_one]
  | succ n ih =>
    rw [bitsOf, valOf_cons, bitsOf_length, ih, Nat.mod_pow_succ, Nat.testBit_eq_decide_div_mod_eq]
    have h : v / 2 ^ n % 2 < 2 := Nat.mod_lt _ (by decide)
    rcases (by omega : v / 2 ^ n % 2 = 0 ∨ v / 2 ^ n % 2 = 1) with h0 | h0 <;> simp [h0] <;> omega

theorem valOf_bitsOf_of_lt {n v : Nat} (h : v < 2 ^ n) : valOf (bitsOf n v) = v := by
  rw [valOf_bitsOf, Nat.mod_eq_of_lt h]

/-- `bits_n(val(b))` is `b` (R8). -/
theorem bitsOf_valOf (bs : List Bool) : bitsOf bs.length (valOf bs) = bs := by
  induction bs with
  | nil => rfl
  | cons b bs ih =>
    have key : ∀ n v w : Nat, v % 2 ^ n = w % 2 ^ n → bitsOf n v = bitsOf n w := by
      intro n
      induction n with
      | zero => intros; rfl
      | succ n ihn =>
        intro v w h
        have hb : v.testBit n = w.testBit n := by
          have := congrArg (fun x => x.testBit n) h
          simpa [Nat.testBit_mod_two_pow] using this
        have hm : v % 2 ^ n = w % 2 ^ n := by
          have := congrArg (· % 2 ^ n) h
          simpa [Nat.mod_mod_of_dvd _ (Nat.pow_dvd_pow 2 (Nat.le_succ n))] using this
        rw [bitsOf, bitsOf, hb, ihn v w hm]
    rw [List.length_cons, bitsOf]
    have hlt := valOf_lt bs
    have hb : (valOf (b :: bs)).testBit bs.length = b := by
      rw [valOf_cons, Nat.testBit_eq_decide_div_mod_eq]
      have : (b.toNat * 2 ^ bs.length + valOf bs) / 2 ^ bs.length = b.toNat := by
        rw [Nat.mul_comm, Nat.mul_add_div (Nat.two_pow_pos _), Nat.div_eq_of_lt hlt, Nat.add_zero]
      rw [this]
      cases b <;> rfl
    rw [hb, key bs.length (valOf (b :: bs)) (valOf bs) (by rw [valOf_cons]; simp), ih]

/-- Reading a field back from the head of a stream (R51). -/
theorem takeField_append (n v : Nat) (rest : List Bool) : takeField n (bitsOf n v ++ rest) = some (v % 2 ^ n, rest) := by
  simp [takeField, valOf_bitsOf]

theorem takeField_some {n v : Nat} {bs rest : List Bool} (h : takeField n bs = some (v, rest)) :
    bs = bitsOf n v ++ rest ∧ v < 2 ^ n := by
  unfold takeField at h
  split at h
  · rename_i hn
    simp only [Option.some.injEq, Prod.mk.injEq] at h
    obtain ⟨rfl, rfl⟩ := h
    have hl : (bs.take n).length = n := by simp [hn]
    constructor
    · have := bitsOf_valOf (bs.take n)
      rw [hl] at this
      rw [this, List.take_append_drop]
    · have := valOf_lt (bs.take n)
      rwa [hl] at this
  · simp at h

@[simp] theorem bitsOfBytes_nil : bitsOfBytes [] = [] := rfl

@[simp] theorem bitsOfBytes_cons (b : Byte) (bs : List Byte) :
    bitsOfBytes (b :: bs) = bitsOf 8 b.toNat ++ bitsOfBytes bs := by simp [bitsOfBytes]

@[simp] theorem bitsOfBytes_length (bs : List Byte) : (bitsOfBytes bs).length = 8 * bs.length := by
  induction bs with
  | nil => rfl
  | cons b bs ih => simp [ih]; omega

end Sys2Proof
end

