-- ==== Sys2Proof/Laws/State.lean ====
section
/-! SUPPORT. For each named update of State, what each field is after it: no later proof unfolds a record update. -/

namespace Sys2Proof.Machine

variable (s : State)

@[simp] theorem State.setStatus_freq (b d f : Bool) : (s.setStatus b d f).freq = s.freq := rfl
@[simp] theorem State.setStatus_code (b d f : Bool) : (s.setStatus b d f).code = s.code := rfl
@[simp] theorem State.setStatus_codev (b d f : Bool) : (s.setStatus b d f).codev = s.codev := rfl
@[simp] theorem State.setStatus_node (b d f : Bool) : (s.setStatus b d f).node = s.node := rfl
@[simp] theorem State.setStatus_root (b d f : Bool) : (s.setStatus b d f).root = s.root := rfl
@[simp] theorem State.setStatus_nalloc (b d f : Bool) : (s.setStatus b d f).nalloc = s.nalloc := rfl
@[simp] theorem State.setStatus_cur (b d f : Bool) : (s.setStatus b d f).cur = s.cur := rfl
@[simp] theorem State.setStatus_phase (b d f : Bool) : (s.setStatus b d f).phase = s.phase := rfl
@[simp] theorem State.setStatus_fv (b d f : Bool) : (s.setStatus b d f).fv = s.fv := rfl
@[simp] theorem State.setStatus_tv (b d f : Bool) : (s.setStatus b d f).tv = s.tv := rfl
@[simp] theorem State.setStatus_cv (b d f : Bool) : (s.setStatus b d f).cv = s.cv := rfl
@[simp] theorem State.setStatus_status (b d f : Bool) : (s.setStatus b d f).status = statusOf b d f := rfl
@[simp] theorem State.setStatus_err (b d f : Bool) : (s.setStatus b d f).err = s.err := rfl
@[simp] theorem State.setStatus_errinfo (b d f : Bool) : (s.setStatus b d f).errinfo = s.errinfo := rfl
@[simp] theorem State.setStatus_q (b d f : Bool) : (s.setStatus b d f).q = s.q := rfl
@[simp] theorem State.setStatus_k (b d f : Bool) : (s.setStatus b d f).k = s.k := rfl
@[simp] theorem State.setStatus_walk (b d f : Bool) : (s.setStatus b d f).walk = s.walk := rfl
@[simp] theorem State.setStatus_magic (b d f : Bool) : (s.setStatus b d f).magic = s.magic := rfl
@[simp] theorem State.setStatus_inp (b d f : Bool) : (s.setStatus b d f).inp = s.inp := rfl
@[simp] theorem State.setStatus_out (b d f : Bool) : (s.setStatus b d f).out = s.out := rfl
@[simp] theorem State.setStatus_trace (b d f : Bool) : (s.setStatus b d f).trace = s.trace := rfl
@[simp] theorem State.setStatus_host (b d f : Bool) : (s.setStatus b d f).host = s.host := rfl
@[simp] theorem State.setStatus_reads (b d f : Bool) : (s.setStatus b d f).reads = s.reads := rfl
@[simp] theorem State.setStatus_stalled (b d f : Bool) : (s.setStatus b d f).stalled = s.stalled := rfl
@[simp] theorem State.setStatus_expect (b d f : Bool) : (s.setStatus b d f).expect = s.expect := rfl
@[simp] theorem State.setStatus_free (b d f : Bool) : (s.setStatus b d f).free = s.free := rfl

@[simp] theorem State.clearValid_freq : (s.clearValid).freq = s.freq := rfl
@[simp] theorem State.clearValid_code : (s.clearValid).code = s.code := rfl
@[simp] theorem State.clearValid_codev : (s.clearValid).codev = s.codev := rfl
@[simp] theorem State.clearValid_node : (s.clearValid).node = s.node := rfl
@[simp] theorem State.clearValid_root : (s.clearValid).root = s.root := rfl
@[simp] theorem State.clearValid_nalloc : (s.clearValid).nalloc = s.nalloc := rfl
@[simp] theorem State.clearValid_cur : (s.clearValid).cur = s.cur := rfl
@[simp] theorem State.clearValid_phase : (s.clearValid).phase = s.phase := rfl
@[simp] theorem State.clearValid_fv : (s.clearValid).fv = false := rfl
@[simp] theorem State.clearValid_tv : (s.clearValid).tv = false := rfl
@[simp] theorem State.clearValid_cv : (s.clearValid).cv = false := rfl
@[simp] theorem State.clearValid_status : (s.clearValid).status = s.status := rfl
@[simp] theorem State.clearValid_err : (s.clearValid).err = s.err := rfl
@[simp] theorem State.clearValid_errinfo : (s.clearValid).errinfo = s.errinfo := rfl
@[simp] theorem State.clearValid_q : (s.clearValid).q = s.q := rfl
@[simp] theorem State.clearValid_k : (s.clearValid).k = s.k := rfl
@[simp] theorem State.clearValid_walk : (s.clearValid).walk = s.walk := rfl
@[simp] theorem State.clearValid_magic : (s.clearValid).magic = s.magic := rfl
@[simp] theorem State.clearValid_inp : (s.clearValid).inp = s.inp := rfl
@[simp] theorem State.clearValid_out : (s.clearValid).out = s.out := rfl
@[simp] theorem State.clearValid_trace : (s.clearValid).trace = s.trace := rfl
@[simp] theorem State.clearValid_host : (s.clearValid).host = s.host := rfl
@[simp] theorem State.clearValid_reads : (s.clearValid).reads = s.reads := rfl
@[simp] theorem State.clearValid_stalled : (s.clearValid).stalled = s.stalled := rfl
@[simp] theorem State.clearValid_expect : (s.clearValid).expect = s.expect := rfl
@[simp] theorem State.clearValid_free : (s.clearValid).free = s.free := rfl

@[simp] theorem State.setFreq_freq (sym : Nat) (c : Count) : (s.setFreq sym c).freq = s.freq.setIfInBounds sym c := rfl
@[simp] theorem State.setFreq_code (sym : Nat) (c : Count) : (s.setFreq sym c).code = s.code := rfl
@[simp] theorem State.setFreq_codev (sym : Nat) (c : Count) : (s.setFreq sym c).codev = s.codev := rfl
@[simp] theorem State.setFreq_node (sym : Nat) (c : Count) : (s.setFreq sym c).node = s.node := rfl
@[simp] theorem State.setFreq_root (sym : Nat) (c : Count) : (s.setFreq sym c).root = s.root := rfl
@[simp] theorem State.setFreq_nalloc (sym : Nat) (c : Count) : (s.setFreq sym c).nalloc = s.nalloc := rfl
@[simp] theorem State.setFreq_cur (sym : Nat) (c : Count) : (s.setFreq sym c).cur = s.cur := rfl
@[simp] theorem State.setFreq_phase (sym : Nat) (c : Count) : (s.setFreq sym c).phase = s.phase := rfl
@[simp] theorem State.setFreq_fv (sym : Nat) (c : Count) : (s.setFreq sym c).fv = s.fv := rfl
@[simp] theorem State.setFreq_tv (sym : Nat) (c : Count) : (s.setFreq sym c).tv = s.tv := rfl
@[simp] theorem State.setFreq_cv (sym : Nat) (c : Count) : (s.setFreq sym c).cv = s.cv := rfl
@[simp] theorem State.setFreq_status (sym : Nat) (c : Count) : (s.setFreq sym c).status = s.status := rfl
@[simp] theorem State.setFreq_err (sym : Nat) (c : Count) : (s.setFreq sym c).err = s.err := rfl
@[simp] theorem State.setFreq_errinfo (sym : Nat) (c : Count) : (s.setFreq sym c).errinfo = s.errinfo := rfl
@[simp] theorem State.setFreq_q (sym : Nat) (c : Count) : (s.setFreq sym c).q = s.q := rfl
@[simp] theorem State.setFreq_k (sym : Nat) (c : Count) : (s.setFreq sym c).k = s.k := rfl
@[simp] theorem State.setFreq_walk (sym : Nat) (c : Count) : (s.setFreq sym c).walk = s.walk := rfl
@[simp] theorem State.setFreq_magic (sym : Nat) (c : Count) : (s.setFreq sym c).magic = s.magic := rfl
@[simp] theorem State.setFreq_inp (sym : Nat) (c : Count) : (s.setFreq sym c).inp = s.inp := rfl
@[simp] theorem State.setFreq_out (sym : Nat) (c : Count) : (s.setFreq sym c).out = s.out := rfl
@[simp] theorem State.setFreq_trace (sym : Nat) (c : Count) : (s.setFreq sym c).trace = s.trace := rfl
@[simp] theorem State.setFreq_host (sym : Nat) (c : Count) : (s.setFreq sym c).host = s.host := rfl
@[simp] theorem State.setFreq_reads (sym : Nat) (c : Count) : (s.setFreq sym c).reads = s.reads := rfl
@[simp] theorem State.setFreq_stalled (sym : Nat) (c : Count) : (s.setFreq sym c).stalled = s.stalled := rfl
@[simp] theorem State.setFreq_expect (sym : Nat) (c : Count) : (s.setFreq sym c).expect = s.expect := rfl
@[simp] theorem State.setFreq_free (sym : Nat) (c : Count) : (s.setFreq sym c).free = s.free := rfl

@[simp] theorem State.setCode_freq (sym : Nat) (path : List Bool) : (s.setCode sym path).freq = s.freq := rfl
@[simp] theorem State.setCode_code (sym : Nat) (path : List Bool) :
    (s.setCode sym path).code = s.code.setIfInBounds sym path := rfl
@[simp] theorem State.setCode_codev (sym : Nat) (path : List Bool) :
    (s.setCode sym path).codev = s.codev.setIfInBounds sym true := rfl
@[simp] theorem State.setCode_node (sym : Nat) (path : List Bool) : (s.setCode sym path).node = s.node := rfl
@[simp] theorem State.setCode_root (sym : Nat) (path : List Bool) : (s.setCode sym path).root = s.root := rfl
@[simp] theorem State.setCode_nalloc (sym : Nat) (path : List Bool) : (s.setCode sym path).nalloc = s.nalloc := rfl
@[simp] theorem State.setCode_cur (sym : Nat) (path : List Bool) : (s.setCode sym path).cur = s.cur := rfl
@[simp] theorem State.setCode_phase (sym : Nat) (path : List Bool) : (s.setCode sym path).phase = s.phase := rfl
@[simp] theorem State.setCode_fv (sym : Nat) (path : List Bool) : (s.setCode sym path).fv = s.fv := rfl
@[simp] theorem State.setCode_tv (sym : Nat) (path : List Bool) : (s.setCode sym path).tv = s.tv := rfl
@[simp] theorem State.setCode_cv (sym : Nat) (path : List Bool) : (s.setCode sym path).cv = s.cv := rfl
@[simp] theorem State.setCode_status (sym : Nat) (path : List Bool) : (s.setCode sym path).status = s.status := rfl
@[simp] theorem State.setCode_err (sym : Nat) (path : List Bool) : (s.setCode sym path).err = s.err := rfl
@[simp] theorem State.setCode_errinfo (sym : Nat) (path : List Bool) : (s.setCode sym path).errinfo = s.errinfo := rfl
@[simp] theorem State.setCode_q (sym : Nat) (path : List Bool) : (s.setCode sym path).q = s.q := rfl
@[simp] theorem State.setCode_k (sym : Nat) (path : List Bool) : (s.setCode sym path).k = s.k := rfl
@[simp] theorem State.setCode_walk (sym : Nat) (path : List Bool) : (s.setCode sym path).walk = s.walk := rfl
@[simp] theorem State.setCode_magic (sym : Nat) (path : List Bool) : (s.setCode sym path).magic = s.magic := rfl
@[simp] theorem State.setCode_inp (sym : Nat) (path : List Bool) : (s.setCode sym path).inp = s.inp := rfl
@[simp] theorem State.setCode_out (sym : Nat) (path : List Bool) : (s.setCode sym path).out = s.out := rfl
@[simp] theorem State.setCode_trace (sym : Nat) (path : List Bool) : (s.setCode sym path).trace = s.trace := rfl
@[simp] theorem State.setCode_host (sym : Nat) (path : List Bool) : (s.setCode sym path).host = s.host := rfl
@[simp] theorem State.setCode_reads (sym : Nat) (path : List Bool) : (s.setCode sym path).reads = s.reads := rfl
@[simp] theorem State.setCode_stalled (sym : Nat) (path : List Bool) : (s.setCode sym path).stalled = s.stalled := rfl
@[simp] theorem State.setCode_expect (sym : Nat) (path : List Bool) : (s.setCode sym path).expect = s.expect := rfl
@[simp] theorem State.setCode_free (sym : Nat) (path : List Bool) : (s.setCode sym path).free = s.free := rfl

@[simp] theorem State.setNode_freq (p : Ptr) (n : Node) : (s.setNode p n).freq = s.freq := rfl
@[simp] theorem State.setNode_code (p : Ptr) (n : Node) : (s.setNode p n).code = s.code := rfl
@[simp] theorem State.setNode_codev (p : Ptr) (n : Node) : (s.setNode p n).codev = s.codev := rfl
@[simp] theorem State.setNode_node (p : Ptr) (n : Node) : (s.setNode p n).node = s.node.setIfInBounds p.toNat n := rfl
@[simp] theorem State.setNode_root (p : Ptr) (n : Node) : (s.setNode p n).root = s.root := rfl
@[simp] theorem State.setNode_nalloc (p : Ptr) (n : Node) : (s.setNode p n).nalloc = s.nalloc := rfl
@[simp] theorem State.setNode_cur (p : Ptr) (n : Node) : (s.setNode p n).cur = s.cur := rfl
@[simp] theorem State.setNode_phase (p : Ptr) (n : Node) : (s.setNode p n).phase = s.phase := rfl
@[simp] theorem State.setNode_fv (p : Ptr) (n : Node) : (s.setNode p n).fv = s.fv := rfl
@[simp] theorem State.setNode_tv (p : Ptr) (n : Node) : (s.setNode p n).tv = s.tv := rfl
@[simp] theorem State.setNode_cv (p : Ptr) (n : Node) : (s.setNode p n).cv = s.cv := rfl
@[simp] theorem State.setNode_status (p : Ptr) (n : Node) : (s.setNode p n).status = s.status := rfl
@[simp] theorem State.setNode_err (p : Ptr) (n : Node) : (s.setNode p n).err = s.err := rfl
@[simp] theorem State.setNode_errinfo (p : Ptr) (n : Node) : (s.setNode p n).errinfo = s.errinfo := rfl
@[simp] theorem State.setNode_q (p : Ptr) (n : Node) : (s.setNode p n).q = s.q := rfl
@[simp] theorem State.setNode_k (p : Ptr) (n : Node) : (s.setNode p n).k = s.k := rfl
@[simp] theorem State.setNode_walk (p : Ptr) (n : Node) : (s.setNode p n).walk = s.walk := rfl
@[simp] theorem State.setNode_magic (p : Ptr) (n : Node) : (s.setNode p n).magic = s.magic := rfl
@[simp] theorem State.setNode_inp (p : Ptr) (n : Node) : (s.setNode p n).inp = s.inp := rfl
@[simp] theorem State.setNode_out (p : Ptr) (n : Node) : (s.setNode p n).out = s.out := rfl
@[simp] theorem State.setNode_trace (p : Ptr) (n : Node) : (s.setNode p n).trace = s.trace := rfl
@[simp] theorem State.setNode_host (p : Ptr) (n : Node) : (s.setNode p n).host = s.host := rfl
@[simp] theorem State.setNode_reads (p : Ptr) (n : Node) : (s.setNode p n).reads = s.reads := rfl
@[simp] theorem State.setNode_stalled (p : Ptr) (n : Node) : (s.setNode p n).stalled = s.stalled := rfl
@[simp] theorem State.setNode_expect (p : Ptr) (n : Node) : (s.setNode p n).expect = s.expect := rfl
@[simp] theorem State.setNode_free (p : Ptr) (n : Node) : (s.setNode p n).free = s.free := rfl

@[simp] theorem State.record_freq (t : Txn) : (s.record t).freq = s.freq := rfl
@[simp] theorem State.record_code (t : Txn) : (s.record t).code = s.code := rfl
@[simp] theorem State.record_codev (t : Txn) : (s.record t).codev = s.codev := rfl
@[simp] theorem State.record_node (t : Txn) : (s.record t).node = s.node := rfl
@[simp] theorem State.record_root (t : Txn) : (s.record t).root = s.root := rfl
@[simp] theorem State.record_nalloc (t : Txn) : (s.record t).nalloc = s.nalloc := rfl
@[simp] theorem State.record_cur (t : Txn) : (s.record t).cur = s.cur := rfl
@[simp] theorem State.record_phase (t : Txn) : (s.record t).phase = s.phase := rfl
@[simp] theorem State.record_fv (t : Txn) : (s.record t).fv = s.fv := rfl
@[simp] theorem State.record_tv (t : Txn) : (s.record t).tv = s.tv := rfl
@[simp] theorem State.record_cv (t : Txn) : (s.record t).cv = s.cv := rfl
@[simp] theorem State.record_status (t : Txn) : (s.record t).status = s.status := rfl
@[simp] theorem State.record_err (t : Txn) : (s.record t).err = s.err := rfl
@[simp] theorem State.record_errinfo (t : Txn) : (s.record t).errinfo = s.errinfo := rfl
@[simp] theorem State.record_q (t : Txn) : (s.record t).q = s.q := rfl
@[simp] theorem State.record_k (t : Txn) : (s.record t).k = s.k := rfl
@[simp] theorem State.record_walk (t : Txn) : (s.record t).walk = s.walk := rfl
@[simp] theorem State.record_magic (t : Txn) : (s.record t).magic = s.magic := rfl
@[simp] theorem State.record_inp (t : Txn) : (s.record t).inp = s.inp := rfl
@[simp] theorem State.record_out (t : Txn) : (s.record t).out = s.out := rfl
@[simp] theorem State.record_trace (t : Txn) : (s.record t).trace = s.trace ++ [t] := rfl
@[simp] theorem State.record_host (t : Txn) : (s.record t).host = s.host := rfl
@[simp] theorem State.record_reads (t : Txn) : (s.record t).reads = s.reads := rfl
@[simp] theorem State.record_stalled (t : Txn) : (s.record t).stalled = s.stalled := rfl
@[simp] theorem State.record_expect (t : Txn) : (s.record t).expect = s.expect := rfl
@[simp] theorem State.record_free (t : Txn) : (s.record t).free = s.free := rfl

@[simp] theorem State.padOut_freq (n : Nat) : (s.padOut n).freq = s.freq := rfl
@[simp] theorem State.padOut_code (n : Nat) : (s.padOut n).code = s.code := rfl
@[simp] theorem State.padOut_codev (n : Nat) : (s.padOut n).codev = s.codev := rfl
@[simp] theorem State.padOut_node (n : Nat) : (s.padOut n).node = s.node := rfl
@[simp] theorem State.padOut_root (n : Nat) : (s.padOut n).root = s.root := rfl
@[simp] theorem State.padOut_nalloc (n : Nat) : (s.padOut n).nalloc = s.nalloc := rfl
@[simp] theorem State.padOut_cur (n : Nat) : (s.padOut n).cur = s.cur := rfl
@[simp] theorem State.padOut_phase (n : Nat) : (s.padOut n).phase = s.phase := rfl
@[simp] theorem State.padOut_fv (n : Nat) : (s.padOut n).fv = s.fv := rfl
@[simp] theorem State.padOut_tv (n : Nat) : (s.padOut n).tv = s.tv := rfl
@[simp] theorem State.padOut_cv (n : Nat) : (s.padOut n).cv = s.cv := rfl
@[simp] theorem State.padOut_status (n : Nat) : (s.padOut n).status = s.status := rfl
@[simp] theorem State.padOut_err (n : Nat) : (s.padOut n).err = s.err := rfl
@[simp] theorem State.padOut_errinfo (n : Nat) : (s.padOut n).errinfo = s.errinfo := rfl
@[simp] theorem State.padOut_q (n : Nat) : (s.padOut n).q = s.q := rfl
@[simp] theorem State.padOut_k (n : Nat) : (s.padOut n).k = s.k := rfl
@[simp] theorem State.padOut_walk (n : Nat) : (s.padOut n).walk = s.walk := rfl
@[simp] theorem State.padOut_magic (n : Nat) : (s.padOut n).magic = s.magic := rfl
@[simp] theorem State.padOut_inp (n : Nat) : (s.padOut n).inp = s.inp := rfl
@[simp] theorem State.padOut_out (n : Nat) : (s.padOut n).out = { s.out with bits := s.out.bits ++ List.replicate n false } := rfl
@[simp] theorem State.padOut_trace (n : Nat) : (s.padOut n).trace = s.trace := rfl
@[simp] theorem State.padOut_host (n : Nat) : (s.padOut n).host = s.host := rfl
@[simp] theorem State.padOut_reads (n : Nat) : (s.padOut n).reads = s.reads := rfl
@[simp] theorem State.padOut_stalled (n : Nat) : (s.padOut n).stalled = s.stalled := rfl
@[simp] theorem State.padOut_expect (n : Nat) : (s.padOut n).expect = s.expect := rfl
@[simp] theorem State.padOut_free (n : Nat) : (s.padOut n).free = s.free := rfl

@[simp] theorem State.forget_root : (s.forget).root = Config.freeRoot s.free := rfl
@[simp] theorem State.forget_nalloc : (s.forget).nalloc = BitVec.ofNat 10 (Config.freeNalloc s.free % 514) := rfl
@[simp] theorem State.forget_cur : (s.forget).cur = Config.freeCur s.free := rfl
@[simp] theorem State.forget_phase : (s.forget).phase = s.phase := rfl
@[simp] theorem State.forget_fv : (s.forget).fv = s.fv := rfl
@[simp] theorem State.forget_tv : (s.forget).tv = s.tv := rfl
@[simp] theorem State.forget_cv : (s.forget).cv = s.cv := rfl
@[simp] theorem State.forget_status : (s.forget).status = s.status := rfl
@[simp] theorem State.forget_err : (s.forget).err = s.err := rfl
@[simp] theorem State.forget_errinfo : (s.forget).errinfo = s.errinfo := rfl
@[simp] theorem State.forget_q : (s.forget).q = s.q := rfl
@[simp] theorem State.forget_k : (s.forget).k = BitVec.ofNat 9 (Config.freeK s.free % 257) := rfl
@[simp] theorem State.forget_walk : (s.forget).walk = s.walk := rfl
@[simp] theorem State.forget_magic : (s.forget).magic = s.magic := rfl
@[simp] theorem State.forget_inp : (s.forget).inp = s.inp := rfl
@[simp] theorem State.forget_out : (s.forget).out = s.out := rfl
@[simp] theorem State.forget_trace : (s.forget).trace = s.trace := rfl
@[simp] theorem State.forget_host : (s.forget).host = s.host := rfl
@[simp] theorem State.forget_reads : (s.forget).reads = s.reads := rfl
@[simp] theorem State.forget_stalled : (s.forget).stalled = s.stalled := rfl
@[simp] theorem State.forget_expect : (s.forget).expect = s.expect := rfl
@[simp] theorem State.forget_free : (s.forget).free = s.free + 1 := rfl

end Sys2Proof.Machine
end

