-- ==== Sys2Proof/Laws/Ops.lean ====
section
/-! SUPPORT. For each shared operation, what it can do, said once: how actions chain, the four transactions (20_memory.md R51 to R55),
the writes of several bits in a row, fault entry (60_exceptions.md R188), completion. -/

namespace Sys2Proof.Machine

/-! ### Actions -/

@[simp] theorem Act.go_andThen (s : State) (f : State → Act) : (Act.go s).andThen f = f s := rfl
@[simp] theorem Act.raised_andThen (s : State) (f : State → Act) : (Act.raised s).andThen f = .raised s := rfl
@[simp] theorem Act.fault_andThen (e : Fault) (s : State) (f : State → Act) : (Act.fault e s).andThen f = .fault e s := rfl
@[simp] theorem Act.refuse_andThen (r : Refusal) (s : State) (f : State → Act) :
    (Act.refuse r s).andThen f = .refuse r s := rfl
@[simp] theorem Act.outcome_go (s : State) : (Act.go s).outcome = .next s := rfl
@[simp] theorem Act.outcome_raised (s : State) : (Act.raised s).outcome = .next s := rfl
@[simp] theorem Act.outcome_fault (e : Fault) (s : State) : (Act.fault e s).outcome = .fault e := rfl
@[simp] theorem Act.outcome_refuse (r : Refusal) (s : State) : (Act.refuse r s).outcome = .refused r := rfl

theorem Act.andThen_assoc (a : Act) (f g : State → Act) :
    (a.andThen f).andThen g = a.andThen fun s => (f s).andThen g := by cases a <;> rfl

/-- A chain that goes on went on at each link. -/
theorem Act.andThen_eq_go {a : Act} {f : State → Act} {t : State} :
    a.andThen f = .go t ↔ ∃ s, a = .go s ∧ f s = .go t := by cases a <;> simp [Act.andThen]

theorem Act.outcome_eq_next {a : Act} {t : State} : a.outcome = .next t ↔ a = .go t ∨ a = .raised t := by
  cases a <;> simp [Act.outcome]

/-! ### Reading -/

/-- A read that finds its bits (R51). -/
theorem inReadBits_of_le {n : Nat} {s : State} (h : s.inp.pos + n ≤ s.inp.bits.length) :
    inReadBits n s =
      (some (valOf ((s.inp.bits.drop s.inp.pos).take n)),
        { s with inp := { s.inp with pos := s.inp.pos + n }
                 trace := s.trace ++ [.inReadBits n (some (valOf ((s.inp.bits.drop s.inp.pos).take n)))] }) := by
  simp [inReadBits, h, State.record]

/-- A read that finds fewer bits than it asks for returns EOS (R51, R52). -/
theorem inReadBits_of_lt {n : Nat} {s : State} (h : s.inp.bits.length < s.inp.pos + n) :
    inReadBits n s =
      (none, { s with inp := { s.inp with pos := s.eosPos }, free := s.free + 1
                      trace := s.trace ++ [.inReadBits n none] }) := by
  simp [inReadBits, Nat.not_le.mpr h, State.record]

/-- A read of a field that stands at the position (R51): its value, and the bits after it stand at the new position. -/
theorem inReadBits_field {n v : Nat} {s : State} {rest : List Bool} (hn : 0 < n) (hv : v < 2 ^ n)
    (h : s.inp.bits.drop s.inp.pos = bitsOf n v ++ rest) :
    inReadBits n s =
        (some v, { s with inp := { s.inp with pos := s.inp.pos + n }, trace := s.trace ++ [.inReadBits n (some v)] }) ∧
      s.inp.bits.drop (s.inp.pos + n) = rest := by
  have hl := congrArg List.length h
  simp only [List.length_drop, List.length_append, bitsOf_length] at hl
  have hval : valOf ((s.inp.bits.drop s.inp.pos).take n) = v := by
    rw [h, List.take_left' (bitsOf_length n v), valOf_bitsOf_of_lt hv]
  refine ⟨?_, ?_⟩
  · rw [inReadBits_of_le (by omega), hval]
  · rw [← List.drop_drop, h, List.drop_left' (bitsOf_length n v)]

/-- A read past the bits that are left returns EOS (R51). -/
theorem inReadBits_eos {n : Nat} {s : State} (h : (s.inp.bits.drop s.inp.pos).length < n) :
    inReadBits n s =
      (none, { s with inp := { s.inp with pos := s.eosPos }, free := s.free + 1
                      trace := s.trace ++ [.inReadBits n none] }) := by
  apply inReadBits_of_lt
  simp only [List.length_drop] at h
  omega

/-- The position after EOS lies between the position before it and the end (U7). -/
theorem eosPos_range {s : State} (h : s.inp.pos ≤ s.inp.bits.length) :
    s.inp.pos ≤ s.eosPos ∧ s.eosPos ≤ s.inp.bits.length := by
  unfold State.eosPos
  split
  · exact ⟨Nat.le_refl _, h⟩
  · have := Nat.mod_lt (Config.freePos s.free) (show 0 < s.unread + 1 by omega)
    unfold State.unread at *
    omega

/-- At the end of the stream EOS leaves the position where it is. -/
theorem eosPos_end {s : State} (h : s.inp.bits.drop s.inp.pos = []) : s.eosPos = s.inp.pos := by
  have : s.unread = 0 := by
    have := congrArg List.length h
    simpa [State.unread] using this
  simp [State.eosPos, this]

/-! ### Writing -/

@[simp] theorem outWriteBits_open {n v : Nat} {s : State} (h : s.out.closed = false) :
    outWriteBits n v s =
      .go { s with out := { s.out with bits := s.out.bits ++ bitsOf n v }, trace := s.trace ++ [.outWriteBits n v] } := by
  simp [outWriteBits, h, State.record]

theorem outWriteBits_closed {n v : Nat} {s : State} (h : s.out.closed = true) :
    outWriteBits n v s = .refuse .closedOutput s := by simp [outWriteBits, h]

theorem State.wrote_wrote (s : State) (b c : List Bool) (t u : List Txn) :
    (s.wrote b t).wrote c u = s.wrote (b ++ c) (t ++ u) := by simp [State.wrote]

@[simp] theorem State.wrote_closed (s : State) (b : List Bool) (t : List Txn) : (s.wrote b t).out.closed = s.out.closed := rfl

theorem outWriteBits_wrote {n v : Nat} {s : State} (h : s.out.closed = false) :
    outWriteBits n v s = .go (s.wrote (bitsOf n v) [.outWriteBits n v]) := outWriteBits_open h

@[simp] theorem bitsOf_one_toNat (b : Bool) : bitsOf 1 b.toNat = [b] := by cases b <;> rfl

/-- ENCODE's emission of a code to an open output: its bits in order, one transaction each (R161). -/
theorem emit_open (c : List Bool) {s : State} (h : s.out.closed = false) :
    emit c s = .go (s.wrote c (codeWrites c)) := by
  induction c generalizing s with
  | nil => simp [emit, State.wrote, codeWrites]
  | cons b c ih =>
    rw [emit, outWriteBits_wrote h, Act.go_andThen, ih (by simpa using h), State.wrote_wrote]
    simp [codeWrites]

/-- A leaf's two writes (R143). -/
theorem writeLeaf_open (sym : Sym) {s : State} (h : s.out.closed = false) :
    writeLeaf sym s =
      .go (s.wrote (true :: bitsOf 9 sym.toNat) [.outWriteBits 1 1, .outWriteBits 9 sym.toNat]) := by
  rw [writeLeaf, outWriteBits_wrote h, Act.go_andThen, outWriteBits_wrote (by simpa using h), State.wrote_wrote]
  rfl

/-- An internal node's write (R143). -/
theorem writeInternal_open {s : State} (h : s.out.closed = false) :
    writeInternal s = .go (s.wrote [false] [.outWriteBits 1 0]) := by
  rw [writeInternal, outWriteBits_wrote h]
  rfl

/-! ### Closing -/

theorem padLength_le (n : Nat) : padLength n ≤ 7 := by unfold padLength; omega

theorem padLength_fills (n : Nat) : (n + padLength n) % 8 = 0 := by unfold padLength; omega

/-! ### Fault entry and the ends of a command -/

/-- Fault entry (R188). -/
theorem raise_spec (e : ErrKind) (info : BitVec 2) (s : State) :
    ∃ t, raise e info s = .raised t ∧ t.phase = .fault ∧ t.err = e.code ∧ t.errinfo = errinfoOf s.phase info ∧
      t.status = 4#8 ∧ t.fv = false ∧ t.tv = false ∧ t.cv = false ∧ t.expect = .unit ∧ t.walk = [] ∧
      t.inp = s.inp ∧ t.out = s.out ∧ t.trace = s.trace ∧ t.host = s.host ∧ t.reads = s.reads ∧ t.magic = s.magic ∧
      t.stalled = s.stalled ∧ (s.phase = .rdhdr → t.root = s.root) := by
  exact ⟨_, rfl, rfl, rfl, rfl, rfl, rfl, rfl, rfl, rfl, rfl, rfl, rfl, rfl, rfl, rfl, rfl, rfl, fun h => if_pos h⟩

/-- Completion (R103). -/
theorem complete_spec (s : State) (h : s.faulted = false) :
    (complete s).phase = .idle ∧ (complete s).status = 2#8 ∧ (complete s).fv = false ∧ (complete s).tv = false ∧
      (complete s).cv = false ∧ (complete s).err = s.err ∧ (complete s).errinfo = s.errinfo ∧ (complete s).inp = s.inp ∧
      (complete s).out = s.out ∧ (complete s).trace = s.trace ∧ (complete s).host = s.host ∧
      (complete s).reads = s.reads ∧ (complete s).magic = s.magic ∧ (complete s).expect = .unit := by
  simp [complete, statusOf, h]

end Sys2Proof.Machine
end

