-- ==== Sys2Proof/Laws/Tree.lean ====
section
/-! SUPPORT. Laws of the abstract tree (10_state.md R21): its codes (R83, R130), its shape (R156), and what it means that the node memory
holds one (R43). -/

namespace Sys2Proof

/-- A field spells one value (R8). -/
theorem bitsOf_inj {n a b : Nat} (ha : a < 2^n) (hb : b < 2^n) (h : bitsOf n a = bitsOf n b) : a = b := by
  have := congrArg valOf h
  rwa [valOf_bitsOf_of_lt ha, valOf_bitsOf_of_lt hb] at this

theorem bitsOfBytes_append (a b : List Byte) : bitsOfBytes (a ++ b) = bitsOfBytes a ++ bitsOfBytes b := by simp [bitsOfBytes]

theorem flatMap_congr_mem {α β : Type} {l : List α} {f g : α → List β} (h : ∀ a ∈ l, f a = g a) : l.flatMap f = l.flatMap g := by
  induction l with
  | nil => rfl
  | cons a l ih => simp only [List.flatMap_cons]; rw [h a (by simp), ih (fun x hx => h x (by simp [hx]))]

/-- A prefix of `a ++ b` ends inside `a`, or is `a` and a prefix of `b`. -/
theorem prefix_append_cases {p a b : List Bool} (h : p <+: a ++ b) : (p <+: a ∧ p ≠ a) ∨ ∃ q, p = a ++ q ∧ q <+: b := by
  rcases List.prefix_or_prefix_of_prefix h (List.prefix_append a b) with h1 | h1
  · by_cases e : p = a
    · right; exact ⟨[], by simp [e], List.nil_prefix⟩
    · exact .inl ⟨h1, e⟩
  · obtain ⟨q, rfl⟩ := h1
    right; exact ⟨q, rfl, by simpa using h⟩

/-- A codeword is read back where it stands (R83). -/
theorem takeCodeword_along (c rest : List Bool) : takeCodeword (Tree.along c) (c ++ rest) = some (c, rest) := by
  induction c with
  | nil => rfl
  | cons b c ih => cases b <;> simp [Tree.along, takeCodeword, ih]

/-- What is read as a codeword is what stood there (R83). -/
theorem takeCodeword_some {t : Tree} {bs c rest : List Bool} (h : takeCodeword t bs = some (c, rest)) : c ++ rest = bs := by
  induction t generalizing bs c with
  | leaf s w => simp [takeCodeword] at h; simp [h]
  | internal w l r ihl ihr =>
    cases bs with
    | nil => simp [takeCodeword] at h
    | cons b bs =>
      cases b <;> simp only [takeCodeword, Option.map_eq_some_iff] at h <;> obtain ⟨⟨c', r'⟩, h1, h2⟩ := h <;>
        simp only [Prod.mk.injEq] at h2 <;> obtain ⟨rfl, rfl⟩ := h2
      · simp [ihl h1]
      · simp [ihr h1]

/-- The walk carries its path along (R130). -/
theorem Tree.codesFrom_eq (t : Tree) (p : List Bool) : t.codesFrom p = t.codes.map fun c => (c.1, p ++ c.2) := by
  have : ∀ p q, t.codesFrom (p ++ q) = (t.codesFrom q).map fun c => (c.1, p ++ c.2) := by
    induction t with
    | leaf s w => intro p q; simp [Tree.codesFrom]
    | internal w l r ihl ihr => intro p q; simp only [Tree.codesFrom, List.map_append, ← ihl, ← ihr, List.append_assoc]
  simpa [Tree.codes] using this p []

/-- The codes of an internal node: 0 and the left ones, then 1 and the right ones (R130). -/
theorem Tree.codes_internal (w l r) : (Tree.internal w l r).codes =
    (l.codes.map fun c => (c.1, false :: c.2)) ++ (r.codes.map fun c => (c.1, true :: c.2)) := by
  conv_lhs => rw [Tree.codes, Tree.codesFrom, Tree.codesFrom_eq l, Tree.codesFrom_eq r]
  simp

/-- The walk visits the leaves left to right (R130). -/
theorem Tree.codesFrom_symbols (t : Tree) : ∀ p, (t.codesFrom p).map (·.1) = t.symbols := by
  induction t with
  | leaf s w => intro p; rfl
  | internal w l r ihl ihr => intro p; simp [Tree.codesFrom, Tree.symbols, ihl, ihr]

/-- A path of a tree is read as a codeword where it stands (R83, R133). -/
theorem takeCodeword_code (t : Tree) : ∀ (sym : Sym) (c rest : List Bool), (sym, c) ∈ t.codes →
    takeCodeword t (c ++ rest) = some (c, rest) := by
  induction t with
  | leaf s w =>
    intro sym c rest h
    simp only [Tree.codes, Tree.codesFrom, List.mem_singleton, Prod.mk.injEq] at h
    obtain ⟨rfl, rfl⟩ := h; rfl
  | internal w l r ihl ihr =>
    intro sym c rest h
    rw [Tree.codes_internal, List.mem_append] at h
    rcases h with h | h <;> simp only [List.mem_map, Prod.mk.injEq] at h <;> obtain ⟨⟨x, y⟩, h1, rfl, rfl⟩ := h
    · simp [takeCodeword, ihl _ _ rest h1]
    · simp [takeCodeword, ihr _ _ rest h1]

/-- Only in the single-leaf tree is a code empty (R131). -/
theorem Tree.codes_ne_nil {t : Tree} {w : Nat} {l r : Tree} (ht : t = .internal w l r) {c : Sym × List Bool}
    (hc : c ∈ t.codes) : c.2 ≠ [] := by
  subst ht
  rw [Tree.codes_internal] at hc
  intro h
  simp at hc
  rcases hc with ⟨a, b, _, rfl⟩ | ⟨a, b, _, rfl⟩ <;> simp at h

/-- A tree of `L` leaves has `2 L - 1` nodes (R21). -/
theorem Tree.size_add_one (t : Tree) : t.size + 1 = 2 * t.symbols.length := by
  induction t with
  | leaf => simp [Tree.size, Tree.symbols]
  | internal w l r ihl ihr => simp only [Tree.size, Tree.symbols, List.length_append]; omega

theorem Tree.symbols_length_pos (t : Tree) : 0 < t.symbols.length := by
  have := Tree.size_add_one t; cases t <;> simp [Tree.size] at this <;> omega

theorem Tree.size_shape (t : Tree) : t.shape.size = t.size := by
  induction t with
  | leaf => rfl
  | internal w l r ihl ihr => simp [Tree.shape, Tree.size, ihl, ihr]

theorem Tree.symbols_shape (t : Tree) : t.shape.symbols = t.symbols := by
  induction t with
  | leaf => rfl
  | internal w l r ihl ihr => simp [Tree.shape, Tree.symbols, ihl, ihr]

/-- The shape keeps every code (R156). -/
theorem Tree.codesFrom_shape (t : Tree) : ∀ p, t.shape.codesFrom p = t.codesFrom p := by
  induction t with
  | leaf => intro p; rfl
  | internal w l r ihl ihr => intro p; simp [Tree.shape, Tree.codesFrom, ihl, ihr]

/-- The number of nodes on the longest path of a tree. -/
def Tree.depth : Tree → Nat
  | .leaf _ _ => 1
  | .internal _ l r => 1 + max (Tree.depth l) (Tree.depth r)

theorem Tree.depth_le_size (t : Tree) : Tree.depth t ≤ t.size := by
  induction t with
  | leaf => simp [Tree.depth, Tree.size]
  | internal w l r ihl ihr => simp only [Tree.depth, Tree.size]; omega

end Sys2Proof

namespace Sys2Proof.Machine

/-- NULL names no entry (R9, R24). -/
@[simp] theorem nodeAt_null (s : State) : s.nodeAt Config.null = none := Vector.getElem?_eq_none (show 513 ≤ 1023 by decide)

/-- A write of NODE changes the one entry it names (R9, R24). -/
theorem setNode_getElem (s : State) (p : Ptr) (n : Node) (i : Nat) :
  (s.setNode p n).node[i]? = if p.toNat = i ∧ i < 513 then some n else s.node[i]? := by
  simp only [State.setNode, Vector.getElem?_setIfInBounds]
  by_cases h : p.toNat = i
  · subst h; by_cases h2 : p.toNat < 513 <;> simp [h2]
  · simp [h]

/-- The entries of `nodes` from `p` on spell the shape and the symbols of a tree (R43). -/
def Spells (nodes : Vector Node 513) : Ptr → Tree → Prop
  | p, .leaf sym _ => ∃ n, nodes[p.toNat]? = some n ∧ n.leaf = true ∧ n.sym = sym
  | p, .internal _ l r => ∃ n, nodes[p.toNat]? = some n ∧ n.leaf = false ∧ Spells nodes n.left l ∧ Spells nodes n.right r

/-- Where `treeAt` answers a tree, the entries spell it. -/
theorem spells_of_treeAt {nodes : Vector Node 513} {fuel : Nat} : ∀ {p : Ptr} {t : Tree}, treeAt nodes fuel p = .ok t →
    Spells nodes p t := by
  induction fuel with
  | zero => intro p t h; simp [treeAt] at h
  | succ fuel ih =>
    intro p t h
    unfold treeAt at h
    split at h
    · simp at h
    split at h
    · split at h
      · simp only [Except.ok.injEq] at h; subst h; exact ⟨_, ‹_›, ‹_›, rfl⟩
      · simp at h
    · split at h
      · simp at h
      split at h
      · simp at h
      simp only [Except.ok.injEq] at h; subst h
      refine ⟨_, ‹_›, ?_, ih ‹_›, ih ‹_›⟩
      exact Bool.eq_false_iff.mpr ‹_›

theorem spells_of_tree {s : State} {t : Tree} (h : s.tree = .ok t) : Spells s.node s.root t := spells_of_treeAt h

/-- A tree's root stands in an entry, and NULL names none. -/
theorem Spells.get {nodes : Vector Node 513} {p : Ptr} {t : Tree} (h : Spells nodes p t) :
   ∃ n, nodes[p.toNat]? = some n ∧ p ≠ Config.null ∧ (n.leaf = true ↔ ∃ s w, t = .leaf s w) := by
  have key : ∀ n, nodes[p.toNat]? = some n → p ≠ Config.null := by
    rintro n h rfl
    simp [Config.null] at h
  cases t with
  | leaf s w => obtain ⟨n, h1, h2, h3⟩ := h; exact ⟨n, h1, key _ h1, by simp [h2]⟩
  | internal w l r => obtain ⟨n, h1, h2, h3⟩ := h; exact ⟨n, h1, key _ h1, by simp [h2]⟩

/-- A tree the node memory holds has symbols 0 to 256 (R20). -/
theorem treeAt_symbols (nodes : Vector Node 513) (fuel : Nat) : ∀ (p : Ptr) (t : Tree), treeAt nodes fuel p = .ok t →
    ∀ sym ∈ t.symbols, sym.toNat ≤ 256 := by
  induction fuel with
  | zero => intro p t h; simp [treeAt] at h
  | succ fuel ih =>
    intro p t h
    unfold treeAt at h
    split at h
    · simp at h
    split at h
    · split at h
      · simp only [Except.ok.injEq] at h; subst h; simpa [Tree.symbols, Config.eofSym] using ‹_›
      · simp at h
    · split at h
      · simp at h
      split at h
      · simp at h
      simp only [Except.ok.injEq] at h; subst h
      intro sym hs
      simp only [Tree.symbols, List.mem_append] at hs
      rcases hs with hs | hs
      · exact ih _ _ ‹_› _ hs
      · exact ih _ _ ‹_› _ hs

/-- Entries `lo` to `hi - 1` of `nodes` hold tree `t` at `p`, its weights and the NULL pointers of its leaves included (R24, R43). -/
def Holds (nodes : Vector Node 513) (lo hi : Nat) : Ptr → Tree → Prop
  | p, .leaf sym w => lo ≤ p.toNat ∧ p.toNat < hi ∧
      ∃ n, nodes[p.toNat]? = some n ∧ n.leaf = true ∧ n.sym = sym ∧ n.weight.toNat = w ∧ n.left = Config.null ∧
      n.right = Config.null ∧ sym.toNat ≤ 256
  | p, .internal w l r => lo ≤ p.toNat ∧ p.toNat < hi ∧
      ∃ n, nodes[p.toNat]? = some n ∧ n.leaf = false ∧ n.weight.toNat = w ∧ Holds nodes lo hi n.left l ∧
      Holds nodes lo hi n.right r

/-- A held tree stays held while the entries it lies in stay as they are. -/
theorem Holds.mono {nodes nodes' : Vector Node 513} {lo hi lo' hi' : Nat} {t : Tree} : ∀ {p : Ptr}, Holds nodes lo hi p t →
    lo' ≤ lo → hi ≤ hi' → (∀ i, lo ≤ i → i < hi → nodes'[i]? = nodes[i]?) → Holds nodes' lo' hi' p t := by
  induction t with
  | leaf sym w =>
    rintro p ⟨h1, h2, n, h3⟩ hl hh he
    exact ⟨by omega, by omega, n, by rw [he _ h1 h2]; exact h3⟩
  | internal w l r ihl ihr =>
    rintro p ⟨h1, h2, n, h3, h4, h5, h6, h7⟩ hl hh he
    exact ⟨by omega, by omega, n, by rw [he _ h1 h2]; exact h3, h4, h5, ihl h6 hl hh he, ihr h7 hl hh he⟩

theorem Holds.lt {nodes : Vector Node 513} {lo hi : Nat} {t : Tree} {p : Ptr} (h : Holds nodes lo hi p t) : p.toNat < hi := by
  cases t with
  | leaf => exact h.2.1
  | internal => exact h.2.1

theorem Holds.weight {nodes : Vector Node 513} {lo hi : Nat} {t : Tree} {p : Ptr} (h : Holds nodes lo hi p t) : ∃ n,
    nodes[p.toNat]? = some n ∧ n.weight.toNat = t.weight := by
  cases t with
  | leaf => obtain ⟨_, _, n, h1, h2, h3, h4, _⟩ := h; exact ⟨n, h1, h4⟩
  | internal => obtain ⟨_, _, n, h1, h2, h3, _⟩ := h; exact ⟨n, h1, h3⟩

/-- A held tree is the one `treeAt` answers (R43). -/
theorem Holds.treeAt {nodes : Vector Node 513} {lo hi : Nat} {t : Tree} : ∀ {p : Ptr} {fuel : Nat}, Holds nodes lo hi p t →
    Tree.depth t ≤ fuel →
    treeAt nodes fuel p = .ok t := by
  induction t with
  | leaf sym w =>
    rintro p fuel ⟨h1, h2, n, h3, h4, rfl, rfl, _, _, h7⟩ hf
    cases fuel with
    | zero => simp [Tree.depth] at hf
    | succ fuel => 
      unfold Machine.treeAt
      simp [h3, h4, h7, Config.eofSym]
  | internal w l r ihl ihr =>
    rintro p fuel ⟨h1, h2, n, h3, h4, rfl, h6, h7⟩ hf
    cases fuel with
    | zero => simp [Tree.depth] at hf
    | succ fuel =>
      simp only [Tree.depth] at hf
      unfold Machine.treeAt
      simp [h3, h4, ihl h6 (fuel := fuel) (by omega), ihr h7 (fuel := fuel) (by omega)]

/-- A root that is a leaf is childless (R24). -/
theorem childless_of_holds {s : State} {t : Tree} {lo hi : Nat} (h : Holds s.node lo hi s.root t) : s.rootChildless = true := by
  unfold State.rootChildless State.nodeAt
  cases t with
  | leaf sym w => obtain ⟨_, _, n, h1, h2, _, _, h3, h4, _⟩ := h; simp [h1, h3, h4]
  | internal w l r => obtain ⟨_, _, n, h1, h2, _⟩ := h; simp [h1, h2]

/-! ### Where branches lead -/

theorem walkTo_stuck {s : State} {p : Ptr} (h : s.nodeAt p = none) (c : List Bool) : s.walkTo p c = p := by
  cases c <;> simp [State.walkTo, h]

/-- Branches are followed one after another (R172). -/
theorem walkTo_append (s : State) (c d : List Bool) : ∀ p, s.walkTo p (c ++ d) = s.walkTo (s.walkTo p c) d := by
  induction c with
  | nil => intro p; rfl
  | cons b c ih =>
    intro p
    cases h : s.nodeAt p with
    | none => rw [walkTo_stuck h, walkTo_stuck h, walkTo_stuck h]
    | some n => simp only [List.cons_append, State.walkTo, h, ih]

/-- Only the node memory matters. -/
theorem walkTo_congr {s t : State} (h : t.node = s.node) (c : List Bool) : ∀ p, t.walkTo p c = s.walkTo p c := by
  induction c with
  | nil => intro p; rfl
  | cons b c ih => intro p; simp only [State.walkTo, State.nodeAt, h, ih]

end Sys2Proof.Machine
end

