-- ==== Sys2Proof/Laws/Actions.lean ====
section
/-! SUPPORT. What a piece of an operation can do, said once: it may go on with the control registers untouched, end in a fault of the
spec, or stop; and how these facts pass along a chain of pieces. -/

namespace Sys2Proof.Machine

/-! ### Reading -/

/-- A read that returned a value (R51). -/
theorem inReadBits_some {n : Nat} {s t : State} {v : Nat} (h : inReadBits n s = (some v, t)) :
   s.inp.pos + n ≤ s.inp.bits.length ∧ v = valOf (s.ahead.take n) ∧ v < 2^n ∧ s.ahead = bitsOf n v ++ t.ahead ∧
   t.inp.bits = s.inp.bits ∧
   t = { s with inp := { s.inp with pos := s.inp.pos + n }, trace := s.trace ++ [.inReadBits n (some v)] } := by
  by_cases hl : s.inp.pos + n ≤ s.inp.bits.length
  · rw [inReadBits_of_le hl] at h
    simp only [Prod.mk.injEq, Option.some.injEq] at h
    obtain ⟨rfl, rfl⟩ := h
    have hlen : (s.ahead.take n).length = n := by simp [State.ahead]; omega
    refine ⟨hl, rfl, ?_, ?_, rfl, rfl⟩
    · have := valOf_lt (s.ahead.take n); rwa [hlen] at this
    · have := bitsOf_valOf (s.ahead.take n)
      rw [hlen] at this
      simp only [State.ahead] at this ⊢
      rw [this, ← List.drop_drop, List.take_append_drop]
  · rw [inReadBits_of_lt (by omega)] at h; simp at h

theorem inReadBits_out (n : Nat) (s : State) : (inReadBits n s).2.out = s.out := by
  unfold inReadBits; split <;> rfl

/-- Of a piece of an operation: it leaves the control registers, NODE, ROOT, the walk stack and the host alone, and IN.pos only moves on
and stays inside the stream. -/
structure Calm (s0 s : State) : Prop where
  phase : s.phase = s0.phase
  status : s.status = s0.status
  err : s.err = s0.err
  errinfo : s.errinfo = s0.errinfo
  nalloc : s.nalloc = s0.nalloc
  k : s.k = s0.k
  fv : s.fv = s0.fv
  tv : s.tv = s0.tv
  cv : s.cv = s0.cv
  node : s.node = s0.node
  root : s.root = s0.root
  walk : s.walk = s0.walk
  host : s.host = s0.host
  len : s.inp.bits = s0.inp.bits
  pos : s0.inp.pos ≤ s.inp.pos
  posle : s0.inp.pos ≤ s0.inp.bits.length → s.inp.pos ≤ s.inp.bits.length

theorem Calm.refl (s : State) : Calm s s := ⟨rfl, rfl, rfl, rfl, rfl, rfl, rfl, rfl, rfl, rfl, rfl, rfl, rfl, rfl,
    Nat.le_refl _, id⟩

theorem Calm.trans {a b c : State} (h : Calm a b) (g : Calm b c) : Calm a c :=
  ⟨g.phase.trans h.phase, g.status.trans h.status, g.err.trans h.err, g.errinfo.trans h.errinfo, g.nalloc.trans h.nalloc, g.k.trans h.k, g.fv.trans h.fv, g.tv.trans h.tv, g.cv.trans h.cv, g.node.trans h.node, g.root.trans h.root,
   g.walk.trans h.walk, g.host.trans h.host, g.len.trans h.len, Nat.le_trans h.pos g.pos, fun hp => g.posle (h.posle hp)⟩

/-- A read is calm, and one that returns a value consumes its bits (R51, R52). -/
theorem inReadBits_calm {n : Nat} {s t : State} {r : Option Nat} (h : inReadBits n s = (r, t)) :
    Calm s t ∧ t.expect = s.expect ∧ t.cur = s.cur ∧ (r.isSome → t.unread + n = s.unread) := by
  by_cases hl : s.inp.pos + n ≤ s.inp.bits.length
  · rw [inReadBits_of_le hl] at h
    obtain ⟨rfl, rfl⟩ := Prod.mk.inj h
    refine ⟨⟨rfl, rfl, rfl, rfl, rfl, rfl, rfl, rfl, rfl, rfl, rfl, rfl, rfl, rfl, by simp, fun _ => hl⟩, rfl, rfl, fun _ => ?_⟩
    simp only [State.unread]; omega
  · rw [inReadBits_of_lt (by omega)] at h
    obtain ⟨rfl, rfl⟩ := Prod.mk.inj h
    have hle : s.inp.pos ≤ s.eosPos := by unfold State.eosPos; split <;> omega
    exact ⟨⟨rfl, rfl, rfl, rfl, rfl, rfl, rfl, rfl, rfl, rfl, rfl, rfl, rfl, rfl, hle, fun hp => (eosPos_range hp).2⟩, rfl, rfl, fun h => by simp at h⟩

/-! ### Writing -/

/-- A write goes on, or is refused because the output is closed (R54). -/
theorem outWriteBits_cases (n v : Nat) (s : State) : (∃ t, outWriteBits n v s = .go t ∧ Calm s t ∧ t.expect = s.expect ∧
    t.cur = s.cur ∧ t.inp = s.inp ∧ t.code = s.code) ∨ outWriteBits n v s = .refuse .closedOutput s := by
  cases h : s.out.closed
  · left; exact ⟨_, outWriteBits_open h, ⟨rfl, rfl, rfl, rfl, rfl, rfl, rfl, rfl, rfl, rfl, rfl, rfl, rfl, rfl, Nat.le_refl _, id⟩, rfl, rfl, rfl, rfl⟩
  · right; exact outWriteBits_closed h

/-- Of a piece that only writes: it goes on, calm and with IN untouched, or is refused because the output is closed. -/
def Writes (s : State) (a : Act) : Prop := (∃ t, a = .go t ∧ Calm s t ∧ t.expect = s.expect ∧ t.cur = s.cur ∧
    t.inp = s.inp) ∨ ∃ t, a = .refuse .closedOutput t

theorem Writes.write (n v : Nat) (s : State) : Writes s (outWriteBits n v s) := by
  rcases outWriteBits_cases n v s with ⟨t, h1, h2, h3, h4, h5, _⟩ | h
  · exact .inl ⟨t, h1, h2, h3, h4, h5⟩
  · exact .inr ⟨s, h⟩

theorem Writes.andThen {s : State} {a : Act} {f : State → Act} (h : Writes s a) (hf : ∀ t,
    Writes t (f t)) : Writes s (a.andThen f) := by
  rcases h with ⟨t, rfl, h2, h3, h4, h5⟩ | ⟨t, rfl⟩
  · rcases hf t with ⟨u, g1, g2, g3, g4, g5⟩ | ⟨u, g⟩
    · exact .inl ⟨u, g1, h2.trans g2, g3.trans h3, g4.trans h4, g5.trans h5⟩
    · exact .inr ⟨u, g⟩
  · exact .inr ⟨t, rfl⟩

theorem emit_writes (c : List Bool) : ∀ s, Writes s (emit c s) := by
  induction c with
  | nil => intro s; exact .inl ⟨s, rfl, Calm.refl s, rfl, rfl, rfl⟩
  | cons b c ih => intro s; exact (Writes.write _ _ s).andThen ih

theorem ser_writes (t : Tree) : ∀ s, Writes s (ser t s) := by
  induction t with
  | leaf sym w => intro s; exact (Writes.write _ _ s).andThen (Writes.write _ _)
  | internal w l r ihl ihr => intro s; exact ((Writes.write _ _ s).andThen ihl).andThen ihr

/-! ### Fault entry and the ends of a piece -/

/-- The state after fault entry (R188). -/
structure FaultTaken (t : State) : Prop where
  phase : t.phase = .fault
  status : t.status = 4#8
  legal : (t.err, t.errinfo) ∈ legalErrors
  walk : t.walk = []
  expect : t.expect = .unit
  nalloc : t.nalloc.toNat ≤ 513
  k : t.k.toNat ≤ 256
  pos : t.inp.pos ≤ t.inp.bits.length
  tv : t.tv = false

/-- The control registers while a command runs in phase `p` (R25, R31 to R33, R35, R38). -/
structure Running (p : Phase) (s : State) : Prop where
  phase : s.phase = p
  status : s.status = 1#8
  err : s.err = 0#8
  errinfo : s.errinfo = 0#8
  nalloc : s.nalloc.toNat ≤ 513
  k : s.k.toNat ≤ 256
  pos : s.inp.pos ≤ s.inp.bits.length

theorem Running.calm {p : Phase} {s t : State} (h : Running p s) (c : Calm s t) : Running p t :=
  ⟨c.phase.trans h.phase, c.status.trans h.status, c.err.trans h.err, c.errinfo.trans h.errinfo, by rw [c.nalloc]; exact h.nalloc, by rw [c.k]; exact h.k, c.posle h.pos⟩

/-- Where a piece goes on, it goes on in a state with `P`; where it raises a fault of the spec, it leaves the state of fault entry. -/
def EndsIn (P : State → Prop) : Act → Prop
  | .go t => P t
  | .raised t => FaultTaken t
  | .fault _ _ => True
  | .refuse _ _ => True

theorem EndsIn.andThen {P Q : State → Prop} {a : Act} {f : State → Act} (h : EndsIn P a) (hf : ∀ t, P t →
    EndsIn Q (f t)) : EndsIn Q (a.andThen f) := by
  cases a with
  | go t => exact hf t h
  | raised t => exact h
  | fault e t => trivial
  | refuse r t => trivial

theorem EndsIn.mono {P Q : State → Prop} {a : Act} (h : EndsIn P a) (hf : ∀ t, P t → Q t) : EndsIn Q a := by
  cases a with
  | go t => exact hf t h
  | raised t => exact h
  | fault e t => trivial
  | refuse r t => trivial

theorem EndsIn.next {P : State → Prop} {a : Act} {t : State} (h : EndsIn P a)
    (ht : a.outcome = .next t) : P t ∨ FaultTaken t := by
  rcases Act.outcome_eq_next.mp ht with rfl | rfl
  · exact .inl h
  · exact .inr h

/-- Fault entry from a phase and with a kind and sub-cause that R81 lists. -/
theorem raise_endsIn {P : State → Prop} {e : ErrKind} {info : BitVec 2} {s : State} (h : (e.code,
    errinfoOf s.phase info) ∈ legalErrors) (hp : s.inp.pos ≤ s.inp.bits.length) :
   EndsIn P (raise e info s) := by
  show FaultTaken _
  constructor
  · rfl
  · rfl
  · exact h
  · rfl
  · rfl
  · show (BitVec.ofNat 10 (Config.freeNalloc s.free % 514)).toNat ≤ 513
    have := Nat.mod_lt (Config.freeNalloc s.free) (show 0 < 514 by decide)
    simp; omega
  · show (BitVec.ofNat 9 (Config.freeK s.free % 257)).toNat ≤ 256
    have := Nat.mod_lt (Config.freeK s.free) (show 0 < 257 by decide)
    simp; omega
  · exact hp
  · rfl

theorem Writes.endsIn {s : State} {a : Act} (h : Writes s a) : EndsIn (fun t => Calm s t ∧ t.expect = s.expect ∧
    t.inp = s.inp) a := by
  rcases h with ⟨t, rfl, h2, h3, h4, h5⟩ | ⟨t, rfl⟩
  · exact ⟨h2, h3, h5⟩
  · trivial

/-- Of a piece: it stops the machine only for a write to a closed output. -/
def NoStop : Act → Prop
  | .go _ => True
  | .raised _ => True
  | .fault _ _ => False
  | .refuse r _ => r = .closedOutput

theorem NoStop.andThen {a : Act} {f : State → Act} (h : NoStop a) (hf : ∀ t, a = .go t →
    NoStop (f t)) : NoStop (a.andThen f) := by
  cases a with
  | go t => exact hf t rfl
  | raised t => trivial
  | fault e t => exact h
  | refuse r t => exact h

theorem Writes.noStop {s : State} {a : Act} (h : Writes s a) : NoStop a := by
  rcases h with ⟨t, rfl, _⟩ | ⟨t, rfl⟩ <;> simp [NoStop]

theorem raise_noStop (e : ErrKind) (i : BitVec 2) (s : State) : NoStop (raise e i s) := trivial

end Sys2Proof.Machine
end

