-- ==== Sys2Proof/Laws/Build.lean ====
section
/-! SUPPORT. BUILD (42_huffman_tree_builder.md): the least element of the queue; the queue of trees that every pass keeps; what depends
on the counts alone. -/

namespace Sys2Proof.Machine

/-! ### The least element (R122) -/

theorem keyLt_iff (s : State) (a b : QEntry) : s.keyLt a b = true ↔
    s.weightOf a < s.weightOf b ∨ (s.weightOf a = s.weightOf b ∧ a.seq.toNat < b.seq.toNat) := by
  simp [State.keyLt]

theorem keyLt_false (s : State) (a b : QEntry) : s.keyLt a b = false ↔
    ¬ (s.weightOf a < s.weightOf b ∨ (s.weightOf a = s.weightOf b ∧ a.seq.toNat < b.seq.toNat)) := by
  rw [← keyLt_iff]; simp

/-- The least of a nonempty list is in it, and no element has a smaller key (R122). -/
theorem least_spec (s : State) (es : List QEntry) : ∀ m, s.least m es ∈ m :: es ∧
    ∀ x ∈ m :: es, s.keyLt x (s.least m es) = false := by
  induction es with
  | nil => intro m; simp [State.least, keyLt_false]
  | cons e es ih =>
    intro m
    rw [State.least]
    obtain ⟨h1, h2⟩ := ih (if s.keyLt e m then e else m)
    constructor
    · by_cases h : s.keyLt e m = true <;> simp only [h, if_true] at h1 ⊢ <;> simp at h1 ⊢ <;> tauto
    · intro x hx
      have hm := h2 _ (List.mem_cons_self ..)
      simp only [List.mem_cons] at hx
      by_cases h : s.keyLt e m = true
      · rw [if_pos h] at hm h2 ⊢
        rcases hx with rfl | rfl | hx
        · rw [keyLt_false] at hm ⊢; rw [keyLt_iff] at h; omega
        · exact hm
        · exact h2 x (by simp [hx])
      · rw [if_neg h] at hm h2 ⊢
        rcases hx with rfl | rfl | hx
        · exact hm
        · rw [keyLt_false] at hm ⊢; rw [keyLt_iff] at h; omega
        · exact h2 x (by simp [hx])

/-- Removing the least keeps the others (R122). -/
theorem removeMin_perm {s : State} {q q' : List QEntry} {e : QEntry} (h : s.removeMin q = some (e, q')) : q.Perm (e :: q') := by
  cases q with
  | nil => simp [State.removeMin] at h
  | cons x q =>
    simp only [State.removeMin, Option.some.injEq, Prod.mk.injEq] at h
    obtain ⟨rfl, rfl⟩ := h
    exact List.perm_cons_erase (least_spec s q x).1

theorem removeMin_takes : TakesOne State.removeMin := by
  refine ⟨fun _ => rfl, fun s q hq => ?_⟩
  cases q with
  | nil => exact absurd rfl hq
  | cons x q => exact ⟨_, _, rfl, removeMin_perm rfl⟩

/-- The two removals of a pass (R120). -/
theorem TakesOne.twice {pick : TieBreak} (hp : TakesOne pick) {s : State} (h : 2 ≤ s.q.length) :
    ∃ a b q1 q2, pick s s.q = some (a, q1) ∧ pick s q1 = some (b, q2) ∧ s.q.Perm (a :: q1) ∧ s.q.Perm (a :: b :: q2) := by
  obtain ⟨a, q1, e1, p1⟩ := hp.2 s s.q (by rintro h'; simp [h'] at h)
  obtain ⟨b, q2, e2, p2⟩ := hp.2 s q1 (by rintro rfl; have := p1.length_eq; simp at this; omega)
  exact ⟨a, b, q1, q2, e1, e2, p1, p1.trans (p2.cons a)⟩

/-- The loop's pass, and its end (R120). -/
theorem mergeLoopBy_pass {pick : TieBreak} (fuel : Nat) {s : State} {a b : QEntry} {q1 q2 : List QEntry}
    (e1 : pick s s.q = some (a, q1)) (e2 : pick s q1 = some (b, q2)) :
    mergeLoopBy pick (fuel + 1) s = mergeLoopBy pick fuel (s.merge a b q2) := by simp [mergeLoopBy, e1, e2]

theorem mergeLoopBy_end {pick : TieBreak} (hp : TakesOne pick) (fuel : Nat) {s : State} (h : s.q.length < 2) :
    mergeLoopBy pick fuel s = s := by
  cases fuel with
  | zero => rfl
  | succ fuel =>
    match hq : s.q with
    | [] => simp [mergeLoopBy, hq, hp.1 s]
    | [x] =>
      obtain ⟨e, q', e1, p1⟩ := hp.2 s [x] (by simp)
      have : q' = [] := List.length_eq_zero_iff.mp (by have := p1.length_eq; simp only [List.length_cons, List.length_nil] at this; omega)
      simp [mergeLoopBy, hq, e1, this, hp.1 s]
    | x :: y :: l => rw [hq] at h; simp at h

/-! ### The queue of trees (R123 to R125) -/

/-- What every pass of BUILD keeps: each queued node is the root of a held tree with exact weights, the trees' leaves together are the
symbols met so far, and NALLOC and K count the nodes. -/
structure QueueOfTrees (s : State) (T : Ptr → Tree) (syms : List Nat) : Prop where
  holds : ∀ e ∈ s.q, Holds s.node 0 s.nalloc.toNat e.ptr (T e.ptr)
  exact : ∀ e ∈ s.q, weightsExact s.freqAt (T e.ptr)
  perm : (s.q.flatMap fun e => (T e.ptr).symbols.map BitVec.toNat).Perm syms
  count : s.q.length + s.k.toNat = syms.length
  alloc : s.nalloc.toNat = syms.length + s.k.toNat
  last : ∀ e, s.q.getLast? = some e → e.ptr.toNat + 1 = s.nalloc.toNat
  weight : (s.q.map fun e => (T e.ptr).weight).sum ≤ syms.length * 2 ^ 32

theorem QueueOfTrees.weightOf {s : State} {T : Ptr → Tree} {syms : List Nat} (h : QueueOfTrees s T syms) {e : QEntry}
    (he : e ∈ s.q) : s.weightOf e = (T e.ptr).weight := by
  obtain ⟨n, h1, h2⟩ := (h.holds e he).weight
  simp [State.weightOf, State.nodeAt, h1, h2]

/-- `T` with the tree at `p` replaced. -/
def updateAt (T : Ptr → Tree) (p : Ptr) (t : Tree) : Ptr → Tree := fun q => if q = p then t else T q

theorem updateAt_self (T : Ptr → Tree) (p : Ptr) (t : Tree) : updateAt T p t p = t := by simp [updateAt]

theorem updateAt_ne {T : Ptr → Tree} {p q : Ptr} {t : Tree} (h : q ≠ p) : updateAt T p t q = T q := by simp [updateAt, h]

/-- One pass of the leaf loop (R121). -/
theorem buildLeaf_keeps {s : State} {T : Ptr → Tree} {syms : List Nat} {n : Nat} (h : QueueOfTrees s T syms) (hn : n ≤ 256)
    (hl : syms.length ≤ n) (hk : s.k = 0#9) :
    ∃ T', QueueOfTrees (buildLeaf s n) T' (syms ++ [n].filter fun sym => s.freqAt sym ≠ 0#32) := by
  unfold buildLeaf
  by_cases hz : s.freqAt n = 0#32
  · simp only [hz, if_true]
    exact ⟨T, by simpa [hz] using h⟩
  · simp only [hz, if_false]
    have ha : s.nalloc.toNat = syms.length := by have := h.alloc; rw [hk] at this; simpa using this
    have hc : s.q.length = syms.length := by have := h.count; rw [hk] at this; simpa using this
    have hna : (s.nalloc + 1#10).toNat = s.nalloc.toNat + 1 := by rw [BitVec.toNat_add]; simp; omega
    let t : Tree := .leaf (BitVec.ofNat 9 n) (s.freqAt n).toNat
    have hT : ∀ e ∈ s.q, updateAt T s.nalloc t e.ptr = T e.ptr := by
      intro e he
      have := (h.holds e he).lt
      exact updateAt_ne (by intro e'; rw [e'] at this; omega)
    have hTn : updateAt T s.nalloc t s.nalloc = t := updateAt_self ..
    refine ⟨updateAt T s.nalloc t, ?_, ?_, ?_, ?_, ?_, ?_, ?_⟩
    · intro e he
      simp only [List.mem_append, List.mem_singleton] at he
      show Holds _ 0 (s.nalloc + 1#10).toNat _ _
      rw [hna]
      rcases he with he | rfl
      · rw [hT e he]
        refine (h.holds e he).mono (by omega) (by omega) ?_
        intro i _ hi
        show (s.setNode _ _).node[i]? = _
        rw [setNode_getElem, if_neg (by omega)]
      · rw [hTn]
        refine ⟨Nat.zero_le _, Nat.lt_succ_self _, leafNode (BitVec.ofNat 9 n) ((s.freqAt n).setWidth 41), ?_, rfl, rfl, ?_, rfl, rfl, ?_⟩
        · show (s.setNode _ _).node[s.nalloc.toNat]? = _
          rw [setNode_getElem, if_pos ⟨rfl, by omega⟩]
        · simp [leafNode]
          have := (s.freqAt n).isLt; omega
        · simp; omega
    · intro e he
      simp only [List.mem_append, List.mem_singleton] at he
      rcases he with he | rfl
      · rw [hT e he]; exact h.exact e he
      · rw [hTn]
        show (s.freqAt n).toNat = (s.freqAt (BitVec.ofNat 9 n).toNat).toNat
        rw [BitVec.toNat_ofNat, Nat.mod_eq_of_lt (by omega)]
    · simp only [List.flatMap_append, List.flatMap_singleton, hTn]
      refine List.Perm.append ?_ ?_
      · rw [flatMap_congr_mem (g := fun e => (T e.ptr).symbols.map BitVec.toNat)]
        · exact h.perm
        · intro e he; rw [hT e he]
      · simp [t, Tree.symbols, hz]; omega
    · simp [hz, hk, hc]
    · show (s.nalloc + 1#10).toNat = _
      rw [hna]; simp [hz, hk, ha]
    · intro e he
      simp at he
      subst he
      exact hna.symm
    · simp only [List.map_append, List.sum_append, List.map_singleton, List.sum_singleton, hTn]
      rw [List.map_congr_left (g := fun e => (T e.ptr).weight)]
      · have := h.weight
        have := (s.freqAt n).isLt
        have ht : t.weight = (s.freqAt n).toNat := rfl
        rw [ht]; simp [hz]; omega
      · intro e he; rw [hT e he]

theorem buildLeaf_frame (s : State) (n : Nat) : buildLeaf s n = { s with node := (buildLeaf s n).node, nalloc := (buildLeaf s n).nalloc, q := (buildLeaf s n).q } := by
  unfold buildLeaf; split <;> rfl

theorem buildLeaves_prefix (s : State) (n : Nat) (hn : n ≤ 257) : 
   let u := (List.range n).foldl buildLeaf { s with nalloc := 0#10, k := 0#9, q := [] }
   (u = { s with node := u.node, nalloc := u.nalloc, q := u.q, k := 0#9 }) ∧
   ∃ T, QueueOfTrees u T ((List.range n).filter fun sym => s.freqAt sym ≠ 0#32) := by
  induction n with
  | zero => exact ⟨rfl, fun _ => .leaf 0 0, by constructor <;> simp⟩
  | succ n ih =>
    obtain ⟨h1, T, h2⟩ := ih (by omega)
    simp only [List.range_succ, List.foldl_append, List.foldl_cons, List.foldl_nil]
    generalize hu : (List.range n).foldl buildLeaf { s with nalloc := 0#10, k := 0#9, q := [] } = u at h1 h2
    obtain ⟨nd, na, q, rfl⟩ : ∃ nd na q, u = { s with node := nd, nalloc := na, q := q, k := 0#9 } := ⟨_, _, _, h1⟩
    constructor
    · conv_lhs => rw [buildLeaf_frame]
    · rw [List.filter_append]
      exact buildLeaf_keeps h2 (by omega) (Nat.le_trans (List.length_filter_le ..) (by simp)) rfl

theorem buildLeaves_spec (s : State) : (buildLeaves s = { s with node := (buildLeaves s).node, nalloc := (buildLeaves s).nalloc, q := (buildLeaves s).q, k := 0#9 }) ∧
   ∃ T, QueueOfTrees (buildLeaves s) T ((List.range 257).filter fun sym => s.freqAt sym ≠ 0#32) := buildLeaves_prefix s 257
   (by omega)

/-- One merge (R123, R124). -/
theorem merge_keeps {s : State} {T : Ptr → Tree} {syms : List Nat} {a b : QEntry} {q : List QEntry}
    (h : QueueOfTrees s T syms) (hl : syms.length ≤ 257) (hq : s.q.Perm (a :: b :: q)) :
    ∃ T', QueueOfTrees (s.merge a b q) T' syms := by
  have hq' : ∀ e, e ∈ s.q ↔ e = a ∨ e = b ∨ e ∈ q := by intro e; rw [hq.mem_iff]; simp
  have ha := (hq' a).mpr (.inl rfl)
  have hb := (hq' b).mpr (.inr (.inl rfl))
  have hlen := hq.length_eq
  simp only [List.length_cons] at hlen
  have hcount := h.count
  have halloc := h.alloc
  have hw := h.weight
  have hsum : (s.q.map fun e => (T e.ptr).weight).sum = (T a.ptr).weight + ((T b.ptr).weight + (q.map fun e => (T e.ptr).weight).sum) := by
    rw [(hq.map _).sum_eq]; simp
  have hna : (s.nalloc + 1#10).toNat = s.nalloc.toNat + 1 := by rw [BitVec.toNat_add]; simp; omega
  have hka : (s.k + 1#9).toNat = s.k.toNat + 1 := by rw [BitVec.toNat_add]; simp; omega
  let t : Tree := .internal ((T a.ptr).weight + (T b.ptr).weight) (T a.ptr) (T b.ptr)
  have hT : ∀ e ∈ s.q, updateAt T s.nalloc t e.ptr = T e.ptr := by
    intro e he
    have := (h.holds e he).lt
    exact updateAt_ne (by intro e'; rw [e'] at this; omega)
  have hTn : updateAt T s.nalloc t s.nalloc = t := updateAt_self ..
  have hTq : ∀ e ∈ q, updateAt T s.nalloc t e.ptr = T e.ptr := fun e he => hT e ((hq' e).mpr (.inr (.inr he)))
  have hm : ∀ e ∈ s.q, Holds (s.merge a b q).node 0 (s.nalloc.toNat + 1) e.ptr (T e.ptr) := by
    intro e he
    refine (h.holds e he).mono (by omega) (by omega) ?_
    intro i _ hi
    show (s.setNode _ _).node[i]? = _
    rw [setNode_getElem, if_neg (by omega)]
  refine ⟨updateAt T s.nalloc t, ?_, ?_, ?_, ?_, ?_, ?_, ?_⟩
  · intro e he
    simp only [State.merge, List.mem_append, List.mem_singleton] at he
    show Holds _ 0 (s.nalloc + 1#10).toNat _ _
    rw [hna]
    rcases he with he | rfl
    · have he' := (hq' e).mpr (.inr (.inr he))
      rw [hT e he']; exact hm e he'
    · rw [hTn]
      refine ⟨Nat.zero_le _, Nat.lt_succ_self _, internalNode s.free s.nalloc (BitVec.ofNat 41 (s.weightOf a + s.weightOf b)) a.ptr b.ptr, ?_, rfl, ?_, hm a ha, hm b hb⟩
      · show (s.setNode _ _).node[s.nalloc.toNat]? = _
        rw [setNode_getElem, if_pos ⟨rfl, by omega⟩]
      · simp only [internalNode, BitVec.toNat_ofNat]
        rw [h.weightOf ha, h.weightOf hb]
        apply Nat.mod_eq_of_lt; omega
  · intro e he
    simp only [State.merge, List.mem_append, List.mem_singleton] at he
    rcases he with he | rfl
    · have he' := (hq' e).mpr (.inr (.inr he))
      rw [hT e he']; exact h.exact e he'
    · rw [hTn]; exact ⟨rfl, h.exact a ha, h.exact b hb⟩
  · refine List.Perm.trans ?_ h.perm
    simp only [State.merge, List.flatMap_append, List.flatMap_singleton, hTn]
    rw [flatMap_congr_mem (g := fun e => (T e.ptr).symbols.map BitVec.toNat) (fun e he => by rw [hTq e he])]
    refine List.Perm.trans ?_ (hq.flatMap_right _).symm
    simp only [List.flatMap_cons, t, Tree.symbols, List.map_append, ← List.append_assoc]
    rw [List.append_assoc]
    exact List.perm_append_comm
  · show (q ++ [_]).length + (s.k + 1#9).toNat = _
    rw [hka]; simp; omega
  · show (s.nalloc + 1#10).toNat = _ + (s.k + 1#9).toNat
    rw [hna, hka]; omega
  · intro e he
    simp [State.merge] at he
    subst he
    exact hna.symm
  · simp only [State.merge, List.map_append, List.sum_append, List.map_singleton, List.sum_singleton, hTn]
    rw [List.map_congr_left (g := fun e => (T e.ptr).weight) (fun e he => by rw [hTq e he])]
    have ht : t.weight = (T a.ptr).weight + (T b.ptr).weight := rfl
    rw [ht]; omega

theorem merge_frame (s : State) (a b : QEntry)
    (q : List QEntry) : s.merge a b q = { s with node := (s.merge a b q).node, nalloc := (s.merge a b q).nalloc, q := (s.merge a b q).q, k := (s.merge a b q).k } := rfl

/-- The merge loop ends with one node in Q, whatever the tie-break rule (R125, R127). -/
theorem mergeLoop_spec {pick : TieBreak} (ht : TakesOne pick) (fuel : Nat) : ∀ (s : State) (T : Ptr → Tree) (syms : List Nat),
    QueueOfTrees s T syms → syms.length ≤ 257 → 1 ≤ s.q.length → s.q.length ≤ fuel + 1 →
    (∃ T', QueueOfTrees (mergeLoopBy pick fuel s) T' syms) ∧ (mergeLoopBy pick fuel s).q.length = 1 ∧
    mergeLoopBy pick fuel s =
      { s with node := (mergeLoopBy pick fuel s).node, nalloc := (mergeLoopBy pick fuel s).nalloc
               q := (mergeLoopBy pick fuel s).q, k := (mergeLoopBy pick fuel s).k } := by
  induction fuel with
  | zero => intro s T syms h _ h1 h2; exact ⟨⟨T, h⟩, by simp [mergeLoopBy]; omega, rfl⟩
  | succ fuel ih =>
    intro s T syms h hl h1 h2
    rcases Nat.lt_or_ge s.q.length 2 with hq | hq
    · rw [mergeLoopBy_end ht _ hq]; exact ⟨⟨T, h⟩, by omega, rfl⟩
    · obtain ⟨a, b, q1, q2, e1, e2, _, hp⟩ := ht.twice hq
      obtain ⟨T', hT'⟩ := merge_keeps h hl hp
      have hlen := hp.length_eq
      simp only [List.length_cons] at hlen
      have hlq : (s.merge a b q2).q.length = q2.length + 1 := by simp [State.merge]
      obtain ⟨g1, g2, g3⟩ := ih _ T' syms hT' hl (by omega) (by omega)
      rw [mergeLoopBy_pass fuel e1 e2]
      refine ⟨g1, g2, ?_⟩
      obtain ⟨a1, b1, c1, d1, hx⟩ : ∃ x y z w, mergeLoopBy pick fuel (s.merge a b q2) =
        { s.merge a b q2 with node := x, nalloc := y, q := z, k := w } := ⟨_, _, _, _, g3⟩
      rw [hx]; rfl

theorem sentinel_mem (s : State) : 256 ∈ (List.range 257).filter fun sym => s.freqAt sym ≠ 0#32 := by
  simp [State.freqAt, Config.eofSym]

theorem buildEnd_root {u : State} {e : QEntry} (h : u.q = [e]) : (buildEnd u).root = e.ptr := by simp [buildEnd, h]

/-- BUILD as a whole, whatever the tie-break rule (R120, R125, R127). -/
theorem build_spec {pick : TieBreak} (ht : TakesOne pick) (s : State) :
    ∃ (t : State) (e : QEntry) (T : Ptr → Tree), buildActBy pick s = .go t ∧ t.q = [e] ∧ t.root = e.ptr ∧
    QueueOfTrees t T ((List.range 257).filter fun sym => s.freqAt sym ≠ 0#32) ∧
    t = { s with node := t.node, root := t.root, nalloc := t.nalloc, q := t.q, k := t.k, fv := false, tv := true, free := s.free + 1 } := by
  obtain ⟨h1, T, h2⟩ := buildLeaves_spec s
  have hl : ((List.range 257).filter fun sym => s.freqAt sym ≠ 0#32).length ≤ 257 := Nat.le_trans (List.length_filter_le ..) (by simp)
  have hpos : 1 ≤ ((List.range 257).filter fun sym => s.freqAt sym ≠ 0#32).length := List.length_pos_of_mem (sentinel_mem s)
  have hk : (buildLeaves s).k = 0#9 := by rw [h1]
  have hc := h2.count
  rw [hk] at hc; simp only [BitVec.toNat_ofNat, Nat.zero_mod, Nat.add_zero] at hc
  obtain ⟨⟨T', g1⟩, g2, g3⟩ := mergeLoop_spec ht (buildLeaves s).q.length (buildLeaves s) T _ h2 hl (by omega) (by omega)
  obtain ⟨e, he⟩ := List.length_eq_one_iff.mp g2
  have hb : buildActBy pick s = .go (buildEnd (mergeLoopBy pick (buildLeaves s).q.length (buildLeaves s))) := rfl
  generalize mergeLoopBy pick (buildLeaves s).q.length (buildLeaves s) = u at *
  generalize buildLeaves s = v at *
  refine ⟨buildEnd u, e, T', hb, he, buildEnd_root he, ⟨g1.holds, g1.exact, g1.perm, g1.count, g1.alloc, g1.last, g1.weight⟩, ?_⟩
  obtain ⟨a, b, c, d, rfl⟩ : ∃ a b c d, u = { v with node := a, nalloc := b, q := c, k := d } := ⟨_, _, _, _, g3⟩
  obtain ⟨a', b', c', rfl⟩ : ∃ a b c, v = { s with node := a, nalloc := b, q := c, k := 0#9 } := ⟨_, _, _, h1⟩
  rfl

theorem build_tree {s t : State} {e : QEntry} {T : Ptr → Tree}
    (h : QueueOfTrees t T ((List.range 257).filter fun sym => s.freqAt sym ≠ 0#32)) (hq : t.q = [e]) (hr : t.root = e.ptr) :
    t.tree = .ok (T e.ptr) := by
  have hl : ((List.range 257).filter fun sym => s.freqAt sym ≠ 0#32).length ≤ 257 :=
    Nat.le_trans (List.length_filter_le ..) (by simp)
  have hp := h.perm.length_eq
  rw [hq] at hp
  simp only [List.flatMap_singleton, List.length_map] at hp
  have := Tree.size_add_one (T e.ptr)
  rw [State.tree, hr]
  exact (h.holds e (by rw [hq]; simp)).treeAt (Nat.le_trans (Tree.depth_le_size _) (by unfold Config.nodeCap; omega))

theorem buildAct_ends {s : State} (hs : Running .build s) : ∃ t, buildAct s = .go t ∧ Running .build t ∧ t.tv = true ∧
    t.tree.isOk = true ∧ t.rootChildless = true ∧ t.cv = s.cv ∧ t.walk = s.walk ∧ t.expect = s.expect := by
  obtain ⟨u, e, T, g1, g2, g3, g4, g5⟩ := build_spec removeMin_takes s
  have h2 := build_tree g4 g2 g3
  have hl : ((List.range 257).filter fun sym => s.freqAt sym ≠ 0#32).length ≤ 257 := Nat.le_trans (List.length_filter_le ..) (by simp)
  have hc := g4.count
  have ha := g4.alloc
  rw [g2] at hc
  simp only [List.length_singleton] at hc
  have hh := g4.holds e (by rw [g2]; simp)
  refine ⟨u, g1, ⟨?_, ?_, ?_, ?_, by omega, by omega, ?_⟩, by rw [g5], by rw [h2]; rfl, childless_of_holds (by rw [g3]; exact hh), by rw [g5], by rw [g5], by rw [g5]⟩
  · rw [g5]; exact hs.phase
  · rw [g5]; exact hs.status
  · rw [g5]; exact hs.err
  · rw [g5]; exact hs.errinfo
  · rw [g5]; exact hs.pos

/-! ### The order of the children (R122, R123) -/

/-- What every pass of BUILD with `removeMin` keeps: the queue's seq numbers differ, are those given out so far, and go with the node
indices; and of every internal node the left child has the smaller key (R122, R123). -/
structure Ordered (s : State) (next : Nat) : Prop where
  seq : ∀ e ∈ s.q, e.seq.toNat < next
  ptr : ∀ e ∈ s.q, e.ptr.toNat < s.nalloc.toNat
  mono : ∀ x ∈ s.q, ∀ y ∈ s.q, x.seq.toNat < y.seq.toNat → x.ptr.toNat < y.ptr.toNat
  nodup : (s.q.map fun e => e.seq.toNat).Nodup
  node : ∀ i < s.nalloc.toNat, ∀ n, s.node[i]? = some n → n.leaf = false →
    n.left.toNat < i ∧ n.right.toNat < i ∧ ∃ l r, s.node[n.left.toNat]? = some l ∧ s.node[n.right.toNat]? = some r ∧
    (l.weight.toNat < r.weight.toNat ∨ (l.weight.toNat = r.weight.toNat ∧ n.left.toNat < n.right.toNat))
  held : ∀ e ∈ s.q, ∃ n, s.node[e.ptr.toNat]? = some n

/-- A node that is a leaf, or whose children are older and in order, may be added at NALLOC. -/
theorem Ordered.push {s : State} {next : Nat} (h : Ordered s next) {n : Node} {q : List QEntry} {m : Nat} {k : BitVec 9}
    (hlt : s.nalloc.toNat < 513) (hm : next ≤ m) (hm' : m < 1023) (hq : q.Sublist s.q ∨ (q.map fun e => e.seq.toNat).Nodup)
    (hsub : ∀ e ∈ q, e ∈ s.q) (hn : n.leaf = false → n.left.toNat < s.nalloc.toNat ∧ n.right.toNat < s.nalloc.toNat ∧
      ∃ l r, s.node[n.left.toNat]? = some l ∧ s.node[n.right.toNat]? = some r ∧
      (l.weight.toNat < r.weight.toNat ∨ (l.weight.toNat = r.weight.toNat ∧ n.left.toNat < n.right.toNat))) :
    Ordered { s.setNode s.nalloc n with
      nalloc := s.nalloc + 1#10, q := q ++ [{ ptr := s.nalloc, seq := BitVec.ofNat 10 m }], k := k } (m + 1) := by
  have hna : (s.nalloc + 1#10).toNat = s.nalloc.toNat + 1 := by rw [BitVec.toNat_add]; simp; omega
  have hsm : (BitVec.ofNat 10 m).toNat = m := by simp; omega
  have hold : ∀ i, i < s.nalloc.toNat → (s.setNode s.nalloc n).node[i]? = s.node[i]? := by
    intro i hi; rw [setNode_getElem, if_neg (by omega)]
  have hnew : (s.setNode s.nalloc n).node[s.nalloc.toNat]? = some n := by rw [setNode_getElem, if_pos ⟨rfl, hlt⟩]
  have hmem : ∀ e ∈ q ++ [{ ptr := s.nalloc, seq := BitVec.ofNat 10 m }], e ∈ s.q ∨ e = { ptr := s.nalloc, seq := BitVec.ofNat 10 m } := by
    intro e he
    rcases List.mem_append.mp he with he | he
    · exact .inl (hsub e he)
    · exact .inr (by simpa using he)
  have hnd : (q.map fun e => e.seq.toNat).Nodup := by
    rcases hq with hq | hq
    · exact List.Nodup.sublist (hq.map _) h.nodup
    · exact hq
  constructor
  · intro e he
    rcases hmem e he with he | rfl
    · have := h.seq e he; omega
    · show (BitVec.ofNat 10 m).toNat < _; omega
  · intro e he
    show _ < (s.nalloc + 1#10).toNat
    rcases hmem e he with he | rfl
    · have := h.ptr e he; omega
    · show s.nalloc.toNat < _; omega
  · intro x hx y hy hxy
    rcases hmem x hx with hx | rfl <;> rcases hmem y hy with hy | rfl
    · exact h.mono x hx y hy hxy
    · exact h.ptr x hx
    · have := h.seq y hy; simp only [hsm] at hxy; omega
    · omega
  · rw [List.map_append, List.nodup_append]
    refine ⟨hnd, by simp, ?_⟩
    intro a ha b hb hab
    obtain ⟨e, he, rfl⟩ := List.mem_map.mp ha
    simp only [List.map_cons, List.map_nil, List.mem_singleton] at hb
    have := h.seq e (hsub e he)
    omega
  · intro i hi m' hm1 hl
    replace hi : i < (s.nalloc + 1#10).toNat := hi
    rw [hna] at hi
    rcases Nat.lt_or_ge i s.nalloc.toNat with hi' | hi'
    · replace hm1 : (s.setNode s.nalloc n).node[i]? = some m' := hm1
      rw [hold i hi'] at hm1
      obtain ⟨a, b, l, r, e1, e2, e3⟩ := h.node i hi' m' hm1 hl
      exact ⟨a, b, l, r, (hold _ (by omega)).trans e1, (hold _ (by omega)).trans e2, e3⟩
    · obtain rfl : i = s.nalloc.toNat := by omega
      replace hm1 : (s.setNode s.nalloc n).node[s.nalloc.toNat]? = some m' := hm1
      rw [hnew] at hm1
      obtain rfl : n = m' := Option.some.inj hm1
      obtain ⟨a, b, l, r, e1, e2, e3⟩ := hn hl
      exact ⟨a, b, l, r, (hold _ a).trans e1, (hold _ b).trans e2, e3⟩
  · intro e he
    show ∃ n', (s.setNode s.nalloc n).node[e.ptr.toNat]? = some n'
    rcases hmem e he with he | rfl
    · rw [hold _ (h.ptr e he)]; exact h.held e he
    · exact ⟨n, hnew⟩

theorem buildLeaf_ordered {s : State} {n : Nat} (h : Ordered s n) (hn : n ≤ 256) (hlt : s.nalloc.toNat < 513) :
    Ordered (buildLeaf s n) (n + 1) := by
  unfold buildLeaf
  split
  · exact ⟨fun e he => Nat.lt_succ_of_lt (h.seq e he), h.ptr, h.mono, h.nodup, h.node, h.held⟩
  · exact h.push (k := s.k) hlt (Nat.le_refl _) (by omega) (.inl (List.Sublist.refl _)) (fun _ he => he) (fun hl => nomatch hl)

theorem buildLeaves_ordered (s : State) (n : Nat) (hn : n ≤ 257) :
    Ordered ((List.range n).foldl buildLeaf { s with nalloc := 0#10, k := 0#9, q := [] }) n := by
  induction n with
  | zero => constructor <;> simp
  | succ n ih =>
    obtain ⟨h1, T, h2⟩ := buildLeaves_prefix s n (by omega)
    simp only [List.range_succ, List.foldl_append, List.foldl_cons, List.foldl_nil]
    refine buildLeaf_ordered (ih (by omega)) (by omega) ?_
    have ha := h2.alloc
    have hk : ((List.range n).foldl buildLeaf { s with nalloc := 0#10, k := 0#9, q := [] }).k = 0#9 := by rw [h1]
    rw [hk] at ha
    have := List.length_filter_le (fun sym => decide (s.freqAt sym ≠ 0#32)) (List.range n)
    simp only [List.length_range] at this
    simp at ha
    simp at this
    omega

/-- Of two removals in a row, the first has the smaller key (R122, R123). -/
theorem removeMin_order {s : State} {next : Nat} (h : Ordered s next) {a b : QEntry} {q1 q2 : List QEntry}
    (e1 : s.removeMin s.q = some (a, q1)) (e2 : s.removeMin q1 = some (b, q2)) : s.keyLt a b = true := by
  have p1 := removeMin_perm e1
  have p2 := removeMin_perm e2
  have hb : b ∈ s.q := p1.mem_iff.mpr (by simp [p2.mem_iff])
  have hle : s.keyLt b a = false := by
    cases hq : s.q with
    | nil => simp [hq, State.removeMin] at e1
    | cons x q =>
      rw [hq] at e1 hb
      simp only [State.removeMin, Option.some.injEq, Prod.mk.injEq] at e1
      rw [← e1.1]
      exact (least_spec s q x).2 b hb
  have hne : a.seq.toNat ≠ b.seq.toNat := by
    have hnd := ((p1.trans (p2.cons a)).map fun e => e.seq.toNat).nodup_iff.mp h.nodup
    simp only [List.map_cons, List.nodup_cons, List.mem_cons, not_or] at hnd
    exact hnd.1.1
  rw [keyLt_iff]; rw [keyLt_false] at hle; omega

theorem mergeLoop_ordered (fuel : Nat) : ∀ (s : State) (T : Ptr → Tree) (syms : List Nat), QueueOfTrees s T syms →
    syms.length ≤ 257 → Ordered s (257 + s.k.toNat) →
    ∃ next, Ordered (mergeLoopBy State.removeMin fuel s) next := by
  induction fuel with
  | zero => intro s _ _ _ _ h; exact ⟨_, h⟩
  | succ fuel ih =>
    intro s T syms hb hl h
    rcases Nat.lt_or_ge s.q.length 2 with hq | hq
    · rw [mergeLoopBy_end removeMin_takes _ hq]; exact ⟨_, h⟩
    · obtain ⟨a, b, q1, q2, e1, e2, hp1, hp⟩ := removeMin_takes.twice hq
      obtain ⟨T', hT'⟩ := merge_keeps hb hl hp
      have hlen := hp.length_eq
      simp only [List.length_cons] at hlen
      have hlt : s.nalloc.toNat < 513 := by have := hb.count; have := hb.alloc; omega
      have hk : (s.k + 1#9).toNat = s.k.toNat + 1 := by have := hb.count; rw [BitVec.toNat_add]; simp; omega
      have ha : a ∈ s.q := hp.mem_iff.mpr (by simp)
      have hb' : b ∈ s.q := hp.mem_iff.mpr (by simp)
      rw [mergeLoopBy_pass fuel e1 e2]
      refine ih _ T' syms hT' hl ?_
      show Ordered (s.merge a b q2) (257 + (s.k + 1#9).toNat)
      rw [hk, ← Nat.add_assoc]
      refine h.push hlt (Nat.le_refl _) (by have := hb.count; simp only [Config.alph]; omega) (.inr ?_) (fun e he => hp.mem_iff.mpr (by simp [he])) ?_
      · have := (hp.map fun e => e.seq.toNat).nodup_iff.mp h.nodup
        simp only [List.map_cons, List.nodup_cons] at this
        exact this.2.2
      · intro _
        obtain ⟨l, hl'⟩ := h.held a ha
        obtain ⟨r, hr'⟩ := h.held b hb'
        refine ⟨h.ptr a ha, h.ptr b hb', l, r, hl', hr', ?_⟩
        have := removeMin_order h e1 e2
        rw [keyLt_iff] at this
        simp only [State.weightOf, State.nodeAt, hl', hr'] at this
        rcases this with this | ⟨this, hs⟩
        · exact .inl this
        · exact .inr ⟨this, h.mono a ha b hb' hs⟩

/-- BUILD makes every internal node with the smaller key on the left (R122, R123). -/
theorem build_ordered {s t : State} (h : buildAct s = .go t) : ∃ next, Ordered t next := by
  obtain ⟨h1, T, h2⟩ := buildLeaves_spec s
  have hl : ((List.range 257).filter fun sym => s.freqAt sym ≠ 0#32).length ≤ 257 := Nat.le_trans (List.length_filter_le ..) (by simp)
  have hk : (buildLeaves s).k.toNat = 0 := by rw [h1]; rfl
  obtain ⟨next, g⟩ := mergeLoop_ordered (buildLeaves s).q.length (buildLeaves s) T _ h2 hl
    (by rw [hk]; exact buildLeaves_ordered s 257 (by omega))
  have ht : buildEnd (mergeLoopBy State.removeMin (buildLeaves s).q.length (buildLeaves s)) = t := Act.go.inj h
  generalize mergeLoopBy State.removeMin (buildLeaves s).q.length (buildLeaves s) = u at g ht
  subst ht
  exact ⟨next, ⟨g.seq, g.ptr, g.mono, g.nodup, g.node, g.held⟩⟩

/-! ### What depends on the counts alone (R126) -/

/-- Two runs of BUILD whose counts agree: the same queue, and the same node entries but for the unspecified fields (R24). -/
structure SameCounts (s s' : State) : Prop where
  freq : ∀ n, n ≤ 256 → s.freqAt n = s'.freqAt n
  nalloc : s.nalloc = s'.nalloc
  q : s.q = s'.q
  k : s.k = s'.k
  nodes : ∀ i, i < s.nalloc.toNat → ∃ a b, s.node[i]? = some a ∧ s'.node[i]? = some b ∧ a.leaf = b.leaf ∧ (a.leaf = true → a.sym = b.sym) ∧ a.weight = b.weight ∧ a.left = b.left ∧ a.right = b.right
  lt : ∀ e ∈ s.q, e.ptr.toNat < s.nalloc.toNat

theorem sameNodes_push {s s' : State} {p : Ptr} {n n' : Node} (_ : s.nalloc = s'.nalloc) (hp : p = s.nalloc)
    (hlt : s.nalloc.toNat < 513) (hl : n.leaf = n'.leaf) (hs : n.leaf = true → n.sym = n'.sym) (hw : n.weight = n'.weight)
   (h1 : n.left = n'.left) (h2 : n.right = n'.right)
   (hn : ∀ i, i < s.nalloc.toNat → ∃ a b, s.node[i]? = some a ∧ s'.node[i]? = some b ∧ a.leaf = b.leaf ∧
   (a.leaf = true → a.sym = b.sym) ∧ a.weight = b.weight ∧ a.left = b.left ∧ a.right = b.right) :
   ∀ i, i < s.nalloc.toNat + 1 → ∃ a b, (s.setNode p n).node[i]? = some a ∧ (s'.setNode p n').node[i]? = some b ∧
   a.leaf = b.leaf ∧ (a.leaf = true → a.sym = b.sym) ∧ a.weight = b.weight ∧ a.left = b.left ∧ a.right = b.right := by
  intro i hi
  simp only [setNode_getElem]
  subst hp
  by_cases h' : s.nalloc.toNat = i ∧ i < 513
  · simp only [if_pos h']; exact ⟨n, n', rfl, rfl, hl, hs, hw, h1, h2⟩
  · simp only [if_neg h']; exact hn i (by omega)

theorem SameCounts.weightOf {s s' : State} (h : SameCounts s s') {e : QEntry} (he : e ∈ s.q) : s.weightOf e = s'.weightOf e := by
  obtain ⟨a, b, h1, h2, h3, h4, h5, _⟩ := h.nodes _ (h.lt e he)
  simp [State.weightOf, State.nodeAt, h1, h2, h5]

theorem SameCounts.removeMin {s s' : State} (h : SameCounts s s') {q : List QEntry} (hq : ∀ e ∈ q,
    e ∈ s.q) : s.removeMin q = s'.removeMin q := by
  have : ∀ es m, (∀ e ∈ m :: es, e ∈ s.q) → s.least m es = s'.least m es := by
    intro es
    induction es with
    | nil => intro m _; rfl
    | cons e es ih =>
      intro m hm
      have hk : s.keyLt e m = s'.keyLt e m := by
        simp only [State.keyLt, h.weightOf (hm e (by simp)), h.weightOf (hm m (by simp))]
      rw [State.least, State.least, ← hk]
      apply ih
      intro x hx
      simp only [List.mem_cons] at hx
      rcases hx with rfl | hx
      · split <;> exact hm _ (by simp)
      · exact hm x (by simp [hx])
  cases q with
  | nil => rfl
  | cons x q => simp only [State.removeMin, this q x hq]

theorem SameCounts.buildLeaf {s s' : State} (h : SameCounts s s') {n : Nat} (hn : n ≤ 256)
    (hlt : s.nalloc.toNat < 513) : SameCounts (buildLeaf s n) (buildLeaf s' n) := by
  unfold Machine.buildLeaf
  rw [← h.freq n hn]
  by_cases hz : s.freqAt n = 0#32
  · simp only [hz, if_true]; exact h
  · simp only [hz, if_false]
    have hna : (s.nalloc + 1#10).toNat = s.nalloc.toNat + 1 := by rw [BitVec.toNat_add]; simp; omega
    constructor
    · exact h.freq
    · show s.nalloc + 1#10 = s'.nalloc + 1#10; rw [h.nalloc]
    · show s.q ++ _ = s'.q ++ _; rw [h.q, h.nalloc]
    · exact h.k
    · show ∀ i, i < (s.nalloc + 1#10).toNat → _
      rw [hna, ← h.nalloc]
      exact sameNodes_push h.nalloc rfl hlt rfl (fun _ => rfl) rfl rfl rfl h.nodes
    · intro e he
      show _ < (s.nalloc + 1#10).toNat
      simp only [List.mem_append, List.mem_singleton] at he
      rcases he with he | rfl
      · have := h.lt e he; omega
      · show s.nalloc.toNat < _; omega

theorem SameCounts.merge {s s' : State} (h : SameCounts s s') {a b : QEntry} {q : List QEntry} (hq : s.q.Perm (a :: b :: q))
    (hlt : s.nalloc.toNat < 513) : SameCounts (s.merge a b q) (s'.merge a b q) := by
  have hq' : ∀ e, e ∈ s.q ↔ e = a ∨ e = b ∨ e ∈ q := by intro e; rw [hq.mem_iff]; simp
  have hna : (s.nalloc + 1#10).toNat = s.nalloc.toNat + 1 := by rw [BitVec.toNat_add]; simp; omega
  constructor
  · exact h.freq
  · show s.nalloc + 1#10 = s'.nalloc + 1#10; rw [h.nalloc]
  · show q ++ _ = q ++ _; rw [h.k, h.nalloc]
  · show s.k + 1#9 = s'.k + 1#9; rw [h.k]
  · show ∀ i, i < (s.nalloc + 1#10).toNat → _
    rw [hna]
    have hw : s.weightOf a + s.weightOf b = s'.weightOf a + s'.weightOf b := by rw [h.weightOf ((hq' a).mpr (.inl rfl)), h.weightOf ((hq' b).mpr (.inr (.inl rfl)))]
    have := sameNodes_push (s := s) (s' := s') (p := s.nalloc) (n := internalNode s.free s.nalloc (BitVec.ofNat 41 (s.weightOf a + s.weightOf b)) a.ptr b.ptr)
      (n' := internalNode s'.free s.nalloc (BitVec.ofNat 41 (s'.weightOf a + s'.weightOf b)) a.ptr b.ptr) h.nalloc rfl hlt rfl (fun h => nomatch h) (by simp [internalNode, hw]) rfl rfl h.nodes
    intro i hi
    obtain ⟨x, y, hx, hy, h3⟩ := this i hi
    refine ⟨x, y, hx, ?_, h3⟩
    show (s'.setNode s'.nalloc (internalNode s'.free s'.nalloc (BitVec.ofNat 41 (s'.weightOf a + s'.weightOf b)) a.ptr b.ptr)).node[i]? = _
    rw [← h.nalloc]; exact hy
  · intro e he
    show _ < (s.nalloc + 1#10).toNat
    simp only [State.merge, List.mem_append, List.mem_singleton] at he
    rcases he with he | rfl
    · have := h.lt e ((hq' e).mpr (.inr (.inr he))); omega
    · show s.nalloc.toNat < _; omega

theorem sameCounts_leaves (s s' : State) (hf : ∀ n, n ≤ 256 → s.freqAt n = s'.freqAt n) (n : Nat) (hn : n ≤ 257) : 
   SameCounts ((List.range n).foldl buildLeaf { s with nalloc := 0#10, k := 0#9, q := [] })
   ((List.range n).foldl buildLeaf { s' with nalloc := 0#10, k := 0#9, q := [] }) := by
  induction n with
  | zero => exact ⟨hf, rfl, rfl, rfl, fun i hi => by simp at hi, fun e he => by simp at he⟩
  | succ n ih =>
    obtain ⟨h1, T, h2⟩ := buildLeaves_prefix s n (by omega)
    simp only [List.range_succ, List.foldl_append, List.foldl_cons, List.foldl_nil]
    refine (ih (by omega)).buildLeaf (by omega) ?_
    have ha := h2.alloc
    have hk : ((List.range n).foldl buildLeaf { s with nalloc := 0#10, k := 0#9, q := [] }).k = 0#9 := by rw [h1]
    rw [hk] at ha
    have := List.length_filter_le (fun sym => decide (s.freqAt sym ≠ 0#32)) (List.range n)
    simp only [List.length_range] at this
    simp at ha
    simp at this
    omega

theorem buildLeaves_same {s s' : State} (hf : ∀ n, n ≤ 256 →
    s.freqAt n = s'.freqAt n) : SameCounts (buildLeaves s) (buildLeaves s') := sameCounts_leaves s s' hf 257 (by omega)

theorem sameCounts_mergeLoop (fuel : Nat) : ∀ (s s' : State) (T : Ptr → Tree) (syms : List Nat), SameCounts s s' →
    QueueOfTrees s T syms → syms.length ≤ 257 →
    SameCounts (mergeLoopBy State.removeMin fuel s) (mergeLoopBy State.removeMin fuel s') := by
  induction fuel with
  | zero => intro s s' _ _ h _ _; exact h
  | succ fuel ih =>
    intro s s' T syms h hb hl
    rcases Nat.lt_or_ge s.q.length 2 with hq | hq
    · rw [mergeLoopBy_end removeMin_takes _ hq, mergeLoopBy_end removeMin_takes _ (by rw [← h.q]; exact hq)]; exact h
    · obtain ⟨a, b, q1, q2, e1, e2, hp1, hp⟩ := removeMin_takes.twice hq
      have hmem : ∀ e ∈ q1, e ∈ s.q := fun e he => hp1.mem_iff.mpr (by simp [he])
      have e1' := h.removeMin (q := s.q) (fun e he => he)
      have e2' := h.removeMin hmem
      obtain ⟨T', hT'⟩ := merge_keeps hb hl hp
      have hlt : s.nalloc.toNat < 513 := by
        have := hb.count; have := hb.alloc; omega
      rw [mergeLoopBy_pass fuel e1 e2, mergeLoopBy_pass fuel (by rw [← h.q, ← e1']; exact e1) (e2' ▸ e2)]
      exact ih _ _ _ _ (h.merge hp hlt) hT' hl

theorem Holds.of_sameNodes {nodes nodes' : Vector Node 513} {hi : Nat} (hn : ∀ i, i < hi → ∃ a b, nodes[i]? = some a ∧
    nodes'[i]? = some b ∧ a.leaf = b.leaf ∧ (a.leaf = true → a.sym = b.sym) ∧ a.weight = b.weight ∧ a.left = b.left ∧
    a.right = b.right)
   {t : Tree} : ∀ {p : Ptr}, Holds nodes 0 hi p t → Holds nodes' 0 hi p t := by
  induction t with
  | leaf sym w =>
    rintro p ⟨h1, h2, n, h3, h4, h5, h6, h7, h8, h9⟩
    obtain ⟨a, b, e1, e2, e3, e4, e5, e6, e7⟩ := hn _ h2
    rw [h3] at e1; obtain rfl : n = a := Option.some.inj e1
    exact ⟨h1, h2, b, e2, by rw [← e3, h4], by rw [← e4 h4, h5], by rw [← e5, h6], by rw [← e6, h7], by rw [← e7, h8], h9⟩
  | internal w l r ihl ihr =>
    rintro p ⟨h1, h2, n, h3, h4, h5, h6, h7⟩
    obtain ⟨a, b, e1, e2, e3, e4, e5, e6, e7⟩ := hn _ h2
    rw [h3] at e1; obtain rfl : n = a := Option.some.inj e1
    exact ⟨h1, h2, b, e2, by rw [← e3, h4], by rw [← e5, h5], by rw [← e6]; exact ihl h6, by rw [← e7]; exact ihr h7⟩

end Sys2Proof.Machine
end

