-- ==== Sys2Proof/Laws/Count.lean ====
section
/-! SUPPORT. COUNT (41_symbol_frequency_counter.md): the table of counts, and the loop on any input. -/

namespace Sys2Proof.Machine

/-- A write of FREQ changes the one entry it names (R22). -/
theorem freqAt_setFreq (s : State) (a b : Nat) (c : Count) (ha : a < 256) (hb : b ≤ 256) :
  (s.setFreq a c).freqAt b = if b = a then c else s.freqAt b := by
  unfold State.freqAt State.setFreq Config.eofSym
  by_cases h : b = 256
  · subst h; simp; omega
  · simp only [h, if_false]
    by_cases hab : b = a
    · subst hab; simp [ha]
    · simp only [hab, if_false, Vector.getElem?_setIfInBounds]
      rw [if_neg (by omega)]

/-- The loop on bytes whose counts fit (R110, R111). -/
theorem countLoop_spec (fuel : Nat) : ∀ (s : State) (bytes : List Byte) (tail : List Bool),
   s.inp.pos ≤ s.inp.bits.length → s.ahead = bitsOfBytes bytes ++ tail → tail.length < 8 → bytes.length < fuel →
   (∀ b : Byte, (s.freqAt b.toNat).toNat + bytes.count b < 2^32) →
   ∃ t, countLoop fuel s = .go t ∧ (∀ b : Byte, (t.freqAt b.toNat).toNat = (s.freqAt b.toNat).toNat + bytes.count b) ∧
     t = { s with freq := t.freq, inp := { s.inp with pos := t.inp.pos }, trace := s.trace ++ byteReads bytes, free := t.free } ∧
     s.inp.pos + 8 * bytes.length ≤ t.inp.pos ∧ t.inp.pos ≤ s.inp.bits.length := by
  induction fuel with
  | zero => intro s bytes tail _ _ _ h; omega
  | succ fuel ih =>
    intro s bytes tail hp ha ht hf hc
    cases bytes with
    | nil =>
      simp only [bitsOfBytes_nil, List.nil_append] at ha
      have : inReadBits 8 s = _ := inReadBits_eos (n := 8) (s := s) (by rw [← State.ahead, ha]; exact ht)
      rw [countLoop, this]
      refine ⟨_, rfl, by simp [State.freqAt], by simp [byteReads], ?_, ?_⟩
      · simpa using (eosPos_range hp).1
      · exact (eosPos_range hp).2
    | cons b bs =>
      simp only [bitsOfBytes_cons, List.append_assoc] at ha
      obtain ⟨hr, hd⟩ := inReadBits_field (n := 8) (by decide) b.isLt ha
      rw [countLoop, hr]
      simp only
      set s1 : State := { s with inp := { s.inp with pos := s.inp.pos + 8 }, trace := s.trace ++ [.inReadBits 8 (some b.toNat)] } with hs1
      have hfe : ∀ n, s1.freqAt n = s.freqAt n := fun n => rfl
      have hcb := hc b
      simp only [List.count_cons_self] at hcb
      have hne : ¬ s1.freqAt b.toNat = Config.countMax := by
        intro h; rw [hfe] at h; rw [h] at hcb; simp [Config.countMax] at hcb; omega
      rw [if_neg hne]
      have hadd : (s1.freqAt b.toNat + 1#32).toNat = (s.freqAt b.toNat).toNat + 1 := by
        rw [hfe, BitVec.toNat_add]; simp; omega
      set s2 := s1.setFreq b.toNat (s1.freqAt b.toNat + 1#32) with hs2
      have hf2 : ∀ c : Byte, (s2.freqAt c.toNat).toNat = (s.freqAt c.toNat).toNat + if c = b then 1 else 0 := by
        intro c
        rw [hs2, freqAt_setFreq _ _ _ _ b.isLt (by have := c.isLt; omega)]
        by_cases h : c = b
        · subst h; simp [hadd]
        · rw [if_neg (fun h' => h (BitVec.eq_of_toNat_eq h')), if_neg h, hfe]; rfl
      have hlen : s.inp.pos + 8 ≤ s.inp.bits.length := by
        have := congrArg List.length ha
        simp [State.ahead] at this; omega
      obtain ⟨t, h1, h2, h3, h4, h5⟩ := ih s2 bs tail hlen (by simpa [State.ahead, hs2, hs1] using hd) ht (by simp at hf; omega)
        (by intro c; rw [hf2 c]; have := hc c; rw [List.count_cons] at this
            by_cases h : c = b
            · subst h; simp at this ⊢; omega
            · have h' : ¬ b = c := fun e => h e.symm
              simp [h, h'] at this ⊢; omega)
      refine ⟨t, h1, ?_, ?_, ?_, ?_⟩
      · intro c; rw [h2 c, hf2 c, List.count_cons]
        by_cases h : c = b
        · subst h; simp; omega
        · have h' : ¬ b = c := fun e => h e.symm
          simp [h, h']
      · rw [h3]; simp [hs2, hs1, byteReads]
      · simp [hs2, hs1] at h4; simp; omega
      · simpa [hs2, hs1] using h5

/-- The loop on bytes one of whose counts does not fit (R112). -/
theorem countLoop_overflow (fuel : Nat) : ∀ (s : State) (bytes : List Byte) (tail : List Bool) (b : Byte),
   s.ahead = bitsOfBytes bytes ++ tail → bytes.length < fuel → 2^32 ≤ (s.freqAt b.toNat).toNat + bytes.count b →
   ∃ u t, countLoop fuel s = .raised t ∧ raise .countOverflow 0#2 u = .raised t ∧ u.phase = s.phase ∧ u.out = s.out := by
  induction fuel with
  | zero => intro s bytes tail _ _ h; omega
  | succ fuel ih =>
    intro s bytes tail b ha hf hc
    cases bytes with
    | nil => simp at hc; have := (s.freqAt b.toNat).isLt; omega
    | cons c bs =>
      simp only [bitsOfBytes_cons, List.append_assoc] at ha
      obtain ⟨hr, hd⟩ := inReadBits_field (n := 8) (by decide) c.isLt ha
      rw [countLoop, hr]
      simp only
      split
      · exact ⟨_, _, rfl, rfl, rfl, rfl⟩
      · rename_i hne
        set s1 : State := { s with inp := { s.inp with pos := s.inp.pos + 8 }, trace := s.trace ++ [.inReadBits 8 (some c.toNat)] } with hs1
        have hfe : ∀ n, s1.freqAt n = s.freqAt n := fun n => rfl
        have hlt : (s.freqAt c.toNat).toNat < 2^32 - 1 := by
          have := (s.freqAt c.toNat).isLt
          rcases Nat.lt_or_ge (s.freqAt c.toNat).toNat (2^32-1) with h | h
          · exact h
          · exact absurd (BitVec.eq_of_toNat_eq (by rw [hfe]; simp [Config.countMax]; omega)) hne
        obtain ⟨u, t, h1, h2, h3, h4⟩ := ih (s1.setFreq c.toNat (s1.freqAt c.toNat + 1#32)) bs tail b (by simpa [State.ahead] using hd) (by simp at hf; omega) (by
          rw [freqAt_setFreq _ _ _ _ c.isLt (by have := b.isLt; omega)]
          by_cases h : b = c
          · subst h
            rw [if_pos rfl, hfe, BitVec.toNat_add]; simp at hc ⊢; omega
          · rw [if_neg (fun h' => h (BitVec.eq_of_toNat_eq h')), hfe]
            rw [List.count_cons_of_ne (fun e => h e.symm)] at hc; exact hc)
        exact ⟨u, t, h1, h2, h3, h4⟩

theorem countLoop_ends (fuel : Nat) : ∀ s, Running .count s → EndsIn (fun t => Calm s t ∧
    t.expect = s.expect) (countLoop fuel s) := by
  induction fuel with
  | zero => intro s _; trivial
  | succ fuel ih =>
    intro s hs
    rw [countLoop]
    cases h : inReadBits 8 s with
    | mk r u =>
      obtain ⟨c1, c2, c3, c4⟩ := inReadBits_calm h
      cases r with
      | none => exact ⟨c1, c2⟩
      | some r =>
        simp only
        split
        · exact raise_endsIn (by rw [c1.phase, hs.phase]; decide) (c1.posle hs.pos)
        · have hset : Calm u (u.setFreq r (u.freqAt r + 1#32)) := ⟨rfl, rfl, rfl, rfl, rfl, rfl, rfl, rfl, rfl, rfl, rfl, rfl, rfl, rfl, Nat.le_refl _, id⟩
          exact (ih _ ((hs.calm c1).calm hset)).mono fun t ht => ⟨(c1.trans hset).trans ht.1, ht.2.trans c2⟩

theorem countLoop_noStop (fuel : Nat) : ∀ s, s.unread < fuel → NoStop (countLoop fuel s) := by
  induction fuel with
  | zero => intro s h; omega
  | succ fuel ih =>
    intro s hf
    rw [countLoop]
    cases h : inReadBits 8 s with
    | mk r u =>
      obtain ⟨c1, c2, c3, c4⟩ := inReadBits_calm h
      cases r with
      | none => trivial
      | some r =>
        simp only
        split
        · exact raise_noStop _ _ _
        · have := c4 rfl
          exact ih _ (by show u.unread < fuel; omega)

theorem countAct_ends {s : State} (hs : Running .count s) : EndsIn (fun t => Running .count t ∧ t.fv = true ∧ t.tv = s.tv ∧
    t.cv = s.cv ∧ t.node = s.node ∧ t.root = s.root ∧ t.walk = s.walk ∧ t.expect = s.expect) (countAct s) := by
  refine (countLoop_ends _ { s with freq := Vector.replicate 256 0#32 } ⟨hs.phase, hs.status, hs.err, hs.errinfo, hs.nalloc, hs.k, hs.pos⟩).andThen ?_
  rintro t ⟨c, e⟩
  exact ⟨⟨c.phase.trans hs.phase, c.status.trans hs.status, c.err.trans hs.err, c.errinfo.trans hs.errinfo, by show t.nalloc.toNat ≤ _; rw [c.nalloc]; exact hs.nalloc, by show t.k.toNat ≤ _; rw [c.k]; exact hs.k, c.posle hs.pos⟩, rfl, c.tv, c.cv, c.node, c.root, c.walk, e⟩

theorem countAct_noStop (s : State) : NoStop (countAct s) := by
  refine (countLoop_noStop _ _ (Nat.lt_succ_self _)).andThen ?_
  intro t _; trivial

end Sys2Proof.Machine
end

