-- ==== Sys2Proof/Laws/Gencodes.lean ====
section
/-! SUPPORT. GENCODES (43_canonical_code_generator.md): what recording the codes of a list of leaves does, and the stored form of an entry. -/

namespace Sys2Proof.Machine

/-- CODEV after one leaf (R130). -/
theorem recordCode_codevAt (s : State) (c : Sym × List Bool) (hc : c.1.toNat ≤ 256) (sym : Nat) :
    (recordCode s c).codevAt sym = (decide (sym = c.1.toNat) || s.codevAt sym) := by
  simp only [recordCode, State.setCode, State.codevAt, Vector.getElem?_setIfInBounds]
  by_cases h : c.1.toNat = sym
  · subst h; simp [show c.1.toNat < 257 by omega]
  · have h' : ¬ sym = c.1.toNat := fun e => h e.symm
    simp [h, h']

/-- CODE after one leaf (R130). -/
theorem recordCode_codeAt (s : State) (c : Sym × List Bool) (hc : c.1.toNat ≤ 256) (sym : Nat) :
    (recordCode s c).codeAt sym = if sym = c.1.toNat then c.2 else s.codeAt sym := by
  simp only [recordCode, State.setCode, State.codeAt, Vector.getElem?_setIfInBounds]
  by_cases h : c.1.toNat = sym
  · subst h; simp [show c.1.toNat < 257 by omega]
  · have h' : ¬ sym = c.1.toNat := fun e => h e.symm
    simp [h, h']

theorem foldl_recordCode_frame (cs : List (Sym × List Bool)) : ∀ s : State,
    cs.foldl recordCode s = { s with code := (cs.foldl recordCode s).code, codev := (cs.foldl recordCode s).codev } := by
  induction cs with
  | nil => intro s; rfl
  | cons c cs ih => intro s; rw [List.foldl_cons]; conv_lhs => rw [ih]
                    rfl

/-- CODEV after all leaves (R130). -/
theorem foldl_recordCode_codevAt (cs : List (Sym × List Bool)) (hc : ∀ c ∈ cs, c.1.toNat ≤ 256) : ∀ (s : State) (sym : Nat),
    (cs.foldl recordCode s).codevAt sym = (s.codevAt sym || decide (∃ c ∈ cs, c.1.toNat = sym)) := by
  induction cs with
  | nil => intro s sym; simp
  | cons c cs ih =>
    intro s sym
    rw [List.foldl_cons, ih (fun x hx => hc x (by simp [hx])), recordCode_codevAt _ _ (hc c (by simp))]
    rw [Bool.eq_iff_iff]
    simp; tauto

/-- A symbol no later leaf labels keeps its code (R135). -/
theorem foldl_recordCode_codeAt (cs : List (Sym × List Bool)) (hc : ∀ c ∈ cs, c.1.toNat ≤ 256) : ∀ (s : State) (sym : Nat),
    (∀ c ∈ cs, c.1.toNat ≠ sym) → (cs.foldl recordCode s).codeAt sym = s.codeAt sym := by
  induction cs with
  | nil => intro s sym; simp
  | cons c cs ih =>
    intro s sym h
    rw [List.foldl_cons, ih (fun x hx => hc x (by simp [hx])) _ _ (fun x hx => h x (by simp [hx])),
      recordCode_codeAt _ _ (hc c (by simp)), if_neg (fun e => h c (by simp) e.symm)]

theorem gencodesAct_ends (s : State) : EndsIn (fun t => ∃ c d,
    t = { s with code := c, codev := d, cv := true }) (gencodesAct s) := by
  unfold gencodesAct
  split
  · trivial
  · show ∃ c d, ({ List.foldl recordCode _ _ with cv := true } : State) = _
    rw [foldl_recordCode_frame]
    exact ⟨_, _, rfl⟩

/-- The two forms of an entry of CODE carry the same data (R23, log 22): the first `len` bits of the field `bits` are the code, the
others are zero. -/
theorem codeBitsAt_spells {s : State} {sym : Nat} (h : (s.codeAt sym).length ≤ Config.codeMax) :
    (s.codeLenAt sym).toNat = (s.codeAt sym).length ∧
    bitsOf Config.codeMax (s.codeBitsAt sym).toNat =
      s.codeAt sym ++ List.replicate (Config.codeMax - (s.codeAt sym).length) false := by
  constructor
  · rw [State.codeLenAt, BitVec.toNat_ofNat]
    exact Nat.mod_eq_of_lt (Nat.lt_of_le_of_lt h (by decide))
  · have hl : (s.codeAt sym ++ List.replicate (Config.codeMax - (s.codeAt sym).length) false).length = Config.codeMax := by
      rw [List.length_append, List.length_replicate, Nat.add_sub_cancel' h]
    have hv := valOf_lt (s.codeAt sym ++ List.replicate (Config.codeMax - (s.codeAt sym).length) false)
    have hb := bitsOf_valOf (s.codeAt sym ++ List.replicate (Config.codeMax - (s.codeAt sym).length) false)
    rw [hl] at hv hb
    rw [State.codeBitsAt, BitVec.toNat_ofNat, Nat.mod_eq_of_lt hv, hb]

end Sys2Proof.Machine
end

