-- ==== Sys2Proof/Laws/Header.lean ====
section
/-! SUPPORT. WRHDR and RDHDR (44_tree_serializer.md, 45_tree_deserializer.md): the writes of a tree; the elements read one by one; a whole
subtree, a truncated one, one that is too large; and RDHDR on any bits. -/

namespace Sys2Proof.Machine

/-- The writes of a tree to an open output (R140, R143). -/
theorem ser_open (t : Tree) : ∀ {s : State}, s.out.closed = false → ser t s = .go (s.wrote t.enc (headerWrites t)) := by
  induction t with
  | leaf sym w => intro s h; exact writeLeaf_open sym h
  | internal w l r ihl ihr =>
    intro s h
    rw [ser, writeInternal_open h, Act.go_andThen, ihl (by exact h), Act.go_andThen, ihr (by exact h), State.wrote_wrote, State.wrote_wrote]
    simp [Tree.enc, headerWrites]

theorem wrhdrAct_ends (s : State) : EndsIn (fun t => Calm s t ∧ t.expect = s.expect ∧ t.inp = s.inp) (wrhdrAct s) := by
  unfold wrhdrAct
  split
  · trivial
  · exact ((Writes.write _ _ s).andThen (ser_writes _)).endsIn

/-! ### Elements -/

/-- What RDHDR does after an element. -/
def continueHeader (fuel : Nat) (u : State) : Act := if u.expect = .unit then .go u else rdhdrLoop fuel u

theorem rdhdrLoop_succ (fuel : Nat) (s : State) : rdhdrLoop (fuel + 1) s = (headerStep s).andThen (continueHeader fuel) := rfl

@[simp] theorem node_ne_marker {s : State} (h : s.expect = .node) : ¬ s.expect = .marker := by simp [h]

theorem headerStep_marker {s : State} {rest : List Bool} (he : s.expect = .marker)
    (ha : s.ahead = bitsOf 32 s.magic.toNat ++ rest) :
   headerStep s = .go { s with
      expect := .node, inp := { s.inp with pos := s.inp.pos + 32 }
      trace := s.trace ++ [.inReadBits 32 (some s.magic.toNat)] } ∧ s.inp.bits.drop (s.inp.pos + 32) = rest := by
  obtain ⟨h1, h2⟩ := inReadBits_field (n := 32) (v := s.magic.toNat) (s := s) (rest := rest) (by decide) s.magic.isLt ha
  refine ⟨?_, h2⟩
  simp only [headerStep, he, if_true, fetchMarker, h1, readMarker]
  simp

theorem headerStep_internal {s : State} {rest : List Bool} (he : s.expect = .node) (ha : s.ahead = false :: rest)
    (hn : s.nalloc.toNat < 513) :
   headerStep s = .go { s with
      walk := { ptr := s.nalloc, left := none } :: s.walk, nalloc := s.nalloc + 1#10, inp := { s.inp with pos := s.inp.pos + 1 }
      trace := s.trace ++ [.inReadBits 1 (some 0)] } ∧ s.inp.bits.drop (s.inp.pos + 1) = rest := by
  obtain ⟨h1, h2⟩ := inReadBits_field (n := 1) (v := 0) (s := s) (rest := rest) (by decide) (by decide) ha
  refine ⟨?_, h2⟩
  simp only [headerStep, node_ne_marker he, if_false, fetchNode, Config.nodeCap, show ¬ s.nalloc.toNat = 513 by omega, h1, if_true, readInternal]

/-- A tag 1 and any symbol field are read as a leaf; its range is not judged yet (R150, R154). -/
theorem fetchNode_leaf {s : State} {v : Nat} {rest : List Bool} (hn : s.nalloc.toNat < 513) (hv : v < 512)
    (ha : s.ahead = true :: (bitsOf 9 v ++ rest)) :
    fetchNode s = .got (.nodeLeaf (BitVec.ofNat 9 v)) { s with
      inp := { s.inp with pos := s.inp.pos + 10 }
      trace := s.trace ++ [.inReadBits 1 (some 1), .inReadBits 9 (some v)] } ∧ s.inp.bits.drop (s.inp.pos + 10) = rest := by
  obtain ⟨h1, h2⟩ := inReadBits_field (n := 1) (v := 1) (s := s) (rest := bitsOf 9 v ++ rest) (by decide) (by decide) ha
  obtain ⟨h3, h4⟩ := inReadBits_field (n := 9) (v := v) (rest := rest)
    (s := { s with inp := { s.inp with pos := s.inp.pos + 1 }, trace := s.trace ++ [.inReadBits 1 (some 1)] }) (by decide) hv h2
  refine ⟨?_, h4⟩
  have hc : ¬ s.nalloc.toNat = Config.nodeCap := by rw [Config.nodeCap]; omega
  rw [fetchNode, if_neg hc, h1]
  simp only [if_neg (show ¬ (1 : Nat) = 0 by decide)]
  rw [h3]
  simp

theorem headerStep_leaf {s : State} {sym : Sym} {rest : List Bool} (he : s.expect = .node) (ha : s.ahead = true ::
    (bitsOf 9 sym.toNat ++ rest)) (hn : s.nalloc.toNat < 513)
   (hs : sym.toNat ≤ 256) :
   headerStep s = .go (attach s.walk s.nalloc (State.setNode { s with
      nalloc := s.nalloc + 1#10, inp := { s.inp with pos := s.inp.pos + 10 }
      trace := s.trace ++ [.inReadBits 1 (some 1), .inReadBits 9 (some sym.toNat)] } s.nalloc (leafNode sym 0#41))) ∧
      s.inp.bits.drop (s.inp.pos + 10) = rest := by
  obtain ⟨hf, h4⟩ := fetchNode_leaf (v := sym.toNat) hn sym.isLt ha
  refine ⟨?_, h4⟩
  have hc : ¬ s.nalloc.toNat = Config.nodeCap := by rw [Config.nodeCap]; omega
  simp only [BitVec.ofNat_toNat, BitVec.setWidth_eq] at hf
  rw [headerStep, if_neg (node_ne_marker he), hf]
  simp only
  rw [readLeaf, if_neg (by exact hc)]
  simp only
  rw [if_neg (by rw [Config.eofSym]; omega)]

/-! ### A subtree -/

/-- Reading a whole subtree: it stands in the entries from NALLOC on, and is handed to the walk stack (R150). -/
theorem readSubtree (t : Tree) : ∀ (s : State) (rest : List Bool), s.expect = .node → s.ahead = t.enc ++ rest → 
    s.nalloc.toNat + t.size ≤ 513 → (∀ sym ∈ t.symbols, sym.toNat ≤ 256) →
    ∃ s' : State, (∀ fuel, rdhdrLoop (fuel + t.size) s = continueHeader fuel (attach s.walk s.nalloc s')) ∧
      s' = { s with node := s'.node, walk := s'.walk, nalloc := s'.nalloc, inp := { s.inp with pos := s.inp.pos + t.enc.length }, trace := s.trace ++ headerReads t } ∧
      s'.nalloc.toNat = s.nalloc.toNat + t.size ∧ s'.inp.bits.drop s'.inp.pos = rest ∧
      (∀ i, i < s.nalloc.toNat → s'.node[i]? = s.node[i]?) ∧
      Holds s'.node s.nalloc.toNat (s.nalloc.toNat + t.size) s.nalloc t.shape := by
  induction t with
  | leaf sym w =>
    intro s rest he ha hn hs
    simp only [Tree.enc, List.cons_append] at ha
    simp only [Tree.size] at hn ⊢
    obtain ⟨h1, h2⟩ := headerStep_leaf he ha (by omega) (hs sym (by simp [Tree.symbols]))
    refine ⟨State.setNode { s with
      nalloc := s.nalloc + 1#10, inp := { s.inp with pos := s.inp.pos + 10 }
      trace := s.trace ++ [.inReadBits 1 (some 1), .inReadBits 9 (some sym.toNat)] } s.nalloc (leafNode sym 0#41), ?_, ?_, ?_, ?_, ?_, ?_⟩
    · intro fuel; rw [rdhdrLoop_succ, h1]; rfl
    · simp [State.setNode, Tree.enc, headerReads]
    · simp [State.setNode, BitVec.toNat_add]; omega
    · simpa [State.setNode] using h2
    · intro i hi; rw [setNode_getElem, if_neg (by omega)]
    · refine ⟨by omega, by omega, _, by rw [setNode_getElem, if_pos ⟨rfl, by omega⟩], rfl, rfl, rfl, rfl, rfl, hs sym (by simp [Tree.symbols])⟩
  | internal w l r ihl ihr =>
    intro s rest he ha hn hs
    simp only [Tree.enc, List.cons_append, List.append_assoc] at ha
    simp only [Tree.size] at hn ⊢
    obtain ⟨h1, h2⟩ := headerStep_internal he ha (by omega)
    set s1 : State := { s with
      walk := { ptr := s.nalloc, left := none } :: s.walk, nalloc := s.nalloc + 1#10, inp := { s.inp with pos := s.inp.pos + 1 }
      trace := s.trace ++ [.inReadBits 1 (some 0)] } with hs1
    have hn1 : s1.nalloc.toNat = s.nalloc.toNat + 1 := by simp [hs1, BitVec.toNat_add]; omega
    obtain ⟨s2, l1, l2, l3, l4, l5, l6⟩ := ihl s1 (r.enc ++ rest) he h2 (by omega) (fun x hx => hs x (by simp [Tree.symbols, hx]))
    set s3 : State := { s2 with walk := { ptr := s.nalloc, left := some s1.nalloc } :: s.walk } with hs3
    have he3 : s3.expect = .node := by simp only [hs3]; rw [l2]; exact he
    have hn3 : s3.nalloc.toNat = s2.nalloc.toNat := rfl
    obtain ⟨s4, r1, r2, r3, r4, r5, r6⟩ := ihr s3 rest he3 l4 (by omega) (fun x hx => hs x (by simp [Tree.symbols, hx]))
    refine ⟨s4.setNode s.nalloc (internalNode s4.free s.nalloc 0#41 s1.nalloc s3.nalloc), ?_, ?_, ?_, ?_, ?_, ?_⟩
    · intro fuel
      rw [show fuel + (1 + l.size + r.size) = ((fuel + r.size) + l.size) + 1 by omega, rdhdrLoop_succ, h1, Act.go_andThen, continueHeader, if_neg (by rw [he]; decide), l1]
      show continueHeader _ s3 = _
      rw [continueHeader, if_neg (by rw [he3]; decide), r1]
      rfl
    · obtain ⟨nd4, wk4, na4, h4⟩ : ∃ nd wk na, s4 = { s3 with
          node := nd, walk := wk, nalloc := na, trace := s3.trace ++ headerReads r, inp := { s3.inp with pos := s3.inp.pos + r.enc.length } } := ⟨_, _, _, r2⟩
      obtain ⟨nd2, wk2, na2, h2⟩ : ∃ nd wk na, s2 = { s1 with
          node := nd, walk := wk, nalloc := na, trace := s1.trace ++ headerReads l, inp := { s1.inp with pos := s1.inp.pos + l.enc.length } } := ⟨_, _, _, l2⟩
      rw [h4, hs3, h2, hs1]
      simp [State.setNode, Tree.enc, headerReads]; omega
    · show s4.nalloc.toNat = _
      omega
    · exact r4
    · intro i hi
      rw [setNode_getElem, if_neg (by omega), r5 i (by omega)]
      show s2.node[i]? = _
      rw [l5 i (by omega)]
    · refine ⟨by omega, by omega, _, by rw [setNode_getElem, if_pos ⟨rfl, by omega⟩], rfl, rfl, ?_, ?_⟩
      · refine l6.mono (by omega) (by omega) ?_
        intro i hi1 hi2
        rw [setNode_getElem, if_neg (by omega), r5 i (by omega)]
      · refine r6.mono (by omega) (by omega) ?_
        intro i hi1 hi2
        rw [setNode_getElem, if_neg (by omega)]

/-- The stream ends where a tag would stand (R153). -/
theorem fetchNode_eos_tag {s : State} (ha : s.ahead = []) (hn : s.nalloc.toNat < 513) :
   ∃ u, fetchNode s = .stopped (raise .truncatedStreamError 1#2 u) ∧ u.phase = s.phase ∧ u.root = s.root ∧ u.out = s.out ∧
      u.trace = s.trace ++ [.inReadBits 1 none] := by
  have hc : ¬ s.nalloc.toNat = Config.nodeCap := by rw [Config.nodeCap]; omega
  have hl : (s.inp.bits.drop s.inp.pos).length < 1 := by rw [← State.ahead, ha]; decide
  rw [fetchNode, if_neg hc, inReadBits_eos hl]
  exact ⟨_, rfl, rfl, rfl, rfl, by simp⟩

/-- The stream ends inside a leaf's symbol (R153). -/
theorem fetchNode_eos_sym {s : State} {p : List Bool} (ha : s.ahead = true :: p) (hp : p.length < 9) (hn : s.nalloc.toNat < 513) :
   ∃ u, fetchNode s = .stopped (raise .truncatedStreamError 2#2 u) ∧ u.phase = s.phase ∧ u.root = s.root ∧ u.out = s.out ∧
      u.trace = s.trace ++ [.inReadBits 1 (some 1), .inReadBits 9 none] := by
  have hc : ¬ s.nalloc.toNat = Config.nodeCap := by rw [Config.nodeCap]; omega
  obtain ⟨h1, h2⟩ := inReadBits_field (n := 1) (v := 1) (s := s) (rest := p) (by decide) (by decide) ha
  rw [fetchNode, if_neg hc, h1]
  simp only [if_neg (show ¬ (1 : Nat) = 0 by decide)]
  rw [inReadBits_eos (by show (s.inp.bits.drop (s.inp.pos + 1)).length < 9; rw [h2]; exact hp)]
  exact ⟨_, rfl, rfl, rfl, rfl, by simp⟩

/-- Reading a subtree whose bits end early (R153). -/
theorem readSubtree_truncated (t : Tree) : ∀ (s : State) (p : List Bool), s.expect = .node → s.ahead = p → p <+: t.enc →
    p ≠ t.enc →
    s.nalloc.toNat + t.size ≤ 513 → (∀ sym ∈ t.symbols, sym.toNat ≤ 256) → ∀ fuel,
    ∃ (u : State) (c : BitVec 2), rdhdrLoop (fuel + t.size) s = raise .truncatedStreamError c u ∧ (c = 1#2 ∨ c = 2#2) ∧
    u.phase = s.phase ∧
      u.root = s.root ∧ u.out = s.out := by
  induction t with
  | leaf sym w =>
    intro s p he ha hp hne hn hs fuel
    simp only [Tree.size] at hn ⊢
    rw [rdhdrLoop_succ, headerStep, if_neg (node_ne_marker he)]
    cases p with
    | nil =>
      obtain ⟨u, h1, h2⟩ := fetchNode_eos_tag ha (by omega)
      rw [h1]; exact ⟨u, 1#2, rfl, .inl rfl, h2.1, h2.2.1, h2.2.2.1⟩
    | cons b p =>
      simp only [Tree.enc, List.cons_prefix_cons] at hp
      obtain ⟨rfl, hp⟩ := hp
      have hl : p.length < 9 := by
        have h1 := hp.length_le
        simp only [bitsOf_length] at h1
        rcases Nat.lt_or_ge p.length 9 with h | h
        · exact h
        · exact absurd (by simp only [Tree.enc]; rw [hp.eq_of_length (by simp; omega)]) hne
      obtain ⟨u, h1, h2⟩ := fetchNode_eos_sym ha hl (by omega)
      rw [h1]; exact ⟨u, 2#2, rfl, .inr rfl, h2.1, h2.2.1, h2.2.2.1⟩
  | internal w l r ihl ihr =>
    intro s p he ha hp hne hn hs fuel
    simp only [Tree.size] at hn ⊢
    rw [show fuel + (1 + l.size + r.size) = ((fuel + r.size) + l.size) + 1 by omega]
    cases p with
    | nil =>
      rw [rdhdrLoop_succ, headerStep, if_neg (node_ne_marker he)]
      obtain ⟨u, h1, h2⟩ := fetchNode_eos_tag ha (by omega)
      rw [h1]; exact ⟨u, 1#2, rfl, .inl rfl, h2.1, h2.2.1, h2.2.2.1⟩
    | cons b p =>
      simp only [Tree.enc, List.cons_prefix_cons] at hp
      obtain ⟨rfl, hp⟩ := hp
      obtain ⟨h1, h2⟩ := headerStep_internal he ha (by omega)
      rw [rdhdrLoop_succ, h1, Act.go_andThen, continueHeader, if_neg (by rw [he]; decide)]
      set s1 : State := { s with
        walk := { ptr := s.nalloc, left := none } :: s.walk, nalloc := s.nalloc + 1#10, inp := { s.inp with pos := s.inp.pos + 1 }
        trace := s.trace ++ [.inReadBits 1 (some 0)] } with hs1
      have hn1 : s1.nalloc.toNat = s.nalloc.toNat + 1 := by simp [hs1, BitVec.toNat_add]; omega
      rcases prefix_append_cases hp with ⟨hp1, hp2⟩ | ⟨q, rfl, hq⟩
      · exact ihl s1 p he h2 hp1 hp2 (by omega) (fun x hx => hs x (by simp [Tree.symbols, hx])) _
      · obtain ⟨s2, l1, l2, l3, l4, l5, l6⟩ := readSubtree l s1 q he h2 (by omega) (fun x hx => hs x (by simp [Tree.symbols, hx]))
        set s3 : State := { s2 with walk := { ptr := s.nalloc, left := some s1.nalloc } :: s.walk } with hs3
        have he3 : s3.expect = .node := by simp only [hs3]; rw [l2]; exact he
        have hn3 : s3.nalloc.toNat = s2.nalloc.toNat := rfl
        rw [l1]
        show ∃ u c, continueHeader _ s3 = _ ∧ _
        rw [continueHeader, if_neg (by rw [he3]; decide)]
        obtain ⟨u, c, h3, h4, h5, h6, h7⟩ := ihr s3 q he3 l4 hq (by rintro rfl; exact hne rfl) (by omega) (fun x hx => hs x (by simp [Tree.symbols, hx])) fuel
        refine ⟨u, c, h3, h4, ?_, ?_, ?_⟩
        · rw [h5]; show s2.phase = _; rw [l2]
        · rw [h6]; show s2.root = _; rw [l2]
        · rw [h7]; show s2.out = _; rw [l2]

/-- Reading a subtree that needs an entry beyond the capacity (R154). -/
theorem readSubtree_oversized (t : Tree) : ∀ (s : State) (rest : List Bool), s.expect = .node → s.ahead = t.enc ++ rest →
    s.nalloc.toNat ≤ 513 → 513 < s.nalloc.toNat + t.size → (∀ sym ∈ t.symbols, sym.toNat ≤ 256) → ∀ fuel,
    ∃ u : State, rdhdrLoop (fuel + (514 - s.nalloc.toNat)) s = raise .corruptTreeError 2#2 u ∧ u.phase = s.phase ∧
    u.out = s.out := by
  have full : ∀ (s : State) (fuel : Nat), s.expect = .node → s.nalloc.toNat = 513 → ∃ u : State, rdhdrLoop (fuel + (514 - s.nalloc.toNat)) s = raise .corruptTreeError 2#2 u ∧ u.phase = s.phase ∧ u.out = s.out := by
    intro s fuel he h
    rw [h, rdhdrLoop_succ, headerStep, if_neg (node_ne_marker he), fetchNode, if_pos (by exact h)]
    exact ⟨s, rfl, rfl, rfl⟩
  induction t with
  | leaf sym w =>
    intro s rest he ha hn hsz hs fuel
    simp only [Tree.size] at hsz
    exact full s fuel he (by omega)
  | internal w l r ihl ihr =>
    intro s rest he ha hn hsz hs fuel
    simp only [Tree.size] at hsz
    rcases Nat.lt_or_ge s.nalloc.toNat 513 with h | h
    · simp only [Tree.enc, List.cons_append, List.append_assoc] at ha
      obtain ⟨h1, h2⟩ := headerStep_internal he ha (by omega)
      set s1 : State := { s with
        walk := { ptr := s.nalloc, left := none } :: s.walk, nalloc := s.nalloc + 1#10, inp := { s.inp with pos := s.inp.pos + 1 }
        trace := s.trace ++ [.inReadBits 1 (some 0)] } with hs1
      have hn1 : s1.nalloc.toNat = s.nalloc.toNat + 1 := by simp [hs1, BitVec.toNat_add]; omega
      rw [show fuel + (514 - s.nalloc.toNat) = (fuel + (513 - s.nalloc.toNat)) + 1 by omega, rdhdrLoop_succ, h1, Act.go_andThen, continueHeader, if_neg (by rw [he]; decide)]
      rcases Nat.lt_or_ge 513 (s1.nalloc.toNat + l.size) with hl | hl
      · obtain ⟨u, a, b, c⟩ := ihl s1 _ he h2 (by omega) hl (fun x hx => hs x (by simp [Tree.symbols, hx])) fuel
        refine ⟨u, ?_, b, c⟩
        rw [show 513 - s.nalloc.toNat = 514 - s1.nalloc.toNat by omega]; exact a
      · obtain ⟨s2, l1, l2, l3, l4, l5, l6⟩ := readSubtree l s1 _ he h2 (by omega) (fun x hx => hs x (by simp [Tree.symbols, hx]))
        set s3 : State := { s2 with walk := { ptr := s.nalloc, left := some s1.nalloc } :: s.walk } with hs3
        have he3 : s3.expect = .node := by simp only [hs3]; rw [l2]; exact he
        have hn3 : s3.nalloc.toNat = s2.nalloc.toNat := rfl
        show ∃ u, rdhdrLoop _ s1 = _ ∧ _
        rw [show fuel + (513 - s.nalloc.toNat) = (fuel + (514 - s3.nalloc.toNat)) + l.size by omega, l1]
        show ∃ u, continueHeader _ s3 = _ ∧ _
        rw [continueHeader, if_neg (by rw [he3]; decide)]
        obtain ⟨u, a, b, c⟩ := ihr s3 rest he3 l4 (by omega) (by omega) (fun x hx => hs x (by simp [Tree.symbols, hx])) fuel
        refine ⟨u, a, ?_, ?_⟩
        · rw [b]; show s2.phase = _; rw [l2]
        · rw [c]; show s2.out = _; rw [l2]
    · exact full s fuel he (by omega)

/-! ### Any bits -/

/-- Of the walk stack: each open node lies below what follows it, and its left subtree, where complete, is held between (R36, R150). -/
def Open (nodes : Vector Node 513) : Nat → List Frame → Prop
  | _, [] => True
  | hi, f :: st => f.ptr.toNat < hi ∧ f.ptr.toNat < 513 ∧
      (∀ l, f.left = some l → ∃ t, Holds nodes (f.ptr.toNat + 1) hi l t ∧ Tree.depth t + (f.ptr.toNat + 1) ≤ hi) ∧
      Open nodes f.ptr.toNat st

theorem Open.mono {nodes nodes' : Vector Node 513} {st : List Frame} : ∀ {hi hi' : Nat}, Open nodes hi st → (∀ i, i < hi →
    nodes'[i]? = nodes[i]?) → hi ≤ hi' → Open nodes' hi' st := by
  induction st with
  | nil => intro hi hi' _ _ _; trivial
  | cons f st ih =>
    rintro hi hi' ⟨h1, h2, h3, h4⟩ hn hle
    refine ⟨by omega, h2, ?_, ih h4 (fun i hi => hn i (by omega)) (Nat.le_refl _)⟩
    intro l hl
    obtain ⟨t, g1, g2⟩ := h3 l hl
    exact ⟨t, g1.mono (Nat.le_refl _) hle (fun i _ h => hn i h), by omega⟩

/-- What attaching a complete subtree leaves unchanged (R150): every field but the six it may write,
    and every entry of NODE that is no
open node's. -/
theorem attach_changes (st : List Frame) : ∀ (p : Ptr) (s : State),
    (attach st p s) =
      { s with node := (attach st p s).node, root := (attach st p s).root, walk := (attach st p s).walk, tv := (attach st p s).tv
               expect := (attach st p s).expect, free := (attach st p s).free } ∧
    ∀ r, (∀ f ∈ st, f.ptr ≠ r) → (attach st p s).nodeAt r = s.nodeAt r := by
  induction st with
  | nil => intro p s; exact ⟨rfl, fun _ _ => rfl⟩
  | cons f st ih =>
    intro p s
    obtain ⟨q, l⟩ := f
    cases l with
    | none => exact ⟨rfl, fun _ _ => rfl⟩
    | some l =>
      rw [attach]
      obtain ⟨h1, h2⟩ := ih q (s.setNode q (internalNode s.free q 0#41 l p))
      refine ⟨h1, fun r hr => ?_⟩
      rw [h2 r fun f hf => hr f (List.mem_cons_of_mem _ hf)]
      have hqr : q.toNat ≠ r.toNat := fun h => hr ⟨q, some l⟩ List.mem_cons_self (BitVec.eq_of_toNat_eq h)
      simp [State.nodeAt, State.setNode, hqr]

/-- Attaching a subtree that completes open nodes (R150): from the inside out each takes the subtree so far as its right child, and
what they make together is attached to the rest of the stack. -/
theorem attach_full (st : List Frame) (full : List (Ptr × Ptr)) : ∀ (p : Ptr) (s : State), (full.map Prod.fst).Nodup →
    (∀ f ∈ full, f.1.toNat < 513) →
    ∃ nd, attach (full.map (fun f => { ptr := f.1, left := some f.2 }) ++ st) p s =
        attach st ((full.map Prod.fst).getLastD p) { s with node := nd } ∧
      (∀ r : Ptr, (∀ f ∈ full, f.1 ≠ r) → nd[r.toNat]? = s.node[r.toNat]?) ∧
      ∀ (i : Nat) (q l : Ptr), full[i]? = some (q, l) →
        ∃ r, (p :: full.map Prod.fst)[i]? = some r ∧ nd[q.toNat]? = some (internalNode s.free q 0#41 l r) := by
  induction full with
  | nil => intro p s _ _; exact ⟨s.node, rfl, fun _ _ => rfl, fun i q l h => by simp at h⟩
  | cons f full ih =>
    obtain ⟨q, l⟩ := f
    intro p s hd hb
    simp only [List.map_cons, List.nodup_cons] at hd
    obtain ⟨nd, h1, h2, h3⟩ := ih q (s.setNode q (internalNode s.free q 0#41 l p)) hd.2 (fun f hf => hb f (List.mem_cons_of_mem _ hf))
    have hne : ∀ f ∈ full, f.1 ≠ q := fun f hf e => hd.1 (e ▸ List.mem_map_of_mem hf)
    refine ⟨nd, ?_, ?_, ?_⟩
    · simp only [List.map_cons, List.cons_append, attach, h1, List.getLastD_cons]
      rfl
    · intro r hr
      rw [h2 r (fun f hf => hr f (List.mem_cons_of_mem _ hf)), setNode_getElem, if_neg]
      rintro ⟨e, _⟩
      exact hr (q, l) List.mem_cons_self (BitVec.eq_of_toNat_eq e)
    · intro i q' l' hi
      cases i with
      | zero =>
        simp only [List.getElem?_cons_zero, Option.some.injEq, Prod.mk.injEq] at hi
        obtain ⟨rfl, rfl⟩ := hi
        exact ⟨p, rfl, by rw [h2 q hne, setNode_getElem, if_pos ⟨rfl, hb (q, l) List.mem_cons_self⟩]⟩
      | succ i => exact h3 i q' l' (by simpa using hi)

/-- How many open nodes still wait for their left subtree, and so for a right one after it (R150). -/
def waiting (st : List Frame) : Nat := st.countP fun f => f.left.isNone

/-- Attaching a subtree while an open node waits (R150): one fewer waits, and the header goes on. -/
theorem attach_waiting (st : List Frame) : ∀ (p : Ptr) (s : State), 0 < waiting st →
    (attach st p s).expect = s.expect ∧ (attach st p s).root = s.root ∧ waiting (attach st p s).walk + 1 = waiting st := by
  induction st with
  | nil => intro p s h; simp [waiting] at h
  | cons f st ih =>
    intro p s h
    obtain ⟨q, l⟩ := f
    cases l with
    | none => exact ⟨rfl, rfl, by simp [attach, waiting]⟩
    | some l =>
      have hw : waiting ({ ptr := q, left := some l } :: st) = waiting st := by simp [waiting]
      rw [hw] at h ⊢
      exact ih q _ h

/-- Reading nodes that announce more subtrees than they complete (R78, R150): each takes an entry and is recorded, and the header
goes on. -/
theorem readNodes (ns : List (Option Sym)) : ∀ (s : State) (rest : List Bool), s.expect = .node →
    s.ahead = ns.flatMap nodeBits ++ rest → s.nalloc.toNat + ns.length ≤ 513 → (∀ sym, some sym ∈ ns → sym.toNat ≤ 256) →
    0 < subtreesLeft (1 + waiting s.walk) ns →
    ∃ u : State, (∀ fuel, rdhdrLoop (fuel + ns.length) s = rdhdrLoop fuel u) ∧ u.expect = .node ∧ u.ahead = rest ∧
      u.nalloc.toNat = s.nalloc.toNat + ns.length ∧ u.inp = { s.inp with pos := s.inp.pos + (ns.flatMap nodeBits).length } ∧
      u.trace = s.trace ++ ns.flatMap nodeReads ∧ u.phase = s.phase ∧ u.root = s.root ∧ u.out = s.out := by
  induction ns with
  | nil => intro s rest he ha _ _ _; exact ⟨s, fun _ => rfl, he, by simpa using ha, rfl, by simp, by simp, rfl, rfl, rfl⟩
  | cons x ns ih =>
    intro s rest he ha hn hs hp
    simp only [List.flatMap_cons, List.append_assoc, List.length_cons] at ha hn
    have hna : (s.nalloc + 1#10).toNat = s.nalloc.toNat + 1 := by rw [BitVec.toNat_add]; simp; omega
    have next : ∃ v : State, headerStep s = .go v ∧ v.expect = .node ∧ v.ahead = ns.flatMap nodeBits ++ rest ∧
        v.nalloc = s.nalloc + 1#10 ∧ v.inp = { s.inp with pos := s.inp.pos + (nodeBits x).length } ∧
        v.trace = s.trace ++ nodeReads x ∧ v.phase = s.phase ∧ v.root = s.root ∧ v.out = s.out ∧
        0 < subtreesLeft (1 + waiting v.walk) ns := by
      cases x with
      | none =>
        obtain ⟨h1, h2⟩ := headerStep_internal he ha (by omega)
        rw [Nat.add_comm, subtreesLeft] at hp
        refine ⟨_, h1, he, h2, rfl, rfl, rfl, rfl, rfl, rfl, ?_⟩
        have : waiting (({ ptr := s.nalloc, left := none } : Frame) :: s.walk) = waiting s.walk + 1 := by simp [waiting]
        show 0 < subtreesLeft (1 + waiting (({ ptr := s.nalloc, left := none } : Frame) :: s.walk)) ns
        rw [this, show 1 + (waiting s.walk + 1) = waiting s.walk + 2 by omega]
        exact hp
      | some sym =>
        obtain ⟨h1, h2⟩ := headerStep_leaf (sym := sym) he (by simpa [nodeBits] using ha) (by omega) (hs sym (by simp))
        rw [Nat.add_comm, subtreesLeft] at hp
        have hw : 0 < waiting s.walk := by
          rcases Nat.eq_zero_or_pos (waiting s.walk) with h | h
          · rw [h] at hp; simp [subtreesLeft] at hp
          · exact h
        obtain ⟨w1, w2, w3⟩ := attach_waiting s.walk s.nalloc (State.setNode { s with
          nalloc := s.nalloc + 1#10, inp := { s.inp with pos := s.inp.pos + 10 }
          trace := s.trace ++ [.inReadBits 1 (some 1), .inReadBits 9 (some sym.toNat)] } s.nalloc (leafNode sym 0#41)) hw
        obtain ⟨c, _⟩ := attach_changes s.walk s.nalloc (State.setNode { s with
          nalloc := s.nalloc + 1#10, inp := { s.inp with pos := s.inp.pos + 10 }
          trace := s.trace ++ [.inReadBits 1 (some 1), .inReadBits 9 (some sym.toNat)] } s.nalloc (leafNode sym 0#41))
        refine ⟨_, h1, w1.trans he, ?_, by rw [c]; rfl, by rw [c]; simp [nodeBits, State.setNode], by rw [c]; rfl, by rw [c]; rfl, w2, by rw [c]; rfl, ?_⟩
        · rw [c]; exact h2
        · rw [show 1 + waiting _ = waiting s.walk by rw [← w3, Nat.add_comm]]; exact hp
    obtain ⟨v, h1, h2, h3, h4, h5, h6, h7, h8, h9, h10⟩ := next
    obtain ⟨u, g1, g2, g3, g4, g5, g6, g7, g8, g9⟩ := ih v rest h2 h3 (by rw [h4]; omega) (fun y hy => hs y (by simp [hy])) h10
    refine ⟨u, ?_, g2, g3, by rw [g4, h4, hna, List.length_cons]; omega, ?_, by rw [g6, h6]; simp, g7.trans h7, g8.trans h8, g9.trans h9⟩
    · intro fuel
      rw [List.length_cons, ← Nat.add_assoc, rdhdrLoop_succ, h1, Act.go_andThen, continueHeader, if_neg (by rw [h2]; decide)]
      exact g1 fuel
    · rw [g5, h5]; simp [Nat.add_assoc]

/-- RDHDR on the marker and such nodes (R150): what is left is the loop at the state behind them. -/
theorem rdhdrAct_nodes {s : State} {rest : List Bool} {nodes : List (Option Sym)}
    (ha : s.ahead = bitsOf 32 s.magic.toNat ++ (nodes.flatMap nodeBits ++ rest)) (hn : nodes.length ≤ 513)
    (hs : ∀ sym, some sym ∈ nodes → sym.toNat ≤ 256) (hp : 0 < subtreesLeft 1 nodes) :
    ∃ u : State, rdhdrAct s = rdhdrLoop (514 - nodes.length) u ∧ u.expect = .node ∧ u.ahead = rest ∧
      u.nalloc.toNat = nodes.length ∧ u.inp = { s.inp with pos := s.inp.pos + 32 + (nodes.flatMap nodeBits).length } ∧
      u.trace = s.trace ++ .inReadBits 32 (some s.magic.toNat) :: nodes.flatMap nodeReads ∧ u.phase = s.phase ∧
      u.root = Config.null ∧ u.out = s.out := by
  simp only [rdhdrAct, headerFuel]
  set s0 : State := { s with nalloc := 0#10, root := Config.null, walk := [], expect := .marker } with hs0
  obtain ⟨m1, m2⟩ := headerStep_marker (s := s0) (rest := nodes.flatMap nodeBits ++ rest) rfl ha
  rw [show 515 = 514 + 1 from rfl, rdhdrLoop_succ, m1, Act.go_andThen, continueHeader, if_neg (fun h => nomatch h)]
  obtain ⟨u, g1, g2, g3, g4, g5, g6, g7, g8, g9⟩ := readNodes nodes { s0 with
      expect := .node, inp := { s0.inp with pos := s0.inp.pos + 32 }
      trace := s0.trace ++ [.inReadBits 32 (some s0.magic.toNat)] } rest rfl m2 (by simp [hs0]; omega) hs hp
  refine ⟨u, ?_, g2, g3, by rw [g4]; simp [hs0], by rw [g5], by rw [g6]; simp [hs0], g7, g8, g9⟩
  rw [← g1, show 514 - nodes.length + nodes.length = 514 by omega]

theorem attach_frame (st : List Frame) : ∀ (p : Ptr) (s : State),
    (attach st p s).phase = s.phase ∧ (attach st p s).status = s.status ∧ (attach st p s).err = s.err ∧
    (attach st p s).errinfo = s.errinfo ∧
    (attach st p s).nalloc = s.nalloc ∧ (attach st p s).k = s.k ∧ (attach st p s).inp = s.inp ∧
    (attach st p s).host = s.host ∧ (attach st p s).cv = s.cv ∧ (attach st p s).fv = s.fv ∧
    (((attach st p s).expect = .unit ∧ (attach st p s).walk = [] ∧
    (attach st p s).tv = true) ∨ ((attach st p s).expect = s.expect)) := by
  induction st with
  | nil => intro p s; simp [attach]
  | cons f st ih =>
    intro p s
    obtain ⟨q, l⟩ := f
    cases l with
    | none => simp [attach]
    | some l => exact ih q _

theorem attach_open (st : List Frame) : ∀ (p : Ptr) (s : State) (lo : Nat) (t : Tree), Open s.node lo st →
    Holds s.node lo s.nalloc.toNat p t → Tree.depth t + lo ≤ s.nalloc.toNat → lo ≤ s.nalloc.toNat → s.expect = .node →
    ((attach st p s).expect = .unit ∧ ∃ t', Holds (attach st p s).node 0 s.nalloc.toNat (attach st p s).root t' ∧
    Tree.depth t' ≤ s.nalloc.toNat) ∨
    ((attach st p s).expect = .node ∧ Open (attach st p s).node s.nalloc.toNat (attach st p s).walk) := by
  induction st with
  | nil =>
    intro p s lo t _ h2 h3 _ _
    exact .inl ⟨rfl, t, h2.mono (Nat.zero_le _) (Nat.le_refl _) (fun _ _ _ => rfl), by show Tree.depth t ≤ _; omega⟩
  | cons f st ih =>
    rintro p s lo t ⟨h1, h2, h3, h4⟩ g2 g3 g4 he
    obtain ⟨q, l⟩ := f
    cases l with
    | none =>
      right
      refine ⟨he, by show q.toNat < _; simp at h1; omega, h2, ?_, h4⟩
      intro l hl
      obtain rfl := Option.some.inj hl
      simp only at h1
      exact ⟨t, g2.mono h1 (Nat.le_refl _) (fun _ _ _ => rfl), by simp only; omega⟩
    | some l =>
      obtain ⟨tl, k1, k2⟩ := h3 l rfl
      simp only at h1 h2 h4 k1 k2
      have hset : ∀ i, i ≠ q.toNat → (s.setNode q (internalNode s.free q 0#41 l p)).node[i]? = s.node[i]? := by
        intro i hi; rw [setNode_getElem, if_neg (by omega)]
      refine ih q (s.setNode q (internalNode s.free q 0#41 l p)) q.toNat (.internal 0 tl t) (h4.mono (fun i hi => hset i (by omega)) (Nat.le_refl _)) ?_ ?_ (by show q.toNat ≤ s.nalloc.toNat; omega) he
      · refine ⟨Nat.le_refl _, by show q.toNat < s.nalloc.toNat; omega, internalNode s.free q 0#41 l p, ?_, rfl, rfl, ?_, ?_⟩
        · rw [setNode_getElem, if_pos ⟨rfl, h2⟩]
        · exact k1.mono (by omega) (by show lo ≤ s.nalloc.toNat; omega) (fun i hi _ => hset i (by omega))
        · exact g2.mono (by omega) (Nat.le_refl _) (fun i hi _ => hset i (by omega))
      · show Tree.depth (.internal 0 tl t) + q.toNat ≤ s.nalloc.toNat
        simp only [Tree.depth]; omega

/-- After an element: the header goes on, or the tree is complete. -/
structure InHeader (s : State) : Prop where
  u : Running .rdhdr s
  cases : s.expect = .node ∨ (s.expect = .unit ∧ s.walk = [] ∧ s.tv = true)

theorem readMarker_ends {m : Mark} {s : State} (hs : Running .rdhdr s) : EndsIn (fun t => Running .rdhdr t ∧
    t.expect = .node ∧ t.nalloc = s.nalloc ∧ t.walk = s.walk ∧ t.node = s.node) (readMarker m s) := by
  unfold readMarker
  split
  · exact ⟨⟨hs.phase, hs.status, hs.err, hs.errinfo, hs.nalloc, hs.k, hs.pos⟩, rfl, rfl, rfl, rfl⟩
  · exact raise_endsIn (by rw [hs.phase]; decide) hs.pos

theorem readInternal_ends {s : State} (hs : Running .rdhdr s) (he : s.expect = .node) : EndsIn (fun t => Running .rdhdr t ∧
    t.expect = .node ∧ t.nalloc.toNat = s.nalloc.toNat + 1 ∧
    (Open s.node s.nalloc.toNat s.walk → Open t.node t.nalloc.toNat t.walk)) (readInternal s) := by
  unfold readInternal
  split
  · exact raise_endsIn (by rw [hs.phase]; decide) hs.pos
  · rename_i hc
    unfold Config.nodeCap at hc
    have hn := hs.nalloc
    have hna : (s.nalloc + 1#10).toNat = s.nalloc.toNat + 1 := by rw [BitVec.toNat_add]; simp; omega
    refine ⟨⟨hs.phase, hs.status, hs.err, hs.errinfo, by show (s.nalloc + 1#10).toNat ≤ _; omega, hs.k, hs.pos⟩, he, hna, ?_⟩
    intro ho
    show Open s.node (s.nalloc + 1#10).toNat _
    rw [hna]
    exact ⟨by simp, by simp; omega, by simp, ho⟩

theorem readLeaf_ends {sym : Sym} {s : State} (hs : Running .rdhdr s) (he : s.expect = .node) : EndsIn (fun t => InHeader t ∧
    t.nalloc.toNat = s.nalloc.toNat + 1 ∧
    (Open s.node s.nalloc.toNat s.walk → (t.expect = .unit ∧ t.tree.isOk = true ∧
    t.rootChildless = true) ∨ (t.expect = .node ∧ Open t.node t.nalloc.toNat t.walk))) (readLeaf sym s) := by
  unfold readLeaf
  split
  · exact raise_endsIn (by rw [hs.phase]; decide) hs.pos
  · rename_i hc
    unfold Config.nodeCap at hc
    have hn := hs.nalloc
    have hna : (s.nalloc + 1#10).toNat = s.nalloc.toNat + 1 := by rw [BitVec.toNat_add]; simp; omega
    simp only
    split
    · exact raise_endsIn (by show (_, errinfoOf s.phase _) ∈ _; rw [hs.phase]; decide) hs.pos
    · rename_i hsym
      unfold Config.eofSym at hsym
      have hf := attach_frame s.walk s.nalloc (State.setNode { s with nalloc := s.nalloc + 1#10 } s.nalloc (leafNode sym 0#41))
      obtain ⟨f1, f2, f3, f4, f5, f6, f7, f8, f9, f10, f11⟩ := hf
      refine ⟨⟨⟨f1.trans hs.phase, f2.trans hs.status, f3.trans hs.err, f4.trans hs.errinfo, by rw [f5]; show (s.nalloc + 1#10).toNat ≤ _; omega, by rw [f6]; exact hs.k, by rw [f7]; exact hs.pos⟩, ?_⟩, by rw [f5]; exact hna, ?_⟩
      · rcases f11 with h | h
        · exact .inr h
        · exact .inl (h.trans he)
      · intro ho
        have := attach_open s.walk s.nalloc (State.setNode { s with nalloc := s.nalloc + 1#10 } s.nalloc (leafNode sym 0#41)) s.nalloc.toNat (.leaf sym 0)
          (ho.mono (fun i hi => by rw [setNode_getElem, if_neg (by omega)]) (Nat.le_refl _))
          ⟨Nat.le_refl _, by show _ < (s.nalloc + 1#10).toNat; omega, leafNode sym 0#41, by rw [setNode_getElem, if_pos ⟨rfl, by omega⟩], rfl, rfl, rfl, rfl, rfl, by omega⟩
          (by show Tree.depth (.leaf sym 0) + _ ≤ (s.nalloc + 1#10).toNat; simp only [Tree.depth]; omega) (by show _ ≤ (s.nalloc + 1#10).toNat; omega) he
        rcases this with ⟨h1, t', h2, h3⟩ | ⟨h1, h2⟩
        · left
          refine ⟨h1, ?_, childless_of_holds h2⟩
          have h3 : Tree.depth t' ≤ (s.nalloc + 1#10).toNat := h3
          rw [State.tree, h2.treeAt (by unfold Config.nodeCap; omega)]; rfl
        · right
          refine ⟨h1, ?_⟩
          show Open _ (attach s.walk s.nalloc _).nalloc.toNat _
          rw [f5]; exact h2

theorem fetchMarker_ends {s : State} (hs : Running .rdhdr s) : (∃ m t, fetchMarker s = .got (.marker m) t ∧ Calm s t ∧
    t.expect = s.expect) ∨ ∃ a, fetchMarker s = .stopped a ∧ ∀ P, EndsIn P a ∧ NoStop a := by
  unfold fetchMarker
  cases h : inReadBits 32 s with
  | mk r u =>
    obtain ⟨c1, c2, c3, c4⟩ := inReadBits_calm h
    cases r with
    | none => exact .inr ⟨_, rfl, fun P => ⟨raise_endsIn (by rw [c1.phase, hs.phase]; decide) (c1.posle hs.pos), raise_noStop _ _ _⟩⟩
    | some r => exact .inl ⟨_, u, rfl, c1, c2⟩

theorem fetchNode_ends {s : State} (hs : Running .rdhdr s) : (∃ t, fetchNode s = .got .nodeInternal t ∧ Calm s t ∧
    t.expect = s.expect) ∨ (∃ sym t, fetchNode s = .got (.nodeLeaf sym) t ∧ Calm s t ∧ t.expect = s.expect) ∨
    ∃ a, fetchNode s = .stopped a ∧ ∀ P, EndsIn P a ∧ NoStop a := by
  unfold fetchNode
  split
  · exact .inr (.inr ⟨_, rfl, fun P => ⟨raise_endsIn (by rw [hs.phase]; decide) hs.pos, raise_noStop _ _ _⟩⟩)
  cases h : inReadBits 1 s with
  | mk r u =>
    obtain ⟨c1, c2, c3, c4⟩ := inReadBits_calm h
    cases r with
    | none => exact .inr (.inr ⟨_, rfl, fun P => ⟨raise_endsIn (by rw [c1.phase, hs.phase]; decide) (c1.posle hs.pos), raise_noStop _ _ _⟩⟩)
    | some r =>
      simp only
      split
      · exact .inl ⟨u, rfl, c1, c2⟩
      · cases h' : inReadBits 9 u with
        | mk r' u' =>
          obtain ⟨d1, d2, d3, d4⟩ := inReadBits_calm h'
          have cd := c1.trans d1
          cases r' with
          | none => exact .inr (.inr ⟨_, rfl, fun P => ⟨raise_endsIn (by rw [cd.phase, hs.phase]; decide) (cd.posle hs.pos), raise_noStop _ _ _⟩⟩)
          | some r' => exact .inr (.inl ⟨_, u', rfl, cd, d2.trans c2⟩)

theorem readers_noStop (s : State) (m : Mark) (sym : Sym) : NoStop (readMarker m s) ∧ NoStop (readInternal s) ∧
    NoStop (readLeaf sym s) := by
  refine ⟨?_, ?_, ?_⟩
  · unfold readMarker; split <;> trivial
  · unfold readInternal; split <;> trivial
  · unfold readLeaf; split
    · trivial
    · simp only; split <;> trivial

/-- RDHDR has ended without a fault. -/
structure HeaderRead (t : State) : Prop where
  u : Running .rdhdr t
  unit : t.expect = .unit
  walk : t.walk = []
  tv : t.tv = true

theorem rdhdrLoop_ends (fuel : Nat) : ∀ s, Running .rdhdr s → s.expect = .node →
    EndsIn (fun t => HeaderRead t ∧ (Open s.node s.nalloc.toNat s.walk → t.tree.isOk = true ∧
    t.rootChildless = true)) (rdhdrLoop fuel s) ∧ (514 ≤ fuel + s.nalloc.toNat → NoStop (rdhdrLoop fuel s)) := by
  induction fuel with
  | zero =>
    intro s hs _
    refine ⟨trivial, fun h => ?_⟩
    have := hs.nalloc; omega
  | succ fuel ih =>
    intro s hs he
    rw [rdhdrLoop_succ, headerStep, if_neg (node_ne_marker he)]
    rcases fetchNode_ends hs with ⟨t, h1, c, e⟩ | ⟨sym, t, h1, c, e⟩ | ⟨a, h1, h2⟩
    · rw [h1]
      simp only
      have hr := readInternal_ends (hs.calm c) (e.trans he)
      have hns := (readers_noStop t 0 0).2.1
      cases hx : readInternal t with
      | go u =>
        rw [hx] at hr
        obtain ⟨r1, r2, r3, r4⟩ := hr
        rw [Act.go_andThen, continueHeader, if_neg (by rw [r2]; decide)]
        obtain ⟨i1, i2⟩ := ih u r1 r2
        rw [c.node, c.nalloc, c.walk] at r4
        rw [c.nalloc] at r3
        exact ⟨i1.mono fun x hx => ⟨hx.1, fun ho => hx.2 (r4 ho)⟩, fun h => i2 (by omega)⟩
      | raised u => rw [hx] at hr; exact ⟨hr, fun _ => trivial⟩
      | fault f u => rw [hx] at hns; exact hns.elim
      | refuse r u => rw [hx] at hns; exact ⟨trivial, fun _ => hns⟩
    · rw [h1]
      simp only
      have hr := readLeaf_ends (sym := sym) (hs.calm c) (e.trans he)
      have hns := (readers_noStop t 0 sym).2.2
      cases hx : readLeaf sym t with
      | go u =>
        rw [hx] at hr
        obtain ⟨r1, r2, r3⟩ := hr
        rw [c.node, c.nalloc, c.walk] at r3
        rw [c.nalloc] at r2
        rw [Act.go_andThen, continueHeader]
        by_cases hu : u.expect = .unit
        · rw [if_pos hu]
          rcases r1.cases with h | ⟨k1, k2, k3⟩
          · rw [hu] at h; simp at h
          refine ⟨⟨⟨r1.u, hu, k2, k3⟩, fun ho => ?_⟩, fun _ => trivial⟩
          rcases r3 ho with h | h
          · exact h.2
          · rw [hu] at h; simp at h
        · rw [if_neg hu]
          rcases r1.cases with h | ⟨k1, _⟩
          · obtain ⟨i1, i2⟩ := ih u r1.u h
            refine ⟨i1.mono fun x hx => ⟨hx.1, fun ho => hx.2 ?_⟩, fun h => i2 (by omega)⟩
            rcases r3 ho with h | h
            · exact absurd h.1 hu
            · exact h.2
          · exact absurd k1 hu
      | raised u => rw [hx] at hr; exact ⟨hr, fun _ => trivial⟩
      | fault f u => rw [hx] at hns; exact hns.elim
      | refuse r u => rw [hx] at hns; exact ⟨trivial, fun _ => hns⟩
    · rw [h1]
      simp only
      have := h2 (fun _ => True)
      cases a with
      | go t => exact ⟨((h2 (fun _ => False)).1 : False).elim, fun _ => ((h2 (fun _ => False)).1 : False).elim⟩
      | raised t => exact ⟨this.1, fun _ => trivial⟩
      | fault f t => exact this.2.elim
      | refuse r t => exact ⟨trivial, fun _ => this.2⟩

theorem rdhdrAct_ends {s : State} (hs : Running .rdhdr s) :
    EndsIn (fun t => HeaderRead t ∧ t.tree.isOk = true ∧ t.rootChildless = true) (rdhdrAct s) ∧ NoStop (rdhdrAct s) := by
  unfold rdhdrAct headerFuel
  set s0 : State := { s with nalloc := 0#10, root := Config.null, walk := [], expect := .marker } with hs0
  have hu0 : Running .rdhdr s0 := ⟨hs.phase, hs.status, hs.err, hs.errinfo, by simp [hs0], hs.k, hs.pos⟩
  rw [show 515 = 514 + 1 from rfl, rdhdrLoop_succ, headerStep]
  rw [if_pos rfl]
  rcases fetchMarker_ends hu0 with ⟨m, t, h1, c, e⟩ | ⟨a, h1, h2⟩
  · rw [h1]
    simp only
    have hr := readMarker_ends (m := m) (hu0.calm c)
    have hns := (readers_noStop t m 0).1
    cases hx : readMarker m t with
    | go u =>
      rw [hx] at hr
      obtain ⟨r1, r2, r3, r4, r5⟩ := hr
      rw [Act.go_andThen, continueHeader, if_neg (by rw [r2]; decide)]
      obtain ⟨i1, i2⟩ := rdhdrLoop_ends 514 u r1 r2
      refine ⟨i1.mono fun x hx => ⟨hx.1, hx.2 ?_⟩, i2 (by omega)⟩
      rw [r4, c.walk]; trivial
    | raised u => rw [hx] at hr; exact ⟨hr, trivial⟩
    | fault f u => rw [hx] at hns; exact hns.elim
    | refuse r u => rw [hx] at hns; exact ⟨trivial, hns⟩
  · rw [h1]
    simp only
    have := h2 (fun _ => True)
    cases a with
    | go t => exact ((h2 (fun _ => False)).1 : False).elim
    | raised t => exact ⟨this.1, trivial⟩
    | fault f t => exact this.2.elim
    | refuse r t => exact ⟨trivial, this.2⟩

end Sys2Proof.Machine
end

