-- ==== Sys2Proof/Laws/Payload.lean ====
section
/-! SUPPORT. ENCODE and DECODE (46_huffman_encoder.md, 47_huffman_decoder.md): the loops on given input, and on any input. -/

namespace Sys2Proof.Machine

/-! ### ENCODE -/

/-- The loop on bytes that all have a code (R160 to R162). -/
theorem encodeLoop_spec (fuel : Nat) : ∀ (s : State) (bytes : List Byte) (tail : List Bool),
    s.ahead = bitsOfBytes bytes ++ tail → tail.length < 8 → bytes.length < fuel → (∀ b ∈ bytes, s.codevAt b.toNat = true) →
    s.out.closed = false →
    ∃ p f, encodeLoop fuel s = .go { (s.wrote (bytes.flatMap (fun b => s.codeAt b.toNat) ++ s.codeAt 256)
            (bytes.flatMap (fun b => .inReadBits 8 (some b.toNat) :: codeWrites (s.codeAt b.toNat)) ++
              .inReadBits 8 none :: codeWrites (s.codeAt 256))) with inp := { s.inp with pos := p }, free := f } := by
  induction fuel with
  | zero => intro s bytes tail _ _ h; omega
  | succ fuel ih =>
    intro s bytes tail ha ht hf hc ho
    cases bytes with
    | nil =>
      simp only [bitsOfBytes_nil, List.nil_append] at ha
      have : inReadBits 8 s = _ := inReadBits_eos (n := 8) (s := s) (by rw [← State.ahead, ha]; exact ht)
      rw [encodeLoop, this]
      simp only
      rw [emit_open _ (by exact ho)]
      refine ⟨s.eosPos, s.free + 1, ?_⟩
      simp [State.wrote, State.codeAt, Config.eofSym]
    | cons b bs =>
      simp only [bitsOfBytes_cons, List.append_assoc] at ha
      obtain ⟨hr, hd⟩ := inReadBits_field (n := 8) (by decide) b.isLt ha
      rw [encodeLoop, hr]
      simp only
      set s1 : State := { s with inp := { s.inp with pos := s.inp.pos + 8 }, trace := s.trace ++ [.inReadBits 8 (some b.toNat)] } with hs1
      have hb : s1.codevAt b.toNat = true := hc b (by simp)
      rw [if_pos hb, emit_open _ (s := s1) ho, Act.go_andThen]
      obtain ⟨p, f, h⟩ := ih (s1.wrote (s1.codeAt b.toNat) (codeWrites (s1.codeAt b.toNat))) bs tail hd ht (by simp at hf; omega)
        (fun x hx => hc x (by simp [hx])) ho
      refine ⟨p, f, ?_⟩
      rw [h]
      simp [State.wrote, hs1, State.codeAt]

/-- The loop up to a byte without a code (R163). -/
theorem encodeLoop_missing (fuel : Nat) : ∀ (s : State) (bytes : List Byte) (b : Byte) (rest : List Bool),
    s.ahead = bitsOfBytes bytes ++ (bitsOf 8 b.toNat ++ rest) → bytes.length < fuel →
    (∀ b ∈ bytes, s.codevAt b.toNat = true) → s.codevAt b.toNat = false → s.out.closed = false →
    ∃ u, encodeLoop fuel s = raise .missingCode 0#2 u ∧ u.phase = s.phase ∧
    u.out = { bits := s.out.bits ++ bytes.flatMap (fun x => s.codeAt x.toNat), closed := false } ∧
      u.inp.pos = s.inp.pos + 8 * (bytes.length + 1) := by
  induction fuel with
  | zero => intro s bytes tail _ _ h; omega
  | succ fuel ih =>
    intro s bytes b rest ha hf hc hb ho
    cases bytes with
    | nil =>
      simp only [bitsOfBytes_nil, List.nil_append] at ha
      obtain ⟨hr, hd⟩ := inReadBits_field (n := 8) (by decide) b.isLt ha
      rw [encodeLoop, hr]
      simp only
      rw [if_neg (by have : State.codevAt { s with inp := { s.inp with pos := s.inp.pos + 8 }, trace := s.trace ++ [.inReadBits 8 (some b.toNat)] } b.toNat = false := hb
                     rw [this]; decide)]
      refine ⟨_, rfl, rfl, ?_, by simp⟩
      cases h : s.out; simp_all
    | cons c bs =>
      simp only [bitsOfBytes_cons, List.append_assoc] at ha
      obtain ⟨hr, hd⟩ := inReadBits_field (n := 8) (by decide) c.isLt ha
      rw [encodeLoop, hr]
      simp only
      set s1 : State := { s with inp := { s.inp with pos := s.inp.pos + 8 }, trace := s.trace ++ [.inReadBits 8 (some c.toNat)] } with hs1
      have hcc : s1.codevAt c.toNat = true := hc c (by simp)
      rw [if_pos hcc, emit_open _ (s := s1) ho, Act.go_andThen]
      obtain ⟨u, h, h2, h3, h4⟩ := ih (s1.wrote (s1.codeAt c.toNat) (codeWrites (s1.codeAt c.toNat))) bs b rest hd (by simp at hf; omega)
        (fun x hx => hc x (by simp [hx])) hb ho
      refine ⟨u, h, h2, ?_, ?_⟩
      · rw [h3]; simp [State.wrote, hs1, State.codeAt]
      · rw [h4]; simp [State.wrote, hs1]; omega

theorem encodeLoop_ends (fuel : Nat) : ∀ s, Running .encode s → EndsIn (fun t => Calm s t ∧
    t.expect = s.expect) (encodeLoop fuel s) := by
  induction fuel with
  | zero => intro s _; trivial
  | succ fuel ih =>
    intro s hs
    rw [encodeLoop]
    cases h : inReadBits 8 s with
    | mk r u =>
      obtain ⟨c1, c2, c3, c4⟩ := inReadBits_calm h
      cases r with
      | none => exact (emit_writes _ u).endsIn.mono fun t ht => ⟨c1.trans ht.1, ht.2.1.trans c2⟩
      | some r =>
        simp only
        split
        · refine (emit_writes _ u).endsIn.andThen ?_
          rintro t ⟨g1, g2, g3⟩
          exact (ih t ((hs.calm c1).calm g1)).mono fun x hx => ⟨(c1.trans g1).trans hx.1, (hx.2.trans g2).trans c2⟩
        · exact raise_endsIn (by rw [c1.phase, hs.phase]; decide) (c1.posle hs.pos)

theorem encodeLoop_noStop (fuel : Nat) : ∀ s, s.unread < fuel → NoStop (encodeLoop fuel s) := by
  induction fuel with
  | zero => intro s h; omega
  | succ fuel ih =>
    intro s hf
    rw [encodeLoop]
    cases h : inReadBits 8 s with
    | mk r u =>
      obtain ⟨c1, c2, c3, c4⟩ := inReadBits_calm h
      cases r with
      | none => exact (emit_writes _ u).noStop
      | some r =>
        simp only
        split
        · refine (emit_writes _ u).noStop.andThen ?_
          intro t ht
          rcases emit_writes (u.codeAt r) u with ⟨x, g1, g2, g3, g4, g5⟩ | ⟨x, g⟩
          · rw [ht] at g1; obtain rfl := Act.go.inj g1
            have := c4 rfl
            exact ih t (by unfold State.unread at *; rw [g5]; omega)
          · rw [ht] at g; simp at g
        · exact raise_noStop _ _ _

/-! ### DECODE along the paths of a tree -/

/-- What DECODE does on reaching a leaf: the sentinel ends it, a literal is written and the cursor returns (R172, R173). -/
def leafAct (sym : Sym) (t : State) : Act :=
  if sym = 256#9 then .go { t with expect := .unit } else (outWriteBits 8 (literalOf sym) t).andThen fun u => .go { u with cur := u.root }

theorem toNat_eq_eofSym (sym : Sym) : sym.toNat = Config.eofSym ↔ sym = 256#9 := by
  constructor
  · intro h; exact BitVec.eq_of_toNat_eq h
  · rintro rfl; rfl

/-- One pass from an internal node of a tree (R172). -/
theorem decodePass_spells {s : State} {w : Nat} {l r : Tree} (b : Bool) (h : Spells s.node s.cur (.internal w l r)) :
   ∃ q, q = s.walkTo s.cur [b] ∧ Spells s.node q (if b then r else l) ∧ q ≠ Config.null ∧
     ((∃ sym v, (if b then r else l) = Tree.leaf sym v ∧ decodePass b s = leafAct sym { s with cur := q }) ∨
      (∃ v l' r', (if b then r else l) = Tree.internal v l' r' ∧ decodePass b s = .go { s with cur := q })) := by
  obtain ⟨n, h1, h2, h3, h4⟩ := h
  have hq : Spells s.node (childOf n b) (if b then r else l) := by cases b <;> simpa [childOf]
  obtain ⟨m, g1, g2, g3⟩ := hq.get
  refine ⟨childOf n b, by simp [State.walkTo, State.nodeAt, h1], hq, g2, ?_⟩
  have hp : decodePass b s = if m.leaf then leafAct m.sym { s with cur := childOf n b } else .go { s with cur := childOf n b } := by
    rw [decodePass]
    simp only [State.nodeAt, h1]
    rw [if_neg g2]
    simp only [g1, leafAct, toNat_eq_eofSym]
  cases ht : (if b then r else l) with
  | leaf sym v =>
    left
    rw [ht] at hq
    obtain ⟨m', e1, e2, e3⟩ := hq
    rw [g1] at e1; obtain rfl : m = m' := Option.some.inj e1
    exact ⟨sym, v, rfl, by rw [hp, if_pos e2, e3]⟩
  | internal v l' r' =>
    right
    rw [ht] at hq
    obtain ⟨m', e1, e2, e3⟩ := hq
    rw [g1] at e1; obtain rfl : m = m' := Option.some.inj e1
    exact ⟨v, l', r', rfl, by rw [hp, if_neg (by simp [e2])]⟩

/-- What DECODE does after a pass. -/
def continueDecode (fuel : Nat) (u : State) : Act := if u.expect = .unit then .go u else decodeLoop fuel u

theorem decodeLoop_bit {s : State} {b : Bool} {rest : List Bool} (fuel : Nat) (ha : s.ahead = b :: rest) :
   decodeLoop (fuel + 1) s = (decodePass b { s with inp := { s.inp with pos := s.inp.pos + 1 }, trace := s.trace ++ [.inReadBits 1 (some b.toNat)] }).andThen (continueDecode fuel)
     ∧ s.inp.bits.drop (s.inp.pos + 1) = rest := by
  obtain ⟨h1, h2⟩ := inReadBits_field (n := 1) (v := b.toNat) (s := s) (rest := rest) (by decide) (by cases b <;> decide) (by rw [← State.ahead, ha]; simp)
  refine ⟨?_, h2⟩
  rw [decodeLoop, h1]
  simp only
  rw [show decide (b.toNat = 1) = b by cases b <;> rfl]
  rfl

/-- The loop along a whole path (R172, R173). -/
theorem decodeLoop_path (t : Tree) : ∀ (s : State) (sym : Sym) (c rest : List Bool) (fuel : Nat), Spells s.node s.cur t →
    (sym, c) ∈ t.codes → c ≠ [] →
    s.expect = .codeword → s.ahead = c ++ rest →
    decodeLoop (fuel + c.length) s =
    (leafAct sym { s with cur := s.walkTo s.cur c, inp := { s.inp with pos := s.inp.pos + c.length }, trace := s.trace ++ bitReads c }).andThen (continueDecode fuel) ∧
      s.inp.bits.drop (s.inp.pos + c.length) = rest := by
  induction t with
  | leaf sy w => intro s sym c rest fuel hsp hc hne; simp [Tree.codes, Tree.codesFrom] at hc; exact absurd hc.2 hne
  | internal w l r ihl ihr =>
    intro s sym c rest fuel hsp hc hne he ha
    obtain ⟨b, c', rfl, hc'⟩ : ∃ b c', c = b :: c' ∧ (sym, c') ∈ (if b then r else l).codes := by
      rw [Tree.codes_internal, List.mem_append] at hc
      rcases hc with hc | hc <;> simp only [List.mem_map, Prod.mk.injEq] at hc <;> obtain ⟨⟨x, y⟩, h1, rfl, rfl⟩ := hc
      · exact ⟨false, _, rfl, h1⟩
      · exact ⟨true, _, rfl, h1⟩
    have ih : ∀ (s : State) (sym : Sym) (c rest : List Bool) (fuel : Nat), Spells s.node s.cur (if b then r else l) → (sym, c) ∈ (if b then r else l).codes → c ≠ [] →
      s.expect = .codeword → s.ahead = c ++ rest →
      decodeLoop (fuel + c.length) s = (leafAct sym { s with cur := s.walkTo s.cur c, inp := { s.inp with pos := s.inp.pos + c.length }, trace := s.trace ++ bitReads c }).andThen (continueDecode fuel) ∧
      s.inp.bits.drop (s.inp.pos + c.length) = rest := by cases b; exacts [ihl, ihr]
    obtain ⟨h1, h2⟩ := decodeLoop_bit (fuel + c'.length) (s := s) (b := b) (rest := c' ++ rest) ha
    rw [List.length_cons, show fuel + (c'.length + 1) = fuel + c'.length + 1 by omega, h1]
    obtain ⟨q, k0, k1, k2, k3⟩ := decodePass_spells (s := { s with inp := { s.inp with pos := s.inp.pos + 1 }, trace := s.trace ++ [.inReadBits 1 (some b.toNat)] }) b hsp
    rcases k3 with ⟨sy, v, e1, e2⟩ | ⟨v, l', r', e1, e2⟩
    · rw [e1] at hc'
      simp only [Tree.codes, Tree.codesFrom, List.mem_singleton, Prod.mk.injEq] at hc'
      obtain ⟨rfl, rfl⟩ := hc'
      rw [e2, k0, walkTo_congr (s := s) (t := { s with inp := _, trace := _ }) rfl]
      exact ⟨rfl, h2⟩
    · have hne' : c' ≠ [] := by
        rintro rfl
        rw [e1, Tree.codes_internal] at hc'
        simp at hc'
      obtain ⟨a, b'⟩ := ih { s with cur := q, inp := { s.inp with pos := s.inp.pos + 1 }, trace := s.trace ++ [.inReadBits 1 (some b.toNat)] } sym c' rest fuel k1 hc' hne' he h2
      have hw : ∀ x : State, x.node = s.node → x.cur = q → x.walkTo x.cur c' = s.walkTo s.cur (b :: c') := fun x hx hc => by
        rw [walkTo_congr hx, hc, k0, walkTo_congr (s := s) rfl]
        exact (walkTo_append s [b] c' s.cur).symm
      rw [e2, Act.go_andThen, continueDecode, if_neg (by rw [he]; decide), a, hw { s with cur := q, inp := { s.inp with pos := s.inp.pos + 1 }, trace := s.trace ++ [.inReadBits 1 (some b.toNat)] } rfl rfl]
      refine ⟨?_, ?_⟩
      · simp [bitReads, Nat.add_comm, Nat.add_left_comm]
      · rw [← b']; simp [Nat.add_comm, Nat.add_left_comm]

theorem leafAct_literal {sym : Sym} {s : State} (h : sym.toNat < 256) (ho : s.out.closed = false) :
   leafAct sym s = .go { (s.wrote (bitsOf 8 sym.toNat) [.outWriteBits 8 sym.toNat]) with cur := s.root } := by
  rw [leafAct, if_neg (by rintro rfl; simp at h), outWriteBits_wrote ho]
  simp [literalOf, Nat.mod_eq_of_lt h, State.wrote]

/-- The loop along a sequence of literals' paths (R173). -/
theorem decodeLoop_words {t : Tree} (words : List (Sym × List Bool)) : ∀ (s : State) (rest : List Bool) (fuel : Nat),
    Spells s.node s.root t → s.cur = s.root → s.expect = .codeword →
    s.out.closed = false → (∀ w ∈ words, w ∈ t.codes ∧ w.1.toNat < 256 ∧
    w.2 ≠ []) → s.ahead = words.flatMap (fun w => w.2) ++ rest →
    decodeLoop (fuel + (words.flatMap (fun w => w.2)).length) s = decodeLoop fuel { s with
       trace := s.trace ++ words.flatMap (fun w => bitReads w.2 ++ [.outWriteBits 8 w.1.toNat])
       inp := { s.inp with pos := s.inp.pos + (words.flatMap (fun w => w.2)).length }
       out := { s.out with bits := s.out.bits ++ words.flatMap (fun w => bitsOf 8 w.1.toNat) } } ∧
      s.inp.bits.drop (s.inp.pos + (words.flatMap (fun w => w.2)).length) = rest := by
  induction words with
  | nil => intro s rest fuel _ _ _ _ _ ha; exact ⟨by simp, by simpa [State.ahead] using ha⟩
  | cons w ws ih =>
    intro s rest fuel hsp hcur he ho hw ha
    obtain ⟨w1, w2, w3⟩ := hw w (by simp)
    simp only [List.flatMap_cons, List.append_assoc] at ha
    obtain ⟨h1, h2⟩ := decodeLoop_path t s w.1 w.2 (ws.flatMap (fun w => w.2) ++ rest)
      (fuel + (ws.flatMap (fun w => w.2)).length) (by rw [hcur]; exact hsp) w1 w3 he ha
    rw [leafAct_literal w2 (by exact ho)] at h1
    simp only [Act.go_andThen, continueDecode, State.wrote, he] at h1
    rw [if_neg (by decide)] at h1
    obtain ⟨h3, h4⟩ := ih { s with
        cur := s.root, expect := .codeword, inp := { s.inp with pos := s.inp.pos + w.2.length }
        trace := s.trace ++ bitReads w.2 ++ [.outWriteBits 8 w.1.toNat]
        out := { s.out with bits := s.out.bits ++ bitsOf 8 w.1.toNat } }
      rest fuel hsp rfl rfl ho (fun x hx => hw x (by simp [hx])) h2
    refine ⟨?_, ?_⟩
    · rw [List.flatMap_cons, List.length_append,
        show fuel + (w.2.length + (ws.flatMap (fun w => w.2)).length) = fuel + (ws.flatMap (fun w => w.2)).length + w.2.length by omega,
        h1, h3]
      simp [hcur, he, Nat.add_assoc]
    · rw [← h4]; simp [Nat.add_assoc]

theorem decodeAct_internal {s : State} {w : Nat} {l r : Tree} (h : s.tree = .ok (.internal w l r)) :
   decodeAct s = decodeLoop (s.unread + 1) { s with cur := s.root, expect := .codeword } := by
  obtain ⟨n, h1, h2, h3⟩ := (spells_of_tree h).get
  rw [decodeAct]
  simp only
  rw [if_neg h2]
  have hl : n.leaf = false := by
    cases hh : n.leaf
    · rfl
    · simp [hh] at h3
  simp only [State.nodeAt, h1, hl, Bool.false_and]
  simp [State.unread]

/-- The loop on bits that end inside a path (R174). -/
theorem decodeLoop_partial (t : Tree) : ∀ (s : State) (c : Sym × List Bool) (p : List Bool) (fuel : Nat),
    Spells s.node s.cur t → c ∈ t.codes → p <+: c.2 → p ≠ c.2 →
    s.expect = .codeword → s.ahead = p →
    ∃ u, decodeLoop (fuel + p.length + 1) s = raise .truncatedStreamError 3#2 u ∧ u.phase = s.phase ∧ u.out = s.out := by
  induction t with
  | leaf sy w => 
    intro s c p fuel _ hc hp hne
    simp only [Tree.codes, Tree.codesFrom, List.mem_singleton] at hc
    subst hc
    exact absurd (List.prefix_nil.mp hp) hne
  | internal w l r ihl ihr =>
    intro s c p fuel hsp hc hp hne he ha
    cases p with
    | nil =>
      rw [decodeLoop, inReadBits_eos (by rw [← State.ahead, ha]; decide)]
      exact ⟨_, rfl, rfl, rfl⟩
    | cons b p =>
      obtain ⟨sym, c⟩ := c
      obtain ⟨c', rfl, hc'⟩ : ∃ c', c = b :: c' ∧ (sym, c') ∈ (if b then r else l).codes := by
        rw [Tree.codes_internal, List.mem_append] at hc
        rcases hc with hc | hc <;> simp only [List.mem_map, Prod.mk.injEq] at hc <;> obtain ⟨⟨x, y⟩, h1, rfl, rfl⟩ := hc <;>
          simp only [List.cons_prefix_cons] at hp <;> obtain ⟨rfl, hp⟩ := hp
        · exact ⟨_, rfl, h1⟩
        · exact ⟨_, rfl, h1⟩
      simp only [List.cons_prefix_cons, true_and] at hp
      have hne' : p ≠ c' := by rintro rfl; exact hne rfl
      obtain ⟨h1, h2⟩ := decodeLoop_bit (fuel + p.length + 1) (s := s) (b := b) (rest := p) ha
      rw [List.length_cons, show fuel + (p.length + 1) + 1 = fuel + p.length + 1 + 1 by omega, h1]
      obtain ⟨q, _, k1, k2, k3⟩ := decodePass_spells (s := { s with inp := { s.inp with pos := s.inp.pos + 1 }, trace := s.trace ++ [.inReadBits 1 (some b.toNat)] }) b hsp
      rcases k3 with ⟨sy, v, e1, e2⟩ | ⟨v, l', r', e1, e2⟩
      · rw [e1] at hc'
        simp only [Tree.codes, Tree.codesFrom, List.mem_singleton, Prod.mk.injEq] at hc'
        obtain ⟨rfl, rfl⟩ := hc'
        exact absurd (List.prefix_nil.mp hp) hne'
      · rw [e2, Act.go_andThen, continueDecode, if_neg (by rw [he]; decide)]
        have ih : ∀ (s : State) (c : Sym × List Bool) (p : List Bool) (fuel : Nat), Spells s.node s.cur (if b then r else l) → c ∈ (if b then r else l).codes → p <+: c.2 → p ≠ c.2 →
          s.expect = .codeword → s.ahead = p →
          ∃ u, decodeLoop (fuel + p.length + 1) s = raise .truncatedStreamError 3#2 u ∧ u.phase = s.phase ∧ u.out = s.out := by cases b; exacts [ihl, ihr]
        exact ih { s with cur := q, inp := { s.inp with pos := s.inp.pos + 1 }, trace := s.trace ++ [.inReadBits 1 (some b.toNat)] } (sym, c') p fuel k1 hc' hp hne' he h2

/-- A codeword walked from its tree's root (R172, R173). -/
theorem decodeBits_path (t : Tree) : ∀ (s : State) (sym : Sym) (c : List Bool), Spells s.node s.cur t → (sym, c) ∈ t.codes →
    c ≠ [] →
    s.expect = .codeword →
    decodeBits c s = (leafAct sym { s with cur := s.walkTo s.cur c }).andThen fun u => .go u := by
  induction t with
  | leaf sy w => intro s sym c hsp hc hne; simp [Tree.codes, Tree.codesFrom] at hc; exact absurd hc.2 hne
  | internal w l r ihl ihr =>
    intro s sym c hsp hc hne he
    obtain ⟨b, c', rfl, hc'⟩ : ∃ b c', c = b :: c' ∧ (sym, c') ∈ (if b then r else l).codes := by
      rw [Tree.codes_internal, List.mem_append] at hc
      rcases hc with hc | hc <;> simp only [List.mem_map, Prod.mk.injEq] at hc <;> obtain ⟨⟨x, y⟩, h1, rfl, rfl⟩ := hc
      · exact ⟨false, _, rfl, h1⟩
      · exact ⟨true, _, rfl, h1⟩
    have ih : ∀ (s : State) (sym : Sym) (c : List Bool), Spells s.node s.cur (if b then r else l) → (sym, c) ∈ (if b then r else l).codes → c ≠ [] →
      s.expect = .codeword →
      decodeBits c s = (leafAct sym { s with cur := s.walkTo s.cur c }).andThen fun u => .go u := by cases b; exacts [ihl, ihr]
    obtain ⟨q, k0, k1, k2, k3⟩ := decodePass_spells (s := s) b hsp
    rw [decodeBits]
    rcases k3 with ⟨sy, v, e1, e2⟩ | ⟨v, l', r', e1, e2⟩
    · rw [e1] at hc'
      simp only [Tree.codes, Tree.codesFrom, List.mem_singleton, Prod.mk.injEq] at hc'
      obtain ⟨rfl, rfl⟩ := hc'
      rw [e2, k0]
      congr 1
      funext u
      split <;> rfl
    · have hne' : c' ≠ [] := by
        rintro rfl
        rw [e1, Tree.codes_internal] at hc'
        simp at hc'
      rw [e2, Act.go_andThen, if_neg (by rw [he]; decide)]
      have hw : ∀ x : State, x.node = s.node → x.cur = q → x.walkTo x.cur c' = s.walkTo s.cur (b :: c') := fun x hx hc => by
        rw [walkTo_congr hx, hc, k0]
        exact (walkTo_append s [b] c' s.cur).symm
      rw [ih { s with cur := q } sym c' k1 hc' hne' he, hw { s with cur := q } rfl rfl]

/-- The loop down the branches of `c` through internal nodes, to a child that is NULL (R175 (b)). -/
theorem decodeLoop_absent (c : List Bool) : ∀ (s : State) (n : Node) (b : Bool) (rest : List Bool) (fuel : Nat),
    (∀ d, d <+: c → ∃ m, s.nodeAt (s.walkTo s.cur d) = some m ∧ m.leaf = false) → s.nodeAt (s.walkTo s.cur c) = some n →
    childOf n b = Config.null → s.ahead = c ++ b :: rest → s.expect = .codeword →
    ∃ u, decodeLoop (fuel + c.length + 1) s = raise .corruptTreeError 0#2 u ∧ u.phase = s.phase ∧ u.out = s.out ∧
      u.inp.pos = s.inp.pos + c.length + 1 := by
  induction c with
  | nil =>
    intro s n b rest fuel _ hn hb ha _
    obtain ⟨h1, _⟩ := decodeLoop_bit fuel (s := s) (b := b) (rest := rest) ha
    rw [show fuel + ([] : List Bool).length + 1 = fuel + 1 from rfl, h1]
    have hn' : s.nodeAt s.cur = some n := hn
    rw [decodePass, show (State.nodeAt { s with inp := { s.inp with pos := s.inp.pos + 1 }, trace := s.trace ++ [.inReadBits 1 (some b.toNat)] } s.cur) = some n from hn']
    simp only [hb, if_true]
    exact ⟨_, rfl, rfl, rfl, rfl⟩
  | cons x c ih =>
    intro s n b rest fuel hd hn hb ha he
    obtain ⟨m, hm, hml⟩ := hd [] (List.nil_prefix ..)
    replace hm : s.nodeAt s.cur = some m := hm
    have hstep : ∀ d, s.walkTo s.cur (x :: d) = s.walkTo (childOf m x) d := by intro d; simp only [State.walkTo, hm]
    obtain ⟨m', hm', hml'⟩ := hd [x] (by simp)
    rw [hstep] at hm'
    replace hm' : s.nodeAt (childOf m x) = some m' := hm'
    have hnull : childOf m x ≠ Config.null := by
      intro h; rw [h] at hm'
      simp at hm'
    obtain ⟨h1, h2⟩ := decodeLoop_bit (fuel + c.length + 1) (s := s) (b := x) (rest := c ++ b :: rest) ha
    rw [List.length_cons, show fuel + (c.length + 1) + 1 = fuel + c.length + 1 + 1 by omega, h1]
    have hp : decodePass x { s with inp := { s.inp with pos := s.inp.pos + 1 }, trace := s.trace ++ [.inReadBits 1 (some x.toNat)] } =
        .go { s with inp := { s.inp with pos := s.inp.pos + 1 }, trace := s.trace ++ [.inReadBits 1 (some x.toNat)], cur := childOf m x } := by
      rw [decodePass, show (State.nodeAt { s with inp := { s.inp with pos := s.inp.pos + 1 }, trace := s.trace ++ [.inReadBits 1 (some x.toNat)] } s.cur) = some m from hm]
      simp only
      rw [if_neg hnull]
      rw [show (State.nodeAt { s with cur := childOf m x, inp := { s.inp with pos := s.inp.pos + 1 }, trace := s.trace ++ [.inReadBits 1 (some x.toNat)] } (childOf m x)) = some m' from hm']
      simp [hml']
    rw [hp, Act.go_andThen, continueDecode, if_neg (by rw [he]; decide)]
    have hw : ∀ (y : State) d, y.node = s.node → y.cur = childOf m x → y.nodeAt (y.walkTo y.cur d) = s.nodeAt (s.walkTo s.cur (x :: d)) :=
      fun y d hy hc => by rw [walkTo_congr hy, hc, hstep]; simp only [State.nodeAt, hy]
    obtain ⟨u, g1, g2, g3, g4⟩ := ih { s with inp := { s.inp with pos := s.inp.pos + 1 }, trace := s.trace ++ [.inReadBits 1 (some x.toNat)], cur := childOf m x } n b rest fuel
      (fun d hd' => by rw [hw { s with inp := { s.inp with pos := s.inp.pos + 1 }, trace := s.trace ++ [.inReadBits 1 (some x.toNat)], cur := childOf m x } d rfl rfl]; exact hd (x :: d) (by simpa using hd'))
      (by rw [hw { s with inp := { s.inp with pos := s.inp.pos + 1 }, trace := s.trace ++ [.inReadBits 1 (some x.toNat)], cur := childOf m x } c rfl rfl]; exact hn) hb h2 he
    exact ⟨u, g1, g2, g3, by rw [g4]; simp; omega⟩

/-- Reading a codeword from IN and the decoder of the tree read the same bits (R83, R174). -/
theorem fetchCodeword_reads (w : Nat) (l r : Tree) : ∀ (fuel : Nat) (p : Ptr) (acc : List Bool) (s : State),
    Spells s.node p (.internal w l r) → s.ahead.length < fuel →
    match takeCodeword (.internal w l r) s.ahead with
    | some (c, rest) => ∃ u, fetchCodeword fuel p acc s = .got (.codeword (acc ++ c)) u ∧ u.ahead = rest ∧
        u = { s with inp := { s.inp with pos := u.inp.pos }, trace := s.trace ++ bitReads c }
    | none => ∃ u, fetchCodeword fuel p acc s = .stopped (raise .truncatedStreamError 3#2 u) := by
  suffices h : ∀ (t : Tree) (w : Nat) (l r : Tree), t = .internal w l r → ∀ (fuel : Nat) (p : Ptr) (acc : List Bool) (s : State),
      Spells s.node p t → s.ahead.length < fuel →
      match takeCodeword t s.ahead with
      | some (c, rest) => ∃ u, fetchCodeword fuel p acc s = .got (.codeword (acc ++ c)) u ∧ u.ahead = rest ∧
          u = { s with inp := { s.inp with pos := u.inp.pos }, trace := s.trace ++ bitReads c }
      | none => ∃ u, fetchCodeword fuel p acc s = .stopped (raise .truncatedStreamError 3#2 u) from h _ w l r rfl
  intro t
  induction t with
  | leaf => intro w l r h; cases h
  | internal w l r ihl ihr =>
    intro _ _ _ _ fuel p acc s hsp hf
    cases fuel with
    | zero => omega
    | succ fuel =>
      obtain ⟨n, h1, h2, h3, h4⟩ := hsp
      replace h1 : s.nodeAt p = some n := h1
      cases ha : s.ahead with
      | nil =>
        simp only [takeCodeword]
        rw [fetchCodeword, inReadBits_eos (by rw [← State.ahead, ha]; decide)]
        exact ⟨_, rfl⟩
      | cons b bs =>
        obtain ⟨g1, g2⟩ := inReadBits_field (n := 1) (v := b.toNat) (s := s) (rest := bs) (by decide) (by cases b <;> decide)
          (by rw [← State.ahead, ha]; simp)
        have hq : Spells s.node (childOf n b) (if b then r else l) := by cases b <;> simpa [childOf]
        have ih : ∀ (w' : Nat) (l' r' : Tree), (if b then r else l) = .internal w' l' r' →
          ∀ (fuel : Nat) (p : Ptr) (acc : List Bool) (s : State), Spells s.node p (if b then r else l) → s.ahead.length < fuel →
          match takeCodeword (if b then r else l) s.ahead with
          | some (c, rest) => ∃ u, fetchCodeword fuel p acc s = .got (.codeword (acc ++ c)) u ∧ u.ahead = rest ∧
              u = { s with inp := { s.inp with pos := u.inp.pos }, trace := s.trace ++ bitReads c }
          | none => ∃ u, fetchCodeword fuel p acc s = .stopped (raise .truncatedStreamError 3#2 u) := by
            cases b; exacts [ihl, ihr]
        have htake : takeCodeword (.internal w l r) (b :: bs) =
            (takeCodeword (if b then r else l) bs).map fun c => (b :: c.1, c.2) := by cases b <;> rfl
        rw [htake]
        set s1 : State := { s with inp := { s.inp with pos := s.inp.pos + 1 }, trace := s.trace ++ [.inReadBits 1 (some b.toNat)] } with hs1
        have hb : decide (b.toNat = 1) = b := by cases b <;> rfl
        obtain ⟨m, k1, _, k3⟩ := hq.get
        replace k1 : s1.nodeAt (childOf n b) = some m := k1
        rw [fetchCodeword, g1]
        simp only [hb]
        rw [show s1.nodeAt p = some n from h1]
        simp only [k1]
        cases ht : (if b then r else l) with
        | leaf sym v =>
          rw [ht] at k3 hq
          obtain ⟨m', e1, e2, _⟩ := hq
          replace e1 : s1.nodeAt (childOf n b) = some m' := e1
          rw [k1] at e1; obtain rfl : m = m' := Option.some.inj e1
          simp only [takeCodeword, Option.map_some, e2, if_true]
          exact ⟨s1, rfl, g2, rfl⟩
        | internal w' l' r' =>
          have hq' := hq
          rw [ht] at hq'
          obtain ⟨m', e1, e2, _⟩ := hq'
          replace e1 : s1.nodeAt (childOf n b) = some m' := e1
          rw [k1] at e1; obtain rfl : m = m' := Option.some.inj e1
          simp only [e2, Bool.false_eq_true, if_false]
          have ha1 : s1.ahead = bs := g2
          have := ih w' l' r' ht fuel (childOf n b) (acc ++ [b]) s1 hq
            (by rw [ha1]; rw [ha] at hf; simpa using hf)
          rw [ha1, ht] at this
          cases hk : takeCodeword (.internal w' l' r') bs with
          | none => rw [hk] at this; exact this
          | some cr =>
            rw [hk] at this
            obtain ⟨c, rest⟩ := cr
            obtain ⟨u, u1, u2, u3⟩ := this
            simp only [Option.map_some]
            refine ⟨u, by rw [u1]; simp, u2, ?_⟩
            rw [u3, hs1]; simp [bitReads]

/-! ### DECODE on any bits -/

/-- One pass writes whole bytes (R173, R176). -/
theorem decodePass_out {b : Bool} {s t : State} (h : decodePass b s = .go t ∨ decodePass b s = .raised t) :
    ∃ bytes : List Byte, t.out.bits = s.out.bits ++ bitsOfBytes bytes := by
  unfold decodePass at h
  split at h
  · simp at h
  simp only at h
  split at h
  · refine ⟨[], ?_⟩
    obtain ⟨u, r1, r2⟩ := raise_spec .corruptTreeError 0#2 { s with cur := childOf ‹Node› b }
    rw [r1] at h
    simp only [Act.raised.injEq, reduceCtorEq, false_or] at h
    subst h
    simp [r2]
  split at h
  · simp at h
  split at h
  · split at h
    · simp only [Act.go.injEq, reduceCtorEq, or_false] at h
      subst h; exact ⟨[], by simp⟩
    · rename_i m _ _ _
      unfold outWriteBits at h
      split at h
      · simp at h
      · simp only [Act.go_andThen, Act.go.injEq, reduceCtorEq, or_false] at h
        subst h
        refine ⟨[BitVec.ofNat 8 (literalOf m.sym)], ?_⟩
        simp [State.record, literalOf]
  · simp only [Act.go.injEq, reduceCtorEq, or_false] at h
    subst h; exact ⟨[], by simp⟩

theorem decodeLoop_out (fuel : Nat) : ∀ {s t : State}, decodeLoop fuel s = .go t ∨ decodeLoop fuel s = .raised t →
    ∃ bytes : List Byte, t.out.bits = s.out.bits ++ bitsOfBytes bytes := by
  induction fuel with
  | zero => intro s t h; simp [decodeLoop] at h
  | succ fuel ih =>
    intro s t h
    have ho := inReadBits_out 1 s
    rw [decodeLoop] at h
    split at h
    · rename_i u hu
      rw [hu] at ho
      simp only at ho
      obtain ⟨t', r1, r2⟩ := raise_spec .truncatedStreamError 3#2 u
      rw [r1] at h
      simp only [Act.raised.injEq, reduceCtorEq, false_or] at h
      subst h
      exact ⟨[], by simp [r2, ho]⟩
    · rename_i v u hu
      rw [hu] at ho
      simp only at ho
      cases hp : decodePass (decide (v = 1)) u with
      | go x =>
        obtain ⟨b1, h1⟩ := decodePass_out (.inl hp)
        rw [hp, Act.go_andThen] at h
        split at h
        · simp only [Act.go.injEq, reduceCtorEq, or_false] at h
          subst h; exact ⟨b1, by rw [h1, ho]⟩
        · obtain ⟨b2, h2⟩ := ih h
          exact ⟨b1 ++ b2, by rw [h2, h1, ho, bitsOfBytes_append, List.append_assoc]⟩
      | raised x =>
        obtain ⟨b1, h1⟩ := decodePass_out (.inr hp)
        rw [hp] at h
        simp only [Act.raised_andThen, Act.raised.injEq, reduceCtorEq, false_or] at h
        subst h; exact ⟨b1, by rw [h1, ho]⟩
      | fault e x => rw [hp] at h; simp at h
      | refuse r x => rw [hp] at h; simp at h

theorem decodePass_ends {b : Bool} {s : State} (hs : Running .decode s) : EndsIn (fun t => Calm s t ∧ t.inp = s.inp ∧
    (t.expect = s.expect ∨ t.expect = .unit)) (decodePass b s) := by
  unfold decodePass
  split
  · trivial
  · rename_i n _
    simp only
    have hc : Calm s { s with cur := childOf n b } := ⟨rfl, rfl, rfl, rfl, rfl, rfl, rfl, rfl, rfl, rfl, rfl, rfl, rfl, rfl, Nat.le_refl _, id⟩
    split
    · exact raise_endsIn (by show (_, errinfoOf s.phase _) ∈ _; rw [hs.phase]; decide) hs.pos
    · split
      · trivial
      · split
        · split
          · exact ⟨⟨rfl, rfl, rfl, rfl, rfl, rfl, rfl, rfl, rfl, rfl, rfl, rfl, rfl, rfl, Nat.le_refl _, id⟩, rfl, .inr rfl⟩
          · refine (Writes.write _ _ _).endsIn.andThen ?_
            rintro t ⟨g1, g2, g3⟩
            have hu : Calm t { t with cur := t.root } := ⟨rfl, rfl, rfl, rfl, rfl, rfl, rfl, rfl, rfl, rfl, rfl, rfl, rfl, rfl, Nat.le_refl _, id⟩
            exact ⟨(hc.trans g1).trans hu, g3, .inl g2⟩
        · exact ⟨hc, rfl, .inl rfl⟩

theorem decodeLoop_ends (fuel : Nat) : ∀ s, Running .decode s → EndsIn (fun t => Calm s t ∧
    t.expect = .unit) (decodeLoop fuel s) := by
  induction fuel with
  | zero => intro s _; trivial
  | succ fuel ih =>
    intro s hs
    rw [decodeLoop]
    cases h : inReadBits 1 s with
    | mk r u =>
      obtain ⟨c1, c2, c3, c4⟩ := inReadBits_calm h
      cases r with
      | none => exact raise_endsIn (by rw [c1.phase, hs.phase]; decide) (c1.posle hs.pos)
      | some r =>
        simp only
        refine (decodePass_ends (hs.calm c1)).andThen ?_
        rintro t ⟨g1, g2, g3⟩
        split
        · exact ⟨c1.trans g1, ‹_›⟩
        · exact (ih t ((hs.calm c1).calm g1)).mono fun x hx => ⟨(c1.trans g1).trans hx.1, hx.2⟩

theorem decodeAct_ends {s : State} (hs : Running .decode s) : EndsIn (fun t => Calm s t ∧ t.expect = .unit) (decodeAct s) := by
  unfold decodeAct
  simp only
  split
  · exact raise_endsIn (by show (_, errinfoOf s.phase _) ∈ _; rw [hs.phase]; decide) hs.pos
  split
  · trivial
  split
  · exact ⟨⟨rfl, rfl, rfl, rfl, rfl, rfl, rfl, rfl, rfl, rfl, rfl, rfl, rfl, rfl, Nat.le_refl _, id⟩, rfl⟩
  · have hc : Calm s { s with cur := s.root, expect := .codeword } := ⟨rfl, rfl, rfl, rfl, rfl, rfl, rfl, rfl, rfl, rfl, rfl, rfl, rfl, rfl, Nat.le_refl _, id⟩
    exact (decodeLoop_ends _ _ (hs.calm hc)).mono fun x hx => ⟨hc.trans hx.1, hx.2⟩

theorem decodeBits_ends (c : List Bool) : ∀ s, Running .decode s → EndsIn (fun t => Calm s t ∧
    (t.expect = s.expect ∨ t.expect = .unit)) (decodeBits c s) := by
  induction c with
  | nil => intro s _; exact ⟨Calm.refl s, .inl rfl⟩
  | cons b c ih =>
    intro s hs
    rw [decodeBits]
    refine (decodePass_ends hs).andThen ?_
    rintro t ⟨g1, g2, g3⟩
    split
    · exact ⟨g1, .inr ‹_›⟩
    · refine (ih t (hs.calm g1)).mono fun x hx => ⟨g1.trans hx.1, ?_⟩
      rcases hx.2 with h | h
      · rcases g3 with h' | h'
        · exact .inl (h.trans h')
        · exact .inr (h.trans h')
      · exact .inr h

/-- The cursor stands on a node of a tree, and a leaf there leads to NULL (R175). -/
def CursorInside (s : State) : Prop := ∃ t n, Spells s.node s.cur t ∧ s.node[s.cur.toNat]? = some n ∧
    (n.leaf = true → n.left = Config.null ∧ n.right = Config.null)

theorem decodePass_noStop {b : Bool} {s : State} (hr : ∀ u : State, u.node = s.node → u.root = s.root →
    CursorInside { u with cur := u.root }) (h : CursorInside s) :
    NoStop (decodePass b s) ∧ ∀ t, decodePass b s = .go t → CursorInside t ∨ t.expect = .unit := by
  obtain ⟨tr, n, h1, h2, h3⟩ := h
  rw [decodePass]
  simp only [State.nodeAt, h2]
  split
  · exact ⟨raise_noStop _ _ _, fun t ht => by simp [raise] at ht⟩
  · rename_i hne
    have hleaf : n.leaf = false := by
      cases hh : n.leaf
      · rfl
      · obtain ⟨e1, e2⟩ := h3 hh
        exact absurd (by cases b <;> simp [childOf, e1, e2]) hne
    cases tr with
    | leaf sym w =>
      obtain ⟨n', g1, g2, _⟩ := h1
      rw [h2] at g1; obtain rfl := Option.some.inj g1
      rw [hleaf] at g2; simp at g2
    | internal w l r =>
      obtain ⟨n', g1, g2, g3, g4⟩ := h1
      rw [h2] at g1; obtain rfl := Option.some.inj g1
      have hq : Spells s.node (childOf n b) (if b then r else l) := by cases b <;> simpa [childOf]
      obtain ⟨m, k1, k2, k3⟩ := hq.get
      simp only [k1]
      split
      · split
        · exact ⟨trivial, fun t ht => .inr (by obtain rfl := Act.go.inj ht; rfl)⟩
        · rcases Writes.write 8 (literalOf m.sym) { s with cur := childOf n b } with ⟨x, e1, e2, e3, e4, e5⟩ | ⟨x, e⟩
          · rw [e1]
            refine ⟨trivial, fun t ht => .inl ?_⟩
            obtain rfl := Act.go.inj ht
            exact hr x e2.node e2.root
          · rw [e]; exact ⟨rfl, fun t ht => by simp at ht⟩
      · rename_i hml
        refine ⟨trivial, fun t ht => .inl ?_⟩
        obtain rfl := Act.go.inj ht
        exact ⟨_, m, hq, k1, fun h => absurd h hml⟩

theorem decodeLoop_noStop (fuel : Nat) : ∀ s, Running .decode s → s.unread < fuel → (∀ u : State, u.node = s.node →
    u.root = s.root → CursorInside { u with cur := u.root }) → CursorInside s → NoStop (decodeLoop fuel s) := by
  induction fuel with
  | zero => intro s _ h; omega
  | succ fuel ih =>
    intro s hs hf hr hc
    rw [decodeLoop]
    cases h : inReadBits 1 s with
    | mk r u =>
      obtain ⟨c1, c2, c3, c4⟩ := inReadBits_calm h
      cases r with
      | none => exact raise_noStop _ _ _
      | some r =>
        simp only
        have hr' : ∀ x : State, x.node = u.node → x.root = u.root → CursorInside { x with cur := x.root } := fun x h1 h2 => hr x (h1.trans c1.node) (h2.trans c1.root)
        have hcu : CursorInside u := by
          obtain ⟨t, n, g1, g2, g3⟩ := hc
          exact ⟨t, n, by rw [c1.node, c3]; exact g1, by rw [c1.node, c3]; exact g2, g3⟩
        obtain ⟨n1, n2⟩ := decodePass_noStop (b := decide (r = 1)) hr' hcu
        refine n1.andThen ?_
        intro t ht
        have he := decodePass_ends (b := decide (r = 1)) (hs.calm c1)
        rw [ht] at he
        obtain ⟨k1, k2, _⟩ := he
        split
        · trivial
        · rename_i hne
          have := c4 rfl
          refine ih t ((hs.calm c1).calm k1) (by unfold State.unread at *; rw [k2]; omega) (fun x h1 h2 => hr' x (h1.trans k1.node) (h2.trans k1.root)) ?_
          rcases n2 t ht with h | h
          · exact h
          · exact absurd h hne

theorem decodeAct_noStop {s : State} (hs : Running .decode s) (ht : s.tree.isOk = true)
    (hc : s.rootChildless = true) : NoStop (decodeAct s) := by
  obtain ⟨t, htr⟩ : ∃ t, s.tree = .ok t := by
    cases h : s.tree with
    | error e => rw [h] at ht; simp [Except.isOk, Except.toBool] at ht
    | ok t => exact ⟨t, rfl⟩
  have hsp := spells_of_tree htr
  obtain ⟨n, h1, h2, h3⟩ := hsp.get
  have hroot : ∀ u : State, u.node = s.node → u.root = s.root → CursorInside { u with cur := u.root } := by
    intro u hu1 hu2
    refine ⟨t, n, by show Spells u.node u.root t; rw [hu1, hu2]; exact hsp, by show u.node[u.root.toNat]? = _; rw [hu1, hu2]; exact h1, ?_⟩
    intro hl
    simp only [State.rootChildless, State.nodeAt, h1, hl] at hc
    simpa using hc
  unfold decodeAct
  simp only
  rw [if_neg h2]
  simp only [State.nodeAt, h1]
  split
  · trivial
  · have hcm : Calm s { s with cur := s.root, expect := .codeword } := ⟨rfl, rfl, rfl, rfl, rfl, rfl, rfl, rfl, rfl, rfl, rfl, rfl, rfl, rfl, Nat.le_refl _, id⟩
    exact decodeLoop_noStop _ { s with cur := s.root, expect := .codeword } (hs.calm hcm) (Nat.lt_succ_self _) (fun u h1 h2 => hroot u h1 h2) (hroot s rfl rfl)

theorem fetchCodeword_ends (fuel : Nat) : ∀ (p : Ptr) (acc : List Bool) (s : State), Running .decode s →
    (∃ c t, fetchCodeword fuel p acc s = .got (.codeword c) t ∧ Calm s t ∧
    t.expect = s.expect) ∨ ∃ a, fetchCodeword fuel p acc s = .stopped a ∧ ∀ P, EndsIn P a := by
  induction fuel with
  | zero => intro p acc s _; exact .inr ⟨_, rfl, fun P => trivial⟩
  | succ fuel ih =>
    intro p acc s hs
    rw [fetchCodeword]
    cases h : inReadBits 1 s with
    | mk r u =>
      obtain ⟨c1, c2, c3, c4⟩ := inReadBits_calm h
      cases r with
      | none => exact .inr ⟨_, rfl, fun P => raise_endsIn (by rw [c1.phase, hs.phase]; decide) (c1.posle hs.pos)⟩
      | some r =>
        simp only
        split
        · exact .inr ⟨_, rfl, fun P => trivial⟩
        · split
          · exact .inl ⟨_, u, rfl, c1, c2⟩
          · split
            · exact .inl ⟨_, u, rfl, c1, c2⟩
            · rcases ih (childOf _ _) (acc ++ [decide (r = 1)]) u (hs.calm c1) with ⟨c, t, g1, g2, g3⟩ | g
              · exact .inl ⟨c, t, g1, c1.trans g2, g3.trans c2⟩
              · exact .inr g

end Sys2Proof.Machine
end

