-- ==== Sys2Proof/Laws/PerInstr.lean ====
section
/-! SUPPORT. A statement about every instruction as syntax: the number of bits of its encoding. -/

namespace Sys2Proof.Laws

open Sys2Proof

/-- The width the opcode table gives each row (30_encoding.md R71 to R73, R76, R79, R80, R83). -/
def EncodedWidth.width : Instr → Nat
  | .compress => 8
  | .decompress => 8
  | .count => 4
  | .build => 4
  | .gencodes => 4
  | .wrhdr => 4
  | .encode => 4
  | .rdhdr => 4
  | .decode => 4
  | .rewind => 4
  | .close => 4
  | .marker _ => 32
  | .nodeInternal => 1
  | .nodeLeaf _ => 10
  | .codeword bits => bits.length
  | .pad n => n

/-- A well-formed instruction's encoding has the width of its row, at most `CODE_MAX` = 256 bits. -/
def EncodedWidth.Statement (i : Instr) : Prop :=
  i.WellFormed → (encode i).length = EncodedWidth.width i ∧ (encode i).length ≤ 256

theorem EncodedWidth.compress : EncodedWidth.Statement .compress := fun _ => by decide
theorem EncodedWidth.decompress : EncodedWidth.Statement .decompress := fun _ => by decide
theorem EncodedWidth.count : EncodedWidth.Statement .count := fun _ => by decide
theorem EncodedWidth.build : EncodedWidth.Statement .build := fun _ => by decide
theorem EncodedWidth.gencodes : EncodedWidth.Statement .gencodes := fun _ => by decide
theorem EncodedWidth.wrhdr : EncodedWidth.Statement .wrhdr := fun _ => by decide
theorem EncodedWidth.encode : EncodedWidth.Statement .encode := fun _ => by decide
theorem EncodedWidth.rdhdr : EncodedWidth.Statement .rdhdr := fun _ => by decide
theorem EncodedWidth.decode : EncodedWidth.Statement .decode := fun _ => by decide
theorem EncodedWidth.rewind : EncodedWidth.Statement .rewind := fun _ => by decide
theorem EncodedWidth.close : EncodedWidth.Statement .close := fun _ => by decide
theorem EncodedWidth.marker (m : Mark) : EncodedWidth.Statement (.marker m) := fun _ => by
  simp [Sys2Proof.encode, EncodedWidth.width]
theorem EncodedWidth.nodeInternal : EncodedWidth.Statement .nodeInternal := fun _ => by decide
theorem EncodedWidth.nodeLeaf (sym : Sym) : EncodedWidth.Statement (.nodeLeaf sym) := fun _ => by
  simp [Sys2Proof.encode, EncodedWidth.width]
theorem EncodedWidth.codeword (bits : List Bool) : EncodedWidth.Statement (.codeword bits) := fun h => by
  have : bits.length ≤ 256 := of_decide_eq_true h
  simpa [Sys2Proof.encode, EncodedWidth.width] using this
theorem EncodedWidth.pad (n : Nat) : EncodedWidth.Statement (.pad n) := fun h => by
  have : n ≤ 7 := of_decide_eq_true h
  simp [Sys2Proof.encode, EncodedWidth.width]
  omega

end Sys2Proof.Laws
end

