-- ==== Sys2Proof/Laws/Sequencer.lean ====
section
/-! SUPPORT. The sequencer and the host (40_commands.md, 70_reset_and_hazards.md): what follows an operation, and what an abandoned one
leaves on the transports. -/

namespace Sys2Proof.Machine

theorem onNext_next {f : State → State} {o : Host.Outcome State Fault Refusal} {t : State} (h : onNext f o = .next t) : ∃ u,
    o = .next u ∧ t = f u := by
  cases o with
  | next u => exact ⟨u, rfl, by injection h with h; exact h.symm⟩
  | fault e => simp [onNext] at h
  | refused r => simp [onNext] at h

theorem decodePhase_rest {s : State} {i : Instr} (h : decodePhase s.phase.code = .ok i) : s.phase.busy = true := by
  cases hp : s.phase <;> rw [hp] at h <;> first | rfl | (simp [Phase.code, decodePhase] at h)

theorem advance_faulted {t : State} (h : FaultTaken t) : advancePhase t = t ∧ advanceIfEnded t = t := by
  have : advancePhase t = t := by simp [advancePhase, h.phase]
  exact ⟨this, by simp [advanceIfEnded, h.expect, this]⟩

theorem applyTxn_trace (t : Txn) (s : State) : (applyTxn t s).trace = s.trace ++ [t] := by
  unfold applyTxn
  split <;> rfl

theorem foldl_applyTxn_trace (l : List Txn) : ∀ s : State, (l.foldl (fun u t => applyTxn t u) s).trace = s.trace ++ l := by
  induction l with
  | nil => intro s; simp
  | cons t l ih => intro s; rw [List.foldl_cons, ih, applyTxn_trace]; simp

/-- A transaction changes only the transports, the record and the counter (R51 to R55). -/
theorem applyTxn_frame (x : Txn) (s : State) : (applyTxn x s).magic = s.magic ∧ (applyTxn x s).host = s.host := by
  unfold applyTxn
  split <;> exact ⟨rfl, rfl⟩

theorem foldl_applyTxn_frame (l : List Txn) : ∀ s : State, (l.foldl (fun u t => applyTxn t u) s).magic = s.magic ∧
    (l.foldl (fun u t => applyTxn t u) s).host = s.host := by
  induction l with
  | nil => intro s; exact ⟨rfl, rfl⟩
  | cons t l ih => intro s; exact ⟨(ih _).1.trans (applyTxn_frame t s).1, (ih _).2.trans (applyTxn_frame t s).2⟩

theorem applyTxn_pos {t : Txn} {s : State} (h : s.inp.pos ≤ s.inp.bits.length) : (applyTxn t s).inp.pos ≤
    (applyTxn t s).inp.bits.length := by
  unfold applyTxn
  split
  · exact Nat.min_le_right _ _
  · exact (eosPos_range h).2
  · exact Nat.zero_le _
  · exact h
  · exact h

theorem abandon_pos {s : State} (h : s.inp.pos ≤ s.inp.bits.length) : (abandon s).inp.pos ≤ (abandon s).inp.bits.length := by
  unfold abandon
  have : ∀ (l : List Txn) (u : State), u.inp.pos ≤ u.inp.bits.length → (l.foldl (fun u t => applyTxn t u) u).inp.pos ≤ (l.foldl (fun u t => applyTxn t u) u).inp.bits.length := by
    intro l
    induction l with
    | nil => intro u h; exact h
    | cons t l ih => intro u h; exact ih _ (applyTxn_pos h)
  exact this _ _ h

end Sys2Proof.Machine
end

