-- ==== Sys2Proof/Tests/Slice0.lean ====
section
/-! SUPPORT. The model's own tests: ill-formed terms are refused, words written out from the spec's encodings decode to what they stand
for, one or two steps an instruction with results from 95_test_vectors.md, and a witness for the hypotheses of every obligation. -/

namespace Sys2Proof.Tests

open Sys2Proof Sys2Proof.Machine

/-! ### Small states -/

/-- A machine in a phase of a running command, with these bits on IN. -/
def running (p : Phase) (bits : List Bool) : State :=
  { State.reset with phase := p, status := 1#8, inp := { bits := bits, pos := 0, second := none } }

/-- The single-leaf tree of V-A in the node memory. -/
def withLeaf (sym : Sym) (s : State) : State :=
  { s.setNode 0#10 (leafNode sym 1#41) with root := 0#10, nalloc := 1#10, tv := true }

/-- The tree of V-B, Internal(5, Leaf(256, 1), Leaf(65, 4)), in the node memory. -/
def withPair (s : State) : State :=
  { ((s.setNode 0#10 (leafNode 65#9 4#41)).setNode 1#10 (leafNode 256#9 1#41)).setNode 2#10
      { leaf := false, sym := 0#9, weight := 5#41, left := 1#10, right := 0#10 } with
    root := 2#10, nalloc := 3#10, tv := true }

/-- The codes of V-B: the sentinel's 0, byte 65's 1. -/
def withCodes (s : State) : State := { (s.setCode 65 [true]).setCode 256 [false] with cv := true }

/-- The tree of V-B, as an abstract tree. -/
def pair : Tree := .internal 5 (.leaf 256#9 1) (.leaf 65#9 4)

/-- The state an outcome gives, the reset state where it stops. -/
def after : Host.Outcome State Fault Refusal → State
  | .next s => s
  | .fault _ => State.reset
  | .refused _ => State.reset

/-- Whether an outcome is a next state. -/
def goesOn : Host.Outcome State Fault Refusal → Bool
  | .next _ => true
  | .fault _ => false
  | .refused _ => false

theorem next_after {o : Host.Outcome State Fault Refusal} (h : goesOn o = true) : o = .next (after o) := by
  cases o <;> first | rfl | exact absurd h (by simp [goesOn])

theorem tree_of_toOption {x : Except Fault Tree} {t : Tree} (h : x.toOption = some t) : x = .ok t := by
  cases x with
  | error e => exact absurd h (by simp [Except.toOption])
  | ok u => simpa [Except.toOption] using h

/-- The node memory of V-B holds the tree of V-B, whatever the transports hold. -/
theorem withPair_tree (p : Phase) (bits : List Bool) : (withPair (running p bits)).tree = .ok pair :=
  tree_of_toOption (show (withPair State.reset).tree.toOption = some pair by decide +kernel)

/-! ### Ill-formed terms are refused -/

theorem test_wf_leaf_257 : ¬ (Instr.nodeLeaf 257#9).WellFormed := by decide
theorem test_wf_leaf_256 : (Instr.nodeLeaf 256#9).WellFormed := by decide
theorem test_wf_codeword_257_bits : ¬ (Instr.codeword (List.replicate 257 true)).WellFormed := by decide +kernel
theorem test_wf_codeword_256_bits : (Instr.codeword (List.replicate 256 true)).WellFormed := by decide +kernel
theorem test_wf_pad_8 : ¬ (Instr.pad 8).WellFormed := by decide
theorem test_wf_pad_7 : (Instr.pad 7).WellFormed := by decide

/-! ### Decoding: words written out bit by bit from 30_encoding.md -/

/-- R80: `0000 0000`. -/
theorem test_decode_compress :
    decodeWhole .cmd [false, false, false, false, false, false, false, false] = some .compress := by decide
/-- R80: `0000 0001`. -/
theorem test_decode_decompress :
    decodeWhole .cmd [false, false, false, false, false, false, false, true] = some .decompress := by decide
/-- R82: `0000 0010` is reserved. -/
theorem test_decode_reserved_command :
    decodeWhole .cmd [false, false, false, false, false, false, true, false] = none := by decide
/-- R79: `0001`. -/
theorem test_decode_count : decodeWhole .phase [false, false, false, true] = some .count := by decide
/-- R79: `0010`. -/
theorem test_decode_build : decodeWhole .phase [false, false, true, false] = some .build := by decide
/-- R79: `0011`. -/
theorem test_decode_gencodes : decodeWhole .phase [false, false, true, true] = some .gencodes := by decide
/-- R79: `0100`. -/
theorem test_decode_wrhdr : decodeWhole .phase [false, true, false, false] = some .wrhdr := by decide
/-- R79: `0101`. -/
theorem test_decode_encode : decodeWhole .phase [false, true, false, true] = some .encode := by decide
/-- R79: `0110`. -/
theorem test_decode_rdhdr : decodeWhole .phase [false, true, true, false] = some .rdhdr := by decide
/-- R79: `0111`. -/
theorem test_decode_decode : decodeWhole .phase [false, true, true, true] = some .decode := by decide
/-- R79: `1000`. -/
theorem test_decode_rewind : decodeWhole .phase [true, false, false, false] = some .rewind := by decide
/-- R79: `1001`. -/
theorem test_decode_close : decodeWhole .phase [true, false, false, true] = some .close := by decide
/-- R79: `0000` and `1111` run nothing; R82: `1010` and `1110` are unused. -/
theorem test_decode_rest_and_unused_phases :
    decodeWhole .phase [false, false, false, false] = none ∧ decodeWhole .phase [true, true, true, true] = none ∧
    decodeWhole .phase [true, false, true, false] = none ∧ decodeWhole .phase [true, true, true, false] = none := by decide
/-- R71: `FA CE 82 01`, most significant bit first. -/
theorem test_decode_marker :
    decodeWhole .marker
      [true, true, true, true, true, false, true, false, true, true, false, false, true, true, true, false,
       true, false, false, false, false, false, true, false, false, false, false, false, false, false, false, true] =
      some (.marker 0xFACE8201#32) := by decide
/-- R72: the tag `0`. -/
theorem test_decode_internal : decodeWhole .node [false] = some .nodeInternal := by decide
/-- R73: byte 65 is `1001000001`. -/
theorem test_decode_leaf_65 :
    decodeWhole .node [true, false, false, true, false, false, false, false, false, true] = some (.nodeLeaf 65#9) := by decide
/-- R73: the sentinel is `1100000000`. -/
theorem test_decode_leaf_sentinel :
    decodeWhole .node [true, true, false, false, false, false, false, false, false, false] = some (.nodeLeaf 256#9) := by decide
/-- R83, V-B: in the tree of V-B the bits `1` are byte 65's codeword; what follows is not read. -/
theorem test_decode_codeword :
    (decode (.codeword pair) [true, false]).toOption = some (.codeword [true], [false]) := by decide
/-- R76, V-B: six bits stand before the next whole byte. -/
theorem test_decode_pad :
    decodeWhole .pad [false, false, false, false, false, false] = some (.pad 6) := by decide

/-- R7: `NODE_CAP` = 2 ALPH - 1, `CODE_MAX` = ALPH - 1, and `LEN_W` bits hold every length up to it. -/
theorem test_parameters :
    Config.alph = Config.eofSym + 1 ∧ Config.nodeCap = 2 * Config.alph - 1 ∧ Config.codeMax = Config.alph - 1 ∧
    Config.codeMax < 2 ^ Config.lenW := by decide
/-- R23: the code 1 of byte 65 stands in the most significant bit of its field. -/
theorem test_code_fields :
    ((withCodes State.reset).codeLenAt 65, (withCodes State.reset).codeBitsAt 65) = (1#9, BitVec.ofNat 256 (2 ^ 255)) := by
  decide +kernel

/-! ### One step an instruction -/

/-- R100: the command is accepted from reset. -/
theorem test_compress_accepted :
    (after (exec .compress State.reset)).phase = .count ∧ (after (exec .compress State.reset)).status = 1#8 := by decide
/-- R100 (a): it is ignored while BUSY is 1. -/
theorem test_compress_ignored : (after (exec .compress (running .decode []))).phase = .decode := by decide
/-- R100, R102. -/
theorem test_decompress_accepted : (after (exec .decompress State.reset)).phase = .rdhdr := by decide
/-- V-B: four times byte 65. -/
theorem test_count_scenario_b :
    ((after (exec .count (running .count (bitsOfBytes [65#8, 65#8, 65#8, 65#8])))).freqAt 65,
      (after (exec .count (running .count (bitsOfBytes [65#8, 65#8, 65#8, 65#8])))).freqAt 256,
      (after (exec .count (running .count (bitsOfBytes [65#8, 65#8, 65#8, 65#8])))).fv) = (4#32, 1#32, true) := by
  decide +kernel
/-- V-K2: a tie between byte 65 and the sentinel: the literal is removed first, NALLOC 3, ROOT 2. -/
theorem test_build_tie :
    (let t := after (exec .build ({ State.reset with fv := true }.setFreq 65 1#32))
     (t.nalloc, t.root, (t.nodeAt 2#10).map Node.left, (t.nodeAt 0#10).map Node.sym, t.tv)) =
      (3#10, 2#10, some 0#10, some 65#9, true) := by
  decide +kernel
/-- V-B: the sentinel's code is 0, byte 65's is 1. -/
theorem test_gencodes_scenario_b :
    (let t := after (exec .gencodes (withPair State.reset))
     (t.codeAt 256, t.codeAt 65, t.codevAt 65, t.codevAt 66)) = ([false], [true], true, false) := by
  decide +kernel
/-- V-B: the header `FA CE 82 01`, `0`, `1 100000000`, `1 001000001`. -/
theorem test_wrhdr_scenario_b :
    (after (exec .wrhdr (withPair State.reset))).out.bits =
      bitsOfBytes [0xFA#8, 0xCE#8, 0x82#8, 0x01#8] ++
        [false, true, true, false, false, false, false, false, false, false, false,
         true, false, false, true, false, false, false, false, false, true] := by
  decide +kernel
/-- V-B: the payload `1 1 1 1 0`. -/
theorem test_encode_scenario_b :
    (after (exec .encode (withCodes (running .encode (bitsOfBytes [65#8, 65#8, 65#8, 65#8]))))).out.bits =
      [true, true, true, true, false] := by
  decide +kernel
/-- R163: byte 66 has no code: MissingCode, ERR 5, ERRINFO 0x14. -/
theorem test_encode_missing_code :
    (let t := after (exec .encode (withCodes (running .encode (bitsOfBytes [65#8, 66#8]))))
     (t.status, t.err, t.errinfo, t.out.bits)) = (4#8, 5#8, 0x14#8, [true]) := by
  decide +kernel
/-- V-A: RDHDR of `FA CE 82 01 C0 00`: IN.pos 42, one node, the sentinel's leaf. -/
theorem test_rdhdr_scenario_a :
    (let t := after (exec .rdhdr (running .rdhdr (bitsOfBytes [0xFA#8, 0xCE#8, 0x82#8, 0x01#8, 0xC0#8, 0x00#8])))
     (t.inp.pos, t.nalloc, t.root, (t.nodeAt 0#10).map Node.sym, t.tv)) = (42, 1#10, 0#10, some 256#9, true) := by
  decide +kernel
/-- V-C: FormatError after 32 bits. -/
theorem test_rdhdr_scenario_c :
    (let t := after (exec .rdhdr (running .rdhdr (bitsOfBytes [0x00#8, 0x00#8, 0x00#8, 0x00#8, 0xC0#8, 0x00#8])))
     (t.status, t.err, t.errinfo, t.inp.pos, t.trace.length)) = (4#8, 1#8, 0x18#8, 32, 1) := by
  decide +kernel
/-- V-B: the payload decodes to the four bytes, and its padding is left. -/
theorem test_decode_scenario_b :
    (let t := after (exec .decode (withPair (running .decode [true, true, true, true, false, false, false])))
     (t.out.bits, t.inp.pos)) = (bitsOfBytes [65#8, 65#8, 65#8, 65#8], 5) := by
  decide +kernel
/-- V-D: the payload ends before the sentinel: TruncatedStreamError(3), the bytes written stay. -/
theorem test_decode_scenario_d :
    (let t := after (exec .decode (withPair (running .decode [true, true, true])))
     (t.status, t.err, t.errinfo, t.out.bits, t.out.closed)) =
      (4#8, 2#8, 0x1F#8, bitsOfBytes [65#8, 65#8, 65#8], false) := by
  decide +kernel
/-- R104, R53. -/
theorem test_rewind :
    (let s := running .rewind [true, false]
     (after (exec .rewind { s with inp := { s.inp with pos := 2 } })).inp) =
      { bits := [true, false], pos := 0, second := none } := by decide
/-- R57: the payload of V-B alone, closed, is the byte `F0`. -/
theorem test_close_pads :
    (after (exec .close { State.reset with out := { bits := [true, true, true, true, false], closed := false } })).out =
      { bits := bitsOfBytes [0xF0#8], closed := true } := by decide
/-- R55: whole bytes get no padding. -/
theorem test_close_whole_byte :
    (after (exec .close { State.reset with out := { bits := bitsOfBytes [0x80#8], closed := false } })).out =
      { bits := bitsOfBytes [0x80#8], closed := true } := by decide
/-- R141: one write of 32 bits. -/
theorem test_marker_written :
    (after (exec (.marker 0xFACE8201#32) (running .wrhdr []))).trace = [.outWriteBits 32 0xFACE8201] := by decide
/-- R151: another value is a FormatError. -/
theorem test_marker_foreign :
    (after (exec (.marker 0xFACE8200#32) (running .rdhdr []))).err = 1#8 := by decide +kernel
/-- R150: a tag 0 takes index NALLOC and opens a node. -/
theorem test_internal_read :
    (let t := after (exec .nodeInternal (running .rdhdr []))
     (t.walk, t.nalloc)) = ([{ ptr := 0#10, left := none }], 1#10) := by decide
/-- R154, V-E: the 514th node is refused. -/
theorem test_internal_over_capacity :
    (let t := after (exec .nodeInternal { running .rdhdr [] with nalloc := 513#10 })
     (t.err, t.errinfo)) = (3#8, 0x1A#8) := by decide +kernel
/-- R143: the tag and the symbol are two writes. -/
theorem test_leaf_written :
    (after (exec (.nodeLeaf 256#9) (running .wrhdr []))).trace = [.outWriteBits 1 1, .outWriteBits 9 256] := by decide
/-- R154: symbol 257 is CorruptTreeError(1). -/
theorem test_leaf_257_read :
    (let t := after (exec (.nodeLeaf 257#9) (running .rdhdr []))
     (t.err, t.errinfo)) = (3#8, 0x19#8) := by decide +kernel
/-- R161: one write a bit, the root's branch first. -/
theorem test_codeword_emitted :
    (after (exec (.codeword [true, false]) (running .encode []))).trace = [.outWriteBits 1 1, .outWriteBits 1 0] := by decide
/-- R172, R173: byte 65's codeword writes the byte and returns the cursor to the root. -/
theorem test_codeword_walked :
    (let t := after (exec (.codeword [true]) { withPair (running .decode []) with cur := 2#10, expect := .codeword })
     (t.out.bits, t.cur)) = (bitsOfBytes [65#8], 2#10) := by decide +kernel
/-- R55, R76: in CLOSE the transport appends it. -/
theorem test_pad_appended : (after (exec (.pad 6) (running .close []))).out.bits.length = 6 := by decide
/-- R177: DECODE does not read it. -/
theorem test_pad_unread : exec (.pad 6) (running .decode []) = .next (running .decode []) := rfl
/-- R79, R80: the host's table words. -/
theorem test_table_words :
    decodeTableWord 8 1 = some .decompress ∧ decodeTableWord 4 6 = some .rdhdr ∧ decodeTableWord 16 0x241 = some (.nodeLeaf 65#9) ∧
    decodeTableWord 32 0xFACE8201 = some (.marker 0xFACE8201#32) := by decide
/-- R104, R102: a placed CLOSE runs as the next step, which completes the command (R103). -/
theorem test_placed_word_runs :
    (let t := after (step (State.reset.withFetchWord 4 9))
     (t.phase, t.status, t.out.closed)) = (.idle, 2#8, true) := by decide +kernel
/-- R86: an element where no unit writes or reads that kind of element is refused by name. -/
theorem test_element_out_of_place : goesOn (exec .nodeInternal State.reset) = false := by decide

/-! ### Witnesses: for every obligation with hypotheses, a state and operands that meet all of them, clause by clause -/

theorem witness_decodeOfEncode :
    (Instr.nodeLeaf 256#9).WellFormed ∧ (Instr.codeword [true, false]).WellFormed ∧ (Instr.pad 7).WellFormed ∧
    (∀ n, Instr.pad 7 = .pad n → (List.replicate 8 true).length % 8 = 0) ∧
    (∀ n, Instr.nodeLeaf 256#9 = .pad n → [true, false, true].length % 8 = 0) ∧ (65#9, [true]) ∈ pair.codes :=
  ⟨by decide, by decide, by decide, fun _ _ => by decide, fun _ h => by simp at h, by decide⟩
theorem witness_decodedBits :
    ∃ (f : Format) (bs rest : List Bool) (i : Instr), f ≠ .pad ∧ decode f bs = .ok (i, rest) :=
  ⟨.codeword pair, [true, false], [false], .codeword [true], by decide, rfl⟩
theorem witness_reservedRegisterValues :
    1 < (2#8).toNat ∧ 1 < (255#8).toNat ∧ 9 < (10#4).toNat ∧ (14#4).toNat < 15 := by decide
theorem witness_treeEncodingHasOneReading :
    (Tree.leaf 65#9 4).enc ++ [true] = (Tree.leaf 65#9 0).enc ++ [true] := rfl
theorem witness_codesArePrefixFree :
    pair.codes[0]? = some (256#9, [false]) ∧ pair.codes[1]? = some (65#9, [true]) ∧ 0 ≠ 1 := by decide
theorem witness_read :
    (∃ (n : Nat) (s : State), s.inp.pos + n ≤ s.inp.bits.length) ∧
    (∃ (n : Nat) (s : State), s.inp.pos ≤ s.inp.bits.length ∧ s.inp.bits.length < s.inp.pos + n) :=
  ⟨⟨8, running .count (bitsOfBytes [65#8]), by decide⟩, ⟨9, running .count (bitsOfBytes [65#8]), by decide, by decide⟩⟩
theorem witness_write :
    State.reset.out.closed = false ∧ (after (exec .close State.reset)).out.closed = true := by decide
theorem witness_rewind :
    State.reset.inp.second = none ∧
    (∃ (s : State) (bits : List Bool), s.inp.second = some bits) :=
  ⟨rfl, { State.reset with inp := { bits := [], pos := 0, second := some [true] } }, [true], rfl⟩
theorem witness_commandIsAccepted : State.reset.busy = false ∧ State.reset.faulted = false := by decide
theorem witness_cmdWrite :
    (running .count []).busy = true ∧ 1 < (2#8).toNat ∧ State.reset.busy = false ∧ State.reset.faulted = false := by decide
theorem witness_commandIgnored :
    (running .count []).busy = true ∧ ({ State.reset with status := 4#8, phase := .fault } : State).faulted = true := by decide
theorem witness_hostRegisters :
    ((4 : Nat) ≠ 0 ∨ 1 < (0#8).toNat) ∧ ((0 : Nat) ≠ 0 ∨ 1 < (2#8).toNat) ∧ 4 ≤ 4 := by decide
theorem witness_sequencer :
    (running .count []).phase = .count ∧ (running .build []).phase = .build ∧ (running .gencodes []).phase = .gencodes ∧
    (running .wrhdr []).phase = .wrhdr ∧ (running .rewind []).phase = .rewind ∧ (running .encode []).phase = .encode ∧
    (running .rdhdr []).phase = .rdhdr ∧ (running .decode []).phase = .decode ∧ (running .close []).phase = .close ∧
    (running .close []).faulted = false ∧ (running .fault []).phase = .fault := by decide
theorem witness_stepRunsThePhasesOperation :
    (running .close []).host = [] ∧ (running .close []).stalled = false ∧ (running .close []).expect = .unit ∧
    decodePhase (running .close []).phase.code = .ok .close := ⟨rfl, rfl, rfl, rfl⟩
theorem witness_stepRunsTheFetchedElement :
    ∃ (s t : State) (i : Instr), s.host = [] ∧ s.stalled = false ∧ s.expect ≠ .unit ∧ fetchElement s = .got i t :=
  ⟨{ running .rdhdr [false] with expect := .node }, _, .nodeInternal, rfl, rfl, by decide, rfl⟩
theorem witness_stepRunsTheHostsCommand :
    ∃ (s : State) (v : Byte) (i : Instr) (rest : List HostAction), s.phase.busy = false ∧ s.host = .write 0 v :: rest ∧
      decodeCmd v = .ok i :=
  ⟨{ State.reset with host := [.write 0 1#8, .wait] }, 1#8, .decompress, [.wait], rfl, rfl, rfl⟩
theorem witness_fetchedHeaderElement :
    (∃ (s t : State) (i : Instr), fetchMarker s = .got i t) ∧ (∃ (s t : State) (i : Instr), fetchNode s = .got i t) :=
  ⟨⟨running .rdhdr (List.replicate 32 false), _, _, rfl⟩, ⟨running .rdhdr (true :: List.replicate 9 true), _, _, rfl⟩⟩
theorem witness_restingCore :
    State.reset.host = [] ∧ State.reset.expect = .unit ∧ (State.reset.phase = .idle ∨ State.reset.phase = .fault) ∧
    (running .fault []).phase = .fault := by decide
/-- A transport that does not answer while COUNT runs, with and without a host that polls. -/
def silent (host : List HostAction) : State := { running .count [] with stalled := true, host := host }
theorem witness_restingCore_silent :
    (silent []).host = [] ∧ (silent []).stalled = true ∧
    (∃ t, (silent [.read 1]).stalled = true ∧ (silent [.read 1]).phase.busy = true ∧ (silent [.read 1]).busy = true ∧
      (silent [.read 1]).host.head? ≠ some .reset ∧ step (silent [.read 1]) = .next t) :=
  ⟨rfl, rfl, _, rfl, rfl, by decide, by decide, next_after (o := step (silent [.read 1])) (by
    show goesOn (if Config.hostFirst 0 then _ else _) = true
    split <;> rfl)⟩
theorem witness_count :
    ∃ (s : State) (bytes : List Byte) (tail : List Bool), s.inp.pos ≤ s.inp.bits.length ∧ s.ahead = bitsOfBytes bytes ++ tail ∧
      tail.length < 8 ∧ ∀ b : Byte, bytes.count b < 2 ^ 32 :=
  ⟨running .count (bitsOfBytes [65#8, 65#8] ++ List.replicate 7 true), [65#8, 65#8], List.replicate 7 true, by decide, by decide,
    by decide, fun b => Nat.lt_of_le_of_lt List.count_le_length (by decide)⟩
theorem witness_countOverflow :
    ∃ (s : State) (bytes : List Byte) (tail : List Bool) (b : Byte), s.ahead = bitsOfBytes bytes ++ tail ∧
      2 ^ 32 ≤ bytes.count b ∧ s.phase = .count :=
  ⟨running .count (bitsOfBytes (List.replicate (2 ^ 32) 0#8)), List.replicate (2 ^ 32) 0#8, [], 0#8,
    (List.append_nil _).symm, by rw [List.count_replicate_self], rfl⟩
theorem witness_removeMin :
    ([] : List QEntry) = [] ∧ ([{ ptr := 0#10, seq := 65#10 }, { ptr := 1#10, seq := 256#10 }] : List QEntry) ≠ [] := by decide
/-- R122, V-B: the sentinel, of count 1, is taken before byte 65, of count 4. -/
theorem test_removeMin :
    (withPair State.reset).removeMin [{ ptr := 0#10, seq := 65#10 }, { ptr := 1#10, seq := 256#10 }] =
      some ({ ptr := 1#10, seq := 256#10 }, [{ ptr := 0#10, seq := 65#10 }]) := by decide +kernel
theorem witness_buildMakesTheTree :
    ∃ (s t : State) (p : Ptr) (n : Node), exec .build s = .next t ∧ p.toNat < t.nalloc.toNat ∧ t.nodeAt p = some n ∧ n.leaf = false :=
  have h : (let t := after (exec .build ({ State.reset with fv := true }.setFreq 65 1#32))
    (t.nalloc, (t.nodeAt 2#10).map Node.leaf)) = (3#10, some false) := by decide +kernel
  ⟨_, after (exec .build ({ State.reset with fv := true }.setFreq 65 1#32)), 2#10, _, rfl,
    by rw [(Prod.mk.inj h).1]; decide, Option.eq_some_of_isSome (by decide +kernel), by decide +kernel⟩
theorem witness_buildDependsOnTheCountsAlone :
    ∃ s s' t t' : State, (∀ sym, sym ≤ 256 → s.freqAt sym = s'.freqAt sym) ∧ exec .build s = .next t ∧ exec .build s' = .next t' :=
  ⟨State.reset, { State.reset with free := 7 }, _, _, fun _ _ => rfl, rfl, rfl⟩
theorem witness_merge :
    (∃ (s : State) (a b : QEntry) (q1 q2 : List QEntry), s.removeMin s.q = some (a, q1) ∧ s.removeMin q1 = some (b, q2)) ∧
    (∃ (s : State) (a b : QEntry), s.nalloc.toNat < Config.nodeCap ∧ s.weightOf a + s.weightOf b < 2 ^ 41 ∧ s.k.toNat < 256) :=
  ⟨⟨{ withPair State.reset with q := [{ ptr := 0#10, seq := 65#10 }, { ptr := 1#10, seq := 256#10 }] }, { ptr := 1#10, seq := 256#10 },
      { ptr := 0#10, seq := 65#10 }, [{ ptr := 0#10, seq := 65#10 }], [], by decide +kernel, by decide +kernel⟩,
    ⟨{ withPair State.reset with nalloc := 512#10, k := 255#9 }, { ptr := 1#10, seq := 256#10 }, { ptr := 0#10, seq := 65#10 },
      by decide +kernel, by decide +kernel, by decide +kernel⟩⟩
/-- The node memory of V-B holds the tree of V-B: the hypothesis of GENCODES, WRHDR and DECODE. -/
theorem witness_tree (p : Phase) : (withPair (running p [])).tree = .ok pair := withPair_tree p []
theorem witness_gencodes :
    pair.codes = [(256#9, [false])] ++ (65#9, [true]) :: [] ∧
    (∀ c ∈ ([] : List (Sym × List Bool)), c.1 ≠ 65#9) := by decide
theorem witness_wrhdr : (withPair State.reset).out.closed = false := rfl
theorem witness_headerSelfDescription :
    ∃ (s : State) (t : Tree) (rest : List Bool), s.ahead = bitsOf 32 s.magic.toNat ++ t.enc ++ rest ∧
      t.symbols.length ≤ 257 ∧ ∀ sym ∈ t.symbols, sym.toNat ≤ 256 :=
  ⟨running .rdhdr (bitsOf 32 0xFACE8201 ++ pair.enc ++ [true, true]), pair, [true, true], by decide, by decide, by decide⟩
theorem witness_foreignMarker :
    ∃ (s : State) (m : Nat) (rest : List Bool), s.ahead = bitsOf 32 m ++ rest ∧ m < 2 ^ 32 ∧ m ≠ s.magic.toNat ∧
      s.phase = .rdhdr :=
  ⟨running .rdhdr (bitsOf 32 0xFACE8200 ++ [true]), 0xFACE8200, [true], by decide, by decide, by decide, rfl⟩
/-- A header's bits: the default marker and these nodes. -/
def headerOf (nodes : List (Option Sym)) (rest : List Bool) : State :=
  running .rdhdr (bitsOf 32 0xFACE8201 ++ (nodes.flatMap nodeBits ++ rest))
/-- `n` internal nodes and the sentinel's leaf: they announce `n` subtrees more. -/
def comb (n : Nat) : List (Option Sym) := List.replicate n none ++ [some 256#9]
theorem comb_symbols {n : Nat} {sym : Sym} (h : some sym ∈ comb n) : sym.toNat ≤ 256 := by
  have : sym = 256#9 := by simpa [comb, List.mem_replicate] using h
  subst this; decide
theorem witness_truncatedHeader :
    (∃ s : State, s.phase = .rdhdr ∧ s.ahead.length < 32) ∧
    (∃ (s : State) (nodes : List (Option Sym)), s.phase = .rdhdr ∧ s.ahead = bitsOf 32 s.magic.toNat ++ nodes.flatMap nodeBits ∧
      nodes.length < 513 ∧ (∀ sym, some sym ∈ nodes → sym.toNat ≤ 256) ∧ 0 < subtreesLeft 1 nodes) ∧
    (∃ (s : State) (nodes : List (Option Sym)) (p : List Bool), s.phase = .rdhdr ∧
      s.ahead = bitsOf 32 s.magic.toNat ++ (nodes.flatMap nodeBits ++ true :: p) ∧ p.length < 9 ∧ nodes.length < 513 ∧
      (∀ sym, some sym ∈ nodes → sym.toNat ≤ 256) ∧ 0 < subtreesLeft 1 nodes) ∧
    (∃ (s : State) (t : Tree) (p : List Bool), s.phase = .rdhdr ∧ s.ahead = bitsOf 32 s.magic.toNat ++ p ∧ p <+: t.enc ∧ p ≠ t.enc ∧
      t.symbols.length ≤ 257 ∧ ∀ sym ∈ t.symbols, sym.toNat ≤ 256) :=
  ⟨⟨running .rdhdr (List.replicate 31 true), rfl, by decide⟩,
    ⟨running .rdhdr (bitsOf 32 0xFACE8201 ++ (comb 511).flatMap nodeBits), comb 511, rfl, rfl, by decide +kernel,
      fun _ => comb_symbols, by decide +kernel⟩,
    ⟨headerOf (comb 1) (true :: List.replicate 8 false), comb 1, List.replicate 8 false, rfl, rfl, by decide, by decide,
      fun _ => comb_symbols, by decide⟩,
    ⟨running .rdhdr (bitsOf 32 0xFACE8201 ++ [false]), pair, [false], rfl, by decide, by decide, by decide, by decide, by decide⟩⟩
theorem witness_oversizedTree :
    (∃ (s : State) (t : Tree) (rest : List Bool), s.phase = .rdhdr ∧ s.ahead = bitsOf 32 s.magic.toNat ++ t.enc ++ rest ∧
      513 < t.size ∧ ∀ sym ∈ t.symbols, sym.toNat ≤ 256) ∧
    (∃ (s : State) (nodes : List (Option Sym)) (rest : List Bool), s.phase = .rdhdr ∧
      s.ahead = bitsOf 32 s.magic.toNat ++ (nodes.flatMap nodeBits ++ rest) ∧ nodes.length = 513 ∧
      (∀ sym, some sym ∈ nodes → sym.toNat ≤ 256) ∧ 0 < subtreesLeft 1 nodes) :=
  ⟨⟨running .rdhdr (bitsOf 32 0xFACE8201 ++ (Tree.along (List.replicate 257 true)).enc), Tree.along (List.replicate 257 true), [], rfl,
      (List.append_nil _).symm, by decide +kernel, by decide +kernel⟩,
    ⟨headerOf (comb 512) [], comb 512, [], rfl, rfl, by decide +kernel, fun _ => comb_symbols, by decide +kernel⟩⟩
theorem witness_headerNodeChecks :
    (∃ (s : State) (nodes : List (Option Sym)) (v : Nat) (rest : List Bool), s.phase = .rdhdr ∧
      s.ahead = bitsOf 32 s.magic.toNat ++ (nodes.flatMap nodeBits ++ true :: (bitsOf 9 v ++ rest)) ∧ 256 < v ∧ v < 512 ∧
      nodes.length < 513 ∧ (∀ sym, some sym ∈ nodes → sym.toNat ≤ 256) ∧ 0 < subtreesLeft 1 nodes) ∧
    (∃ s : State, s.phase = .rdhdr ∧ s.expect = .node ∧ s.host = [] ∧ s.stalled = false ∧ s.nalloc.toNat = 513) ∧
    (∃ (s : State) (v : Nat) (rest : List Bool), s.phase = .rdhdr ∧ s.expect = .node ∧ s.host = [] ∧ s.stalled = false ∧
      s.nalloc.toNat < 513 ∧ 256 < v ∧ v < 512 ∧ s.ahead = true :: (bitsOf 9 v ++ rest)) :=
  ⟨⟨headerOf [] (true :: (bitsOf 9 511 ++ [])), [], 511, [], rfl, rfl, by decide, by decide, by decide, fun _ h => by simp at h,
      by decide⟩,
    ⟨{ running .rdhdr [] with expect := .node, nalloc := 513#10 }, rfl, rfl, rfl, rfl, rfl⟩,
    ⟨{ running .rdhdr (true :: bitsOf 9 257) with expect := .node, nalloc := 512#10 }, 257, [], rfl, rfl, rfl, rfl, by decide,
      by decide, by decide, by decide⟩⟩
theorem witness_encode :
    ∃ (s : State) (bytes : List Byte) (tail : List Bool), s.ahead = bitsOfBytes bytes ++ tail ∧ tail.length < 8 ∧
      (∀ b ∈ bytes, s.codevAt b.toNat = true) ∧ s.out.closed = false :=
  ⟨withCodes (running .encode (bitsOfBytes [65#8, 65#8])), [65#8, 65#8], [], by decide, by decide, by decide +kernel, rfl⟩
theorem witness_byteWithoutCode :
    ∃ (s : State) (bytes : List Byte) (b : Byte) (rest : List Bool), s.ahead = bitsOfBytes bytes ++ (bitsOf 8 b.toNat ++ rest) ∧
      (∀ x ∈ bytes, s.codevAt x.toNat = true) ∧ s.codevAt b.toNat = false ∧ s.out.closed = false ∧ s.phase = .encode :=
  ⟨withCodes (running .encode (bitsOfBytes [65#8, 66#8])), [65#8], 66#8, [], by decide, by decide +kernel, by decide +kernel, rfl,
    rfl⟩
theorem witness_decode :
    ∃ (s : State) (t : Tree) (words : List (Sym × List Bool)) (stop rest : List Bool), s.tree = .ok t ∧ s.out.closed = false ∧
      (∀ w ∈ words, w ∈ t.codes ∧ w.1.toNat < 256) ∧ (256#9, stop) ∈ t.codes ∧
      s.ahead = words.flatMap (fun w => w.2) ++ stop ++ rest :=
  ⟨withPair (running .decode [true, true, false, false]), pair, [(65#9, [true]), (65#9, [true])], [false], [false], withPair_tree _ _, rfl,
    by decide, by decide, by decide⟩
theorem witness_sentinelRoot :
    ∃ (s : State) (n : Node), s.nodeAt s.root = some n ∧ n.leaf = true ∧ n.sym = 256#9 :=
  ⟨withLeaf 256#9 State.reset, leafNode 256#9 1#41, by decide +kernel, rfl, rfl⟩
theorem witness_truncatedPayload :
    (∃ (s : State) (t : Tree) (words : List (Sym × List Bool)) (c : Sym × List Bool) (p : List Bool), s.tree = .ok t ∧
      s.out.closed = false ∧ s.phase = .decode ∧ (∀ w ∈ words, w ∈ t.codes ∧ w.1.toNat < 256) ∧ c ∈ t.codes ∧ p <+: c.2 ∧
      p ≠ c.2 ∧ s.ahead = words.flatMap (fun w => w.2) ++ p) ∧
    (∃ (s : State) (n : Node), s.phase = .decode ∧ s.nodeAt s.root = some n ∧ n.leaf = true ∧ n.sym ≠ 256#9 ∧ s.ahead = []) :=
  ⟨⟨withPair (running .decode [true, true, true]), pair, [(65#9, [true]), (65#9, [true]), (65#9, [true])], (256#9, [false]), [],
      withPair_tree _ _, rfl, rfl, by decide, by decide, by decide, by decide, by decide⟩,
    ⟨withLeaf 65#9 (running .decode []), leafNode 65#9 1#41, rfl, by decide +kernel, rfl, by decide, rfl⟩⟩
/-- An internal node with these children. -/
def inner (l r : Ptr) : Node := { leaf := false, sym := 0#9, weight := 0#41, left := l, right := r }
/-- Two internal nodes, the second the right child of the first and without a left child (R175 (b)). -/
def halfTree (bits : List Bool) : State :=
  { ((running .decode bits).setNode 0#10 (inner Config.null 1#10)).setNode 1#10 (inner Config.null 0#10) with
    root := 0#10, nalloc := 2#10, tv := true }
theorem witness_absentCursor :
    (∃ (s : State) (n : Node) (b : Bool) (rest : List Bool), s.phase = .decode ∧ s.nodeAt s.root = some n ∧ n.leaf = true ∧
      n.sym ≠ 256#9 ∧ n.left = Config.null ∧ n.right = Config.null ∧ s.ahead = b :: rest) ∧
    (∃ (s : State) (c : List Bool) (n : Node) (b : Bool) (rest : List Bool), s.phase = .decode ∧
      (∀ d, d <+: c → ∃ m, s.nodeAt (s.walkTo s.root d) = some m ∧ m.leaf = false) ∧ s.nodeAt (s.walkTo s.root c) = some n ∧
      childOf n b = Config.null ∧ s.ahead = c ++ b :: rest) ∧
    (∃ s : State, s.phase = .decode ∧ s.root = Config.null) :=
  ⟨⟨withLeaf 65#9 (running .decode [true]), leafNode 65#9 1#41, true, [], rfl, by decide +kernel, rfl, by decide, rfl, rfl, rfl⟩,
    ⟨halfTree [true, false], [true], inner Config.null 0#10, false, [], rfl,
      by
        intro d hd
        rcases (by simpa [List.prefix_cons_iff] using hd : d = [] ∨ d = [true]) with rfl | rfl
        · exact ⟨inner Config.null 1#10, by decide +kernel, rfl⟩
        · exact ⟨inner Config.null 0#10, by decide +kernel, rfl⟩,
      by decide +kernel, rfl, rfl⟩,
    ⟨running .decode [], rfl, rfl⟩⟩
theorem witness_decodeWritesWholeBytes : ∃ s t : State, exec .decode s = .next t :=
  have h : goesOn (exec .decode (withPair (running .decode [true, false]))) = true := by decide +kernel
  ⟨_, _, next_after h⟩
theorem witness_headerElementsWrite : (running .wrhdr []).phase = .wrhdr ∧ (running .wrhdr []).out.closed = false := ⟨rfl, rfl⟩
theorem witness_headerElementsBuild :
    (running .rdhdr []).phase = .rdhdr ∧ ({ running .rdhdr [] with nalloc := 512#10 } : State).nalloc.toNat < 513 ∧
    (256#9).toNat ≤ 256 ∧
    (∃ (s : State) (p : Ptr), p ≠ s.nalloc ∧ ∀ f ∈ s.walk, f.ptr ≠ p) ∧
    (∃ (s : State) (full : List (Ptr × Ptr)) (st : List Frame), s.walk = full.map (fun f => { ptr := f.1, left := some f.2 }) ++ st ∧
      (∀ f, st.head? = some f → f.left = none) ∧ (s.nalloc :: full.map Prod.fst).Nodup ∧ (∀ f ∈ full, f.1.toNat < 513) ∧
      full[1]? = some (1#10, 2#10) ∧ st = []) ∧
    (∃ (s : State) (full : List (Ptr × Ptr)) (st st' : List Frame) (q : Ptr),
      s.walk = full.map (fun f => { ptr := f.1, left := some f.2 }) ++ st ∧ (∀ f, st.head? = some f → f.left = none) ∧
      (s.nalloc :: full.map Prod.fst).Nodup ∧ (∀ f ∈ full, f.1.toNat < 513) ∧ full ≠ [] ∧ st = { ptr := q, left := none } :: st') :=
  ⟨rfl, by decide, by decide, ⟨running .rdhdr [], 1#10, by decide, by decide⟩,
    ⟨{ running .rdhdr [] with
        nalloc := 5#10, walk := [{ ptr := 3#10, left := some 4#10 }, { ptr := 1#10, left := some 2#10 }] },
      [(3#10, 4#10), (1#10, 2#10)], [], rfl, fun _ h => by simp at h, by decide +kernel, by simp, rfl, rfl⟩,
    ⟨{ running .rdhdr [] with
        nalloc := 3#10, walk := [{ ptr := 1#10, left := some 2#10 }, { ptr := 0#10, left := none }] },
      [(1#10, 2#10)], [{ ptr := 0#10, left := none }], [], 0#10, rfl, fun f h => by simp at h; rw [← h], by decide +kernel, by simp,
      by decide, rfl⟩⟩
/-- DECODE of V-B's tree between two codewords. -/
def atRoot : State := { withPair (running .decode []) with cur := 2#10, expect := .codeword }
theorem witness_codewords :
    (running .encode []).out.closed = false ∧ (running .encode []).phase = .encode ∧
    (∃ (s : State) (t : Tree), s.out.closed = false ∧ s.phase = .decode ∧ s.tree = .ok t ∧ s.cur = s.root ∧ s.expect = .codeword ∧
      (65#9, [true]) ∈ t.codes ∧ (65#9).toNat < 256 ∧ (256#9, [false]) ∈ t.codes ∧ 2 ≤ t.symbols.length ∧
      decode (.codeword t) s.ahead = .ok (.codeword [true], [false, false])) ∧
    (∃ (s : State) (t : Tree), s.tree = .ok t ∧ s.cur = s.root ∧ s.expect = .codeword ∧ 2 ≤ t.symbols.length ∧
      decode (.codeword t) s.ahead = .error .shortCodeword) :=
  ⟨rfl, rfl,
    ⟨{ atRoot with inp := { bits := [true, false, false], pos := 0, second := none } }, pair, rfl, rfl,
      tree_of_toOption (by decide +kernel), rfl, rfl, by decide, by decide, by decide, by decide, rfl⟩,
    ⟨atRoot, pair, tree_of_toOption (by decide +kernel), rfl, rfl, by decide, rfl⟩⟩
theorem witness_padding : (running .close []).phase = .close ∧ (running .decode []).phase ≠ .close := by decide
theorem witness_operationsStopByName :
    (∃ (s : State) (f : Fault), s.tree = .error f) ∧ (513 ≤ (513#10).toNat ∧ 513#10 ≠ Config.null) ∧
    (∃ (s : State) (t : Tree), s.tree = .ok t ∧ s.out.closed = true) :=
  ⟨⟨State.reset, .nodeIndex, rfl⟩, by decide,
    ⟨{ withPair State.reset with out := { bits := [], closed := true } }, pair, tree_of_toOption (by decide +kernel), rfl⟩⟩
theorem witness_elementsOutOfPlace :
    State.reset.phase ≠ .wrhdr ∧ State.reset.phase ≠ .rdhdr ∧ State.reset.phase ≠ .encode ∧ State.reset.phase ≠ .decode := by decide
/-- A state after V-C's FormatError, which the host polls. -/
def faulted : State :=
  { State.reset with phase := .fault, status := 4#8, err := 1#8, errinfo := 0x18#8, host := [.write 0 0#8] }
theorem witness_faultStays : faulted.Consistent ∧ faulted.phase = .fault ∧ faulted.host.head? ≠ some .reset := by decide
theorem witness_faultStays_write : ∃ (s : State) (r : Nat) (v : Byte) (rest : List HostAction), s.Consistent ∧ s.phase = .fault ∧
    s.host.head? ≠ some .reset ∧ s.host = .write r v :: rest :=
  ⟨faulted, 0, 0#8, [], by decide, rfl, by decide, rfl⟩
theorem witness_hostReset :
    ∃ (s : State) (rest : List HostAction), s.phase.busy = false ∧ s.host = .reset :: rest :=
  ⟨{ faulted with host := [.reset, .write 0 0#8] }, [.write 0 0#8], rfl, rfl⟩
theorem witness_resetWhileBusy : (running .encode []).phase.busy = true := rfl
theorem witness_stepKeepsConsistent : ∃ s t : State, s.Consistent ∧ step s = .next t :=
  ⟨{ running .build [] with fv := true }, _, by decide, rfl⟩
theorem witness_stepKeepsTheBuildParameter : ∃ s t : State, step s = .next t :=
  ⟨{ State.reset with host := [.write 0 0#8] }, _, rfl⟩
theorem witness_stepKeepsReady : ∃ s t : State, s.Consistent ∧ s.Ready ∧ step s = .next t :=
  ⟨{ running .build [] with fv := true }, _, by decide, by decide, rfl⟩
theorem witness_ready_encode : (withCodes (running .encode [])).Consistent ∧ (withCodes (running .encode [])).Ready := by decide +kernel
theorem witness_readyStepNeverStops :
    (withPair (running .decode [])).Consistent ∧ (withPair (running .decode [])).Ready := by decide +kernel
/-- Fresh transports that hold these bits. -/
def fresh (bits : List Bool) : State := { State.reset with inp := { bits := bits, pos := 0, second := none } }
theorem witness_fresh (bits : List Bool) : (fresh bits).Fresh bits := 
  ⟨rfl, show State.reset.busy = false by decide, show State.reset.faulted = false by decide, rfl, rfl, rfl, rfl⟩
theorem witness_compress :
    ∃ (s : State) (bytes : List Byte), s.Fresh (bitsOfBytes bytes) ∧ ∀ b : Byte, bytes.count b < 2 ^ 32 :=
  ⟨fresh (bitsOfBytes [65#8]), [65#8], witness_fresh _, fun b => Nat.lt_of_le_of_lt List.count_le_length (by decide)⟩
/-- A tie-break rule that is not R122's: the oldest entry of Q. -/
def oldest : TieBreak := fun _ q => match q with
  | [] => none
  | e :: q => some (e, q)
theorem oldest_takesOne : TakesOne oldest := ⟨fun _ => rfl, fun _ q h => by
  cases q with
  | nil => exact absurd rfl h
  | cons e q => exact ⟨e, q, rfl, List.Perm.refl _⟩⟩
/-- Whatever COMPRESS has written, a block with the same MAGIC can be given it. -/
theorem witness_roundTrip (written : List Bool) :
    ∃ (pick : TieBreak) (s s' : State) (bytes : List Byte), TakesOne pick ∧ s.Fresh (bitsOfBytes bytes) ∧
      (∀ b : Byte, bytes.count b < 2 ^ 32) ∧ s'.magic = s.magic ∧ s'.Fresh written :=
  ⟨oldest, fresh (bitsOfBytes [65#8]), fresh written, [65#8], oldest_takesOne, witness_fresh _,
    fun b => Nat.lt_of_le_of_lt List.count_le_length (by decide), rfl, witness_fresh _⟩

end Sys2Proof.Tests
end

section
/-! Proofs. The host registers by number (R89): the values a write to CMD takes as commands, and the numbers a read knows. -/

namespace Sys2Proof

@[simp] theorem decodeCmd_zero : decodeCmd 0#8 = .ok .compress := rfl

@[simp] theorem decodeCmd_one : decodeCmd 1#8 = .ok .decompress := rfl

theorem decodeCmd_of_one_lt {v : Byte} (hv : 1 < v.toNat) : decodeCmd v = .error .reservedCommand := by
  have h0 : v ≠ 0#8 := by rintro rfl; exact absurd hv (by decide)
  have h1 : v ≠ 1#8 := by rintro rfl; exact absurd hv (by decide)
  simp [decodeCmd, h0, h1]

end Sys2Proof

namespace Sys2Proof.Machine

theorem hostWrite_cmd_of_ok {v : Byte} {i : Instr} (h : decodeCmd v = .ok i) (s : State) : hostWrite 0 v s = exec i s := by
  simp [hostWrite, h]

theorem hostWrite_cmd_of_error {v : Byte} {e : DecodeError} (h : decodeCmd v = .error e) (s : State) :
    hostWrite 0 v s = .next s := by
  simp [hostWrite, h]

theorem hostWrite_of_ne_cmd {r : Nat} (hr : r ≠ 0) (v : Byte) (s : State) : hostWrite r v s = .next s :=
  if_neg hr

/-- A write that names no command (R82) or another register than CMD (R89, U13) does nothing. -/
theorem hostWrite_ignored {r : Nat} {v : Byte} (h : r ≠ 0 ∨ 1 < v.toNat) (s : State) : hostWrite r v s = .next s := by
  by_cases hr : r = 0
  · subst hr
    have hv : 1 < v.toNat := h.resolve_left (· rfl)
    exact hostWrite_cmd_of_error (decodeCmd_of_one_lt hv) s
  · exact hostWrite_of_ne_cmd hr v s

theorem State.readReg_unassigned {r : Nat} (hr : 4 ≤ r) (s : State) : s.readReg r = 0#8 := by
  obtain ⟨n, rfl⟩ := Nat.exists_eq_add_of_le' hr
  rfl

/-- Settles O15: the two command values decode, every other write is ignored, and a read is by the register's number. -/
theorem hostRegisters : Obligations.HostRegisters := fun s =>
  ⟨hostWrite_cmd_of_ok decodeCmd_zero s, hostWrite_cmd_of_ok decodeCmd_one s,
    fun _ _ h => hostWrite_ignored h s,
    rfl, rfl, rfl, rfl, fun _ hr => State.readReg_unassigned hr s⟩

end Sys2Proof.Machine
end

section
/-! Proofs. A host write to CMD (R100): accepting a command, case by case on BUSY and FAULT. -/

namespace Sys2Proof.Machine

/-- STATUS while a command runs: BUSY alone (R31, R100). -/
@[simp] theorem statusOf_busy : statusOf true false false = 1#8 := rfl

/-- R100 (a). -/
theorem accept_of_busy_or_faulted {s : State} (h : s.busy = true ∨ s.faulted = true) (first : Phase) :
    accept first s = s :=
  if_pos (Bool.or_eq_true_iff.mpr h)

/-- R100 past (a) and (b): the command is accepted. -/
theorem accept_of_idle {s : State} (hb : s.busy = false) (hf : s.faulted = false) (first : Phase) :
    accept first s =
      { s with status := 1#8, fv := false, tv := false, cv := false, phase := first, expect := .unit } := by
  simp [accept, hb, hf, State.setStatus, State.clearValid]

theorem hostWrite_cmd_zero (s : State) : hostWrite 0 0#8 s = .next (accept .count s) :=
  hostWrite_cmd_of_ok decodeCmd_zero s

theorem hostWrite_cmd_one (s : State) : hostWrite 0 1#8 s = .next (accept .rdhdr s) :=
  hostWrite_cmd_of_ok decodeCmd_one s

/-- R82: a value of CMD is COMPRESS, DECOMPRESS or reserved. -/
theorem cmd_cases (c : Byte) : c = 0#8 ∨ c = 1#8 ∨ 1 < c.toNat := by bv_omega

/-- R100 (a) for every value written, a command or reserved. -/
theorem hostWrite_cmd_of_busy_or_faulted {s : State} (h : s.busy = true ∨ s.faulted = true) (c : Byte) :
    hostWrite 0 c s = .next s := by
  obtain rfl | rfl | hc := cmd_cases c
  · rw [hostWrite_cmd_zero, accept_of_busy_or_faulted h]
  · rw [hostWrite_cmd_one, accept_of_busy_or_faulted h]
  · exact hostWrite_ignored (.inr hc) s

/-- Settles O13: a reserved value is ignored by decoding, a command by BUSY or FAULT; else `accept` starts its first unit. -/
theorem cmdWriteIsAcceptedOrIgnored : Obligations.CmdWriteIsAcceptedOrIgnored := by
  intro s c
  refine ⟨fun h => hostWrite_cmd_of_busy_or_faulted h c, fun hc => hostWrite_ignored (.inr hc) s, ?_, ?_⟩
  · rintro hb hf rfl
    rw [hostWrite_cmd_zero, accept_of_idle hb hf]
  · rintro hb hf rfl
    rw [hostWrite_cmd_one, accept_of_idle hb hf]

end Sys2Proof.Machine
end

section
/-! Proofs. FAULT (R189): the core makes no move, and no action of the host but reset touches what the fault left in the registers. -/

namespace Sys2Proof.Machine

theorem State.Consistent.status_of_fault {s : State} (hs : s.Consistent) (hp : s.phase = .fault) : s.status = 4#8 := by
  obtain ⟨-, -, hstatus, -⟩ := hs
  exact hstatus hp

/-- In FAULT the core is inside no unit. -/
theorem State.Consistent.expect_of_fault {s : State} (hs : s.Consistent) (hp : s.phase = .fault) : s.expect = .unit := by
  obtain ⟨-, -, -, -, -, hrdhdr, hdecode, -⟩ := hs
  rw [hp] at hrdhdr hdecode
  cases he : s.expect with
  | unit => rfl
  | marker => exact absurd (hrdhdr (.inl he)) (by decide)
  | node => exact absurd (hrdhdr (.inr he)) (by decide)
  | codeword => exact absurd (hdecode he) (by decide)

/-- PHASE's FAULT code names no operation (R79), so the core makes no move. -/
theorem coreStep_of_fault {s : State} (hp : s.phase = .fault) (he : s.expect = .unit) : coreStep s = .next s := by
  have hd : decodePhase s.phase.code = .error .restPhase := by rw [hp]; rfl
  simp [coreStep, he, hd]

/-- While the core rests the host moves (R84, R200), whatever its action. -/
theorem step_of_rest {s : State} (hb : s.phase.busy = false) {a : HostAction} {rest : List HostAction}
    (hh : s.host = a :: rest) : step s = hostAct a { s with host := rest } := by
  cases a <;> simp [step, stepState, hh, hb]

/-- A faulted block ignores a write to any register (R89, R100 (a)). -/
theorem hostWrite_of_faulted {s : State} (hf : s.faulted = true) (r : Nat) (v : Byte) : hostWrite r v s = .next s := by
  by_cases hr : r = 0
  · subst hr
    exact hostWrite_cmd_of_busy_or_faulted (.inr hf) v
  · exact hostWrite_of_ne_cmd hr v s

/-- `t` has the PHASE, STATUS, ERR and ERRINFO of `s`, and no transaction more (R189). -/
structure State.HoldsFaultOf (t s : State) : Prop where
  phase : t.phase = s.phase
  status : t.status = s.status
  err : t.err = s.err
  errinfo : t.errinfo = s.errinfo
  trace : t.trace = s.trace

/-- Every action of the host but reset completes in FAULT, and holds the fault. -/
theorem hostAct_holdsFault {s : State} (hp : s.phase = .fault) (hf : s.faulted = true) {a : HostAction} (ha : a ≠ .reset) :
    ∃ t, hostAct a s = .next t ∧ t.HoldsFaultOf s := by
  have hb : ¬ s.phase.busy = true := by rw [hp]; decide
  cases a with
  | reset => exact absurd rfl ha
  | attachIn bits second => exact ⟨_, if_neg hb, rfl, rfl, rfl, rfl, rfl⟩
  | attachOut => exact ⟨_, if_neg hb, rfl, rfl, rfl, rfl, rfl⟩
  | write r v => exact ⟨s, hostWrite_of_faulted hf r v, rfl, rfl, rfl, rfl, rfl⟩
  | read r => exact ⟨_, rfl, rfl, rfl, rfl, rfl, rfl⟩
  | wait => exact ⟨s, rfl, rfl, rfl, rfl, rfl, rfl⟩
  | stall => exact ⟨_, rfl, rfl, rfl, rfl, rfl, rfl⟩

/-- A step in FAULT: the core's empty move where the host has nothing to do, else the host's action. -/
theorem step_holdsFault {s : State} (hp : s.phase = .fault) (he : s.expect = .unit) (hf : s.faulted = true)
    (hr : s.host.head? ≠ some .reset) : ∃ t, step s = .next t ∧ t.HoldsFaultOf s := by
  cases hh : s.host with
  | nil =>
    have hstep : step s = coreStep s := by simp [step, stepState, hh]
    exact ⟨s, hstep.trans (coreStep_of_fault hp he), rfl, rfl, rfl, rfl, rfl⟩
  | cons a rest =>
    have ha : a ≠ .reset := by
      rintro rfl
      exact hr (by rw [hh]; rfl)
    have hstep : step s = hostAct a { s with host := rest } := step_of_rest (by rw [hp]; rfl) hh
    obtain ⟨t, ht, hphase, hstatus, herr, herrinfo, htrace⟩ :=
      hostAct_holdsFault (s := { s with host := rest }) hp hf ha
    exact ⟨t, hstep.trans ht, hphase, hstatus, herr, herrinfo, htrace⟩

/-- Settles O49: a consistent fault state is inside no unit and has STATUS.FAULT set, so `step_holdsFault` speaks of it; a register
write is a host's action that does nothing. -/
theorem faultStaysUntilReset : Obligations.FaultStaysUntilReset := by
  intro s hs hp hr
  have hf : s.faulted = true := by simp [State.faulted, hs.status_of_fault hp]
  refine ⟨?_, fun r v rest hh => ?_⟩
  · obtain ⟨t, hstep, h⟩ := step_holdsFault hp (hs.expect_of_fault hp) hf hr
    have hft : t.faulted = true := (congrArg (·.getLsbD 2) h.status).trans hf
    exact ⟨t, hstep, h.phase.trans hp, h.status, hft, h.err, h.errinfo, h.trace⟩
  · exact (step_of_rest (by rw [hp]; rfl) hh).trans (hostWrite_of_faulted (s := { s with host := rest }) hf r v)

end Sys2Proof.Machine
end

section
/-! Proofs. Encodings (30_encoding.md): the decoder and the encoder are inverse, format by format; the code of a tree encoding; the
paths of a tree. -/

namespace Sys2Proof

/-- A field that was read is the bits of its value (R8, R51). -/
theorem takeField_bitVec {n v : Nat} {bs rest : List Bool} (h : takeField n bs = some (v, rest)) :
    bs = bitsOf n (BitVec.ofNat n v).toNat ++ rest := by
  obtain ⟨rfl, hv⟩ := takeField_some h
  rw [BitVec.toNat_ofNat, Nat.mod_eq_of_lt hv]

theorem except_map_ok {ε α β : Type} {x : Except ε α} {f : α → β} {b : β} (h : x.map f = .ok b) :
    ∃ a, x = .ok a ∧ f a = b := by
  cases x with
  | error e => exact nomatch h
  | ok a => exact ⟨a, rfl, Except.ok.inj h⟩

/-! ### Register values (R79, R80) -/

theorem decode_cmd_append (v : Byte) (rest : List Bool) :
    decode .cmd (bitsOf 8 v.toNat ++ rest) = (decodeCmd v).map fun i => (i, rest) := by
  simp [decode, takeField_append, Nat.mod_eq_of_lt v.isLt]

theorem decode_phase_append (v : BitVec 4) (rest : List Bool) :
    decode .phase (bitsOf 4 v.toNat ++ rest) = (decodePhase v).map fun i => (i, rest) := by
  simp [decode, takeField_append, Nat.mod_eq_of_lt v.isLt]

theorem decode_cmd_ok {bs rest : List Bool} {i : Instr} (h : decode .cmd bs = .ok (i, rest)) :
    ∃ v : Byte, decodeCmd v = .ok i ∧ bs = bitsOf 8 v.toNat ++ rest := by
  cases hf : takeField 8 bs with
  | none => simp [decode, hf] at h
  | some vr =>
    simp only [decode, hf] at h
    obtain ⟨j, hj, he⟩ := except_map_ok h
    obtain ⟨rfl, rfl⟩ := Prod.mk.inj he
    exact ⟨_, hj, takeField_bitVec hf⟩

theorem decode_phase_ok {bs rest : List Bool} {i : Instr} (h : decode .phase bs = .ok (i, rest)) :
    ∃ v : BitVec 4, decodePhase v = .ok i ∧ bs = bitsOf 4 v.toNat ++ rest := by
  cases hf : takeField 4 bs with
  | none => simp [decode, hf] at h
  | some vr =>
    simp only [decode, hf] at h
    obtain ⟨j, hj, he⟩ := except_map_ok h
    obtain ⟨rfl, rfl⟩ := Prod.mk.inj he
    exact ⟨_, hj, takeField_bitVec hf⟩

/-- A CMD value that is a command is that command's encoding (R80). -/
theorem encode_of_decodeCmd {v : Byte} {i : Instr} (h : decodeCmd v = .ok i) : encode i = bitsOf 8 v.toNat := by
  obtain rfl | rfl | hv : v = 0#8 ∨ v = 1#8 ∨ 1 < v.toNat := by bv_omega
  · obtain rfl := Except.ok.inj h
    rfl
  · obtain rfl := Except.ok.inj h
    rfl
  · rw [decodeCmd_of_one_lt hv] at h
    exact nomatch h

/-- A PHASE code that names an operation is that operation's encoding (R79). -/
theorem encode_of_decodePhase : ∀ {v : BitVec 4} {i : Instr}, decodePhase v = .ok i → encode i = bitsOf 4 v.toNat := by
  have key : ∀ v : BitVec 4, ∀ i ∈ (decodePhase v).toOption, encode i = bitsOf 4 v.toNat := by decide
  intro v i h
  exact key v i (by rw [h]; rfl)

/-- R82: PHASE 10 to 14 are unused. -/
theorem decodePhase_unused : ∀ p : BitVec 4, 9 < p.toNat → p.toNat < 15 → decodePhase p = .error .unusedPhase := by
  intro p h1 h2
  obtain h | h | h | h | h : p = 10#4 ∨ p = 11#4 ∨ p = 12#4 ∨ p = 13#4 ∨ p = 14#4 := by bv_omega
  all_goals rw [h]; rfl

/-! ### The stream elements (R71 to R73, R76, R83) -/

theorem decode_marker_append (m : Mark) (rest : List Bool) :
    decode .marker (encode (.marker m) ++ rest) = .ok (.marker m, rest) := by
  simp [decode, encode, takeField_append, Nat.mod_eq_of_lt m.isLt]

theorem decode_marker_ok {bs rest : List Bool} {i : Instr} (h : decode .marker bs = .ok (i, rest)) :
    ∃ m : Mark, i = .marker m ∧ bs = bitsOf 32 m.toNat ++ rest := by
  cases hf : takeField 32 bs with
  | none => simp [decode, hf] at h
  | some vr =>
    simp only [decode, hf] at h
    obtain ⟨rfl, rfl⟩ := Prod.mk.inj (Except.ok.inj h)
    exact ⟨_, rfl, takeField_bitVec hf⟩

theorem decode_codeword_ok {t : Tree} {bs rest : List Bool} {i : Instr} (h : decode (.codeword t) bs = .ok (i, rest)) :
    ∃ c, i = .codeword c ∧ takeCodeword t bs = some (c, rest) := by
  cases hc : takeCodeword t bs with
  | none => simp [decode, hc] at h
  | some cr =>
    simp only [decode, hc] at h
    obtain ⟨rfl, rfl⟩ := Prod.mk.inj (Except.ok.inj h)
    exact ⟨_, rfl, rfl⟩

theorem decodeNode_leaf_append (sym : Sym) (rest : List Bool) :
    decodeNode (true :: (bitsOf 9 sym.toNat ++ rest)) = .ok (.nodeLeaf sym, rest) := by
  simp [decodeNode, takeField_append, Nat.mod_eq_of_lt sym.isLt]

/-- A node's bits are its encoding, a reserved symbol's too (R72, R82). -/
theorem encode_of_decodeNode {bs rest : List Bool} {i : Instr} (h : decodeNode bs = .ok (i, rest)) : encode i ++ rest = bs := by
  match bs with
  | [] => exact nomatch h
  | false :: bs =>
    obtain ⟨rfl, rfl⟩ := Prod.mk.inj (Except.ok.inj h)
    rfl
  | true :: bs =>
    cases hf : takeField 9 bs with
    | none => simp [decodeNode, hf] at h
    | some vr =>
      simp only [decodeNode, hf] at h
      obtain ⟨rfl, rfl⟩ := Prod.mk.inj (Except.ok.inj h)
      exact congrArg (true :: ·) (takeField_bitVec hf).symm

/-- Padding is what stands before the next whole byte (R76). -/
theorem decode_pad_append {n : Nat} {rest : List Bool} (hn : n ≤ 7) (hr : rest.length % 8 = 0) :
    decode .pad (encode (.pad n) ++ rest) = .ok (.pad n, rest) := by
  have hl : (List.replicate n false ++ rest).length % 8 = n := by simp; omega
  simp only [decode, encode, hl]
  rw [List.drop_left' (by simp)]

/-- A codeword is read in every tree of which it is a path (R83). -/
theorem decode_codeword_append {t : Tree} {sym : Sym} {c : List Bool} (h : (sym, c) ∈ t.codes) (rest : List Bool) :
    decode (.codeword t) (encode (.codeword c) ++ rest) = .ok (.codeword c, rest) := by
  simp [decode, encode, takeCodeword_code t sym c rest h]

/-- Settles O1: format by format, a field is read back from the head of a stream; a codeword by the walk of its tree. -/
theorem decodeOfEncodeIsTheInstruction : Obligations.DecodeOfEncodeIsTheInstruction := by
  refine ⟨fun i rest hi hpad => ?_, fun t sym c rest h => decode_codeword_append h rest⟩
  cases i with
  | compress => exact decode_cmd_append 0#8 rest
  | decompress => exact decode_cmd_append 1#8 rest
  | count => exact decode_phase_append 1#4 rest
  | build => exact decode_phase_append 2#4 rest
  | gencodes => exact decode_phase_append 3#4 rest
  | wrhdr => exact decode_phase_append 4#4 rest
  | encode => exact decode_phase_append 5#4 rest
  | rdhdr => exact decode_phase_append 6#4 rest
  | decode => exact decode_phase_append 7#4 rest
  | rewind => exact decode_phase_append 8#4 rest
  | close => exact decode_phase_append 9#4 rest
  | marker m => exact decode_marker_append m rest
  | nodeInternal => rfl
  | nodeLeaf sym => exact decodeNode_leaf_append sym rest
  | codeword c => simp [decode, encode, Instr.format, takeCodeword_along]
  | pad n => exact decode_pad_append (of_decide_eq_true hi) (hpad n rfl)

/-- Settles O2: a field that was read is the bits of its value, and a value that is an instruction is that instruction's encoding. -/
theorem decodedBitsAreTheEncoding : Obligations.DecodedBitsAreTheEncoding := by
  intro f bs rest i hf h
  cases f with
  | cmd =>
    obtain ⟨v, hv, rfl⟩ := decode_cmd_ok h
    rw [encode_of_decodeCmd hv]
  | phase =>
    obtain ⟨v, hv, rfl⟩ := decode_phase_ok h
    rw [encode_of_decodePhase hv]
  | marker =>
    obtain ⟨m, rfl, rfl⟩ := decode_marker_ok h
    rfl
  | node => exact encode_of_decodeNode h
  | codeword t =>
    obtain ⟨c, rfl, hc⟩ := decode_codeword_ok h
    exact takeCodeword_some hc
  | pad => exact absurd rfl hf

/-- Settles O3: each word is run through the decoder. -/
theorem specWordsDecode : Obligations.SpecWordsDecode := ⟨rfl, rfl, rfl, rfl, rfl, rfl⟩

/-- Settles O4: a reserved CMD value is neither of the two commands; each unused PHASE code is met by name. -/
theorem reservedRegisterValuesRefused : Obligations.ReservedRegisterValuesRefused :=
  ⟨fun _ hv => decodeCmd_of_one_lt hv, decodePhase_unused⟩

/-! ### Trees (R72, R74, R78, R133) -/

/-- Settles O5: by induction on the tree; a leaf has 10 bits, and an internal node adds one to those of its subtrees. -/
theorem treeEncodingLength : Obligations.TreeEncodingLength := by
  intro t
  induction t with
  | leaf sym w => simp [Tree.enc, Tree.symbols]
  | internal w l r ihl ihr =>
    simp only [Tree.enc, Tree.symbols, List.length_cons, List.length_append]
    omega

/-- A leaf's symbol field is told from the bits after it (R73). -/
theorem leafField_inj {sym sym' : Sym} {r r' : List Bool} (h : bitsOf 9 sym.toNat ++ r = bitsOf 9 sym'.toNat ++ r') :
    sym = sym' ∧ r = r' := by
  obtain ⟨hb, hr⟩ := List.append_inj h (by simp)
  exact ⟨BitVec.eq_of_toNat_eq (bitsOf_inj sym.isLt sym'.isLt hb), hr⟩

/-- Settles O6: by induction on one of the trees; the tag tells a leaf from an internal node, whose subtrees are read one after the
other. -/
theorem treeEncodingHasOneReading : Obligations.TreeEncodingHasOneReading := by
  intro t
  induction t with
  | leaf sym w =>
    intro u r r' h
    cases u with
    | leaf sym' w' =>
      obtain ⟨rfl, hr⟩ := leafField_inj (List.cons.inj h).2
      exact ⟨rfl, hr⟩
    | internal w' l' r'' => simp [Tree.enc] at h
  | internal w l r ihl ihr =>
    intro u x x' h
    cases u with
    | leaf sym' w' => simp [Tree.enc] at h
    | internal w' l' r' =>
      simp only [Tree.enc, List.cons_append, List.append_assoc, List.cons.injEq, true_and] at h
      obtain ⟨hl, h⟩ := ihl l' _ _ h
      obtain ⟨hr, h⟩ := ihr r' _ _ h
      exact ⟨by simp [Tree.shape, hl, hr], h⟩

/-- No two leaves of a tree have the same path (R130). -/
theorem Tree.paths_nodup (t : Tree) : (t.codes.map Prod.snd).Nodup := by
  induction t with
  | leaf sym w => simp [Tree.codes, Tree.codesFrom]
  | internal w l r ihl ihr =>
    have hpaths : (Tree.internal w l r).codes.map Prod.snd =
        (l.codes.map Prod.snd).map (false :: ·) ++ (r.codes.map Prod.snd).map (true :: ·) := by
      simp [Tree.codes_internal, Function.comp_def]
    rw [hpaths, List.nodup_append]
    refine ⟨ihl.map List.cons_injective, ihr.map List.cons_injective, ?_⟩
    rintro a ha b hb rfl
    obtain ⟨c, -, rfl⟩ := List.mem_map.mp ha
    obtain ⟨d, -, hd⟩ := List.mem_map.mp hb
    exact nomatch hd

/-- A path of a tree that begins another of its paths is that path: the walk stops at the first leaf (R83, R133). -/
theorem Tree.path_eq_of_prefix {t : Tree} {c d : Sym × List Bool} (hc : c ∈ t.codes) (hd : d ∈ t.codes) (h : c.2 <+: d.2) :
    c.2 = d.2 := by
  obtain ⟨x, hx⟩ := h
  have h1 := takeCodeword_code t c.1 c.2 x hc
  have h2 := takeCodeword_code t d.1 d.2 [] hd
  rw [List.append_nil] at h2
  rw [hx, h2] at h1
  exact (Prod.mk.inj (Option.some.inj h1)).1.symm

/-- Settles O7: a path that begins another is the same path, and the paths of two leaves differ. -/
theorem codesArePrefixFree : Obligations.CodesArePrefixFree := by
  intro t i j c d hi hj hij h
  have hpath := Tree.path_eq_of_prefix (List.mem_of_getElem? hi) (List.mem_of_getElem? hj) h
  have hlt : i < (t.codes.map Prod.snd).length := by
    obtain ⟨hlt, -⟩ := List.getElem?_eq_some_iff.mp hi
    simpa using hlt
  exact hij ((List.getElem?_inj hlt t.paths_nodup).mp (by simp [hi, hj, hpath]))

end Sys2Proof

namespace Sys2Proof.Machine

/-- A field read from IN is the bits of its value (R51). -/
theorem inReadBits_bitVec {n v : Nat} {s t : State} (h : inReadBits n s = (some v, t)) :
    s.ahead = bitsOf n (BitVec.ofNat n v).toNat ++ t.ahead ∧ t.inp.bits = s.inp.bits := by
  obtain ⟨-, -, hlt, ha, hb, -⟩ := inReadBits_some h
  rw [BitVec.toNat_ofNat, Nat.mod_eq_of_lt hlt]
  exact ⟨ha, hb⟩

/-- The marker fetched is the one the decoder reads (R71). -/
theorem decode_of_fetchMarker {s t : State} {i : Instr} (h : fetchMarker s = .got i t) :
    decode .marker s.ahead = .ok (i, t.ahead) ∧ t.inp.bits = s.inp.bits := by
  unfold fetchMarker at h
  split at h
  · exact nomatch h
  next m u hm =>
    obtain ⟨rfl, rfl⟩ := Fetched.got.inj h
    obtain ⟨ha, hb⟩ := inReadBits_bitVec hm
    rw [ha]
    exact ⟨decode_marker_append (BitVec.ofNat 32 m) u.ahead, hb⟩

/-- The node fetched is the one the decoder reads (R72, R73). -/
theorem decode_of_fetchNode {s t : State} {i : Instr} (h : fetchNode s = .got i t) :
    decode .node s.ahead = .ok (i, t.ahead) ∧ t.inp.bits = s.inp.bits := by
  unfold fetchNode at h
  split at h
  · exact nomatch h
  split at h
  · exact nomatch h
  next tag u hu =>
    obtain ⟨-, -, hlt, ha, hb, -⟩ := inReadBits_some hu
    rw [ha]
    split at h
    next htag =>
      obtain ⟨rfl, rfl⟩ := Fetched.got.inj h
      rw [htag]
      exact ⟨rfl, hb⟩
    next htag =>
      obtain rfl : tag = 1 := by omega
      split at h
      · exact nomatch h
      next v x hx =>
        obtain ⟨rfl, rfl⟩ := Fetched.got.inj h
        obtain ⟨ha', hb'⟩ := inReadBits_bitVec hx
        rw [ha']
        exact ⟨decodeNode_leaf_append (BitVec.ofNat 9 v) x.ahead, hb'.trans hb⟩

/-- Settles O20: what each of the two fetches reads is the field the decoder takes. -/
theorem fetchedHeaderElementIsTheDecodedOne : Obligations.FetchedHeaderElementIsTheDecodedOne :=
  fun _ _ _ => ⟨decode_of_fetchMarker, decode_of_fetchNode⟩

end Sys2Proof.Machine
end

section
/-! Proofs. The transport transactions (R51 to R55) and the commands that are one transaction (R104); the sequencer (R100 to R103); what a
step runs (R28, R84). -/

namespace Sys2Proof.Machine

/-! ### Transactions (20_memory.md) -/

/-- Settles O8: the two outcomes of a read; the position after EOS is in the range of U7. -/
theorem readReturnsNextBitsOrEos : Obligations.ReadReturnsNextBitsOrEos := by
  refine fun n s => ⟨fun h => inReadBits_of_le h, fun hp h => ?_⟩
  obtain ⟨h1, h2⟩ := eosPos_range hp
  exact ⟨s.eosPos, h1, h2, inReadBits_of_lt h⟩

/-- Settles O9: the bits appended are the field of R8, whose value is the low bits. -/
theorem writeAppendsLowBits : Obligations.WriteAppendsLowBits :=
  fun n v _ => ⟨fun h => ⟨bitsOf n v, bitsOf_length n v, valOf_bitsOf n v, outWriteBits_wrote h⟩, outWriteBits_closed⟩

/-- Settles O10: REWIND is `inReset`, which shows the second bits where the transport has some. -/
theorem rewindReturnsToTheStart : Obligations.RewindReturnsToTheStart := by
  intro s
  have hexec : exec .rewind s = .next (inReset s) := rfl
  refine ⟨fun h => ?_, fun bits h => ?_⟩ <;> rw [hexec] <;> simp [inReset, State.record, h]

/-- Settles O11: CLOSE pads by `padLength`. -/
theorem closePadsToAByte : Obligations.ClosePadsToAByte :=
  fun s => ⟨padLength s.out.bits.length, padLength_le _, padLength_fills _, rfl⟩

/-! ### The sequencer (40_commands.md) -/

/-- Settles O12: both commands go through `accept`. -/
theorem commandIsAccepted : Obligations.CommandIsAccepted :=
  fun _ hb hf => ⟨congrArg _ (accept_of_idle hb hf .count), congrArg _ (accept_of_idle hb hf .rdhdr)⟩

/-- Settles O14: both commands go through `accept`. -/
theorem commandIgnoredWhileBusyOrFaulted : Obligations.CommandIgnoredWhileBusyOrFaulted :=
  fun _ h => ⟨congrArg _ (accept_of_busy_or_faulted h .count), congrArg _ (accept_of_busy_or_faulted h .rdhdr)⟩

/-- R103: CLOSE is followed by completion. -/
theorem advancePhase_close {s : State} (h : s.phase = .close) : advancePhase s = complete s := by simp [advancePhase, h]

/-- Settles O16: the arms of `advancePhase`, the last of them completion. -/
theorem sequencerFollowsTheCommandsOrder : Obligations.SequencerFollowsTheCommandsOrder := by
  intro s
  refine ⟨?_, ?_, ?_, ?_, ?_, ?_, ?_, ?_, fun h hf => ?_, ?_⟩
  case refine_9 =>
    obtain ⟨h1, h2, h3, h4, h5, h6, h7, h8, h9, h10, -⟩ := complete_spec s hf
    rw [advancePhase_close h]
    exact ⟨h1, h2, h3, h4, h5, h6, h7, h8, h9, h10⟩
  all_goals
    intro h
    simp only [advancePhase, h]

/-! ### What a step runs -/

/-- With no host action the core moves (R84). -/
theorem step_of_noHost {s : State} (h : s.host = []) : step s = coreStep s := by simp [step, stepState, h]

/-- A silent transport stops the core (R216, U9). -/
theorem coreStep_of_stalled {s : State} (h : s.stalled = true) : coreStep s = .next s := if_pos h

/-- The core between two operations runs the one PHASE names (R28). -/
theorem coreStep_of_unit {s : State} {i : Instr} (hs : s.stalled = false) (he : s.expect = .unit)
    (hi : decodePhase s.phase.code = .ok i) : coreStep s = onNext advancePhase (exec i s) := by
  simp [coreStep, hs, he, hi]

/-- The core inside a unit reads the next element (log 17). -/
theorem coreStep_of_element {s : State} (hs : s.stalled = false) (he : s.expect ≠ .unit) : coreStep s = elementStep s := by
  cases h : s.expect with
  | unit => exact absurd h he
  | marker => simp [coreStep, hs, h]
  | node => simp [coreStep, hs, h]
  | codeword => simp [coreStep, hs, h]

theorem elementStep_got {s t : State} {i : Instr} (h : fetchElement s = .got i t) :
    elementStep s = onNext advanceIfEnded (exec i t) := by simp [elementStep, h]

theorem elementStep_stopped {s : State} {a : Act} (h : fetchElement s = .stopped a) : elementStep s = a.outcome := by
  simp [elementStep, h]

theorem Phase.busy_eq_false {p : Phase} : p.busy = false ↔ p = .idle ∨ p = .fault := by cases p <;> simp [Phase.busy]

/-- IDLE and FAULT name no operation (R79). -/
theorem coreStep_of_rest {s : State} (he : s.expect = .unit) (hp : s.phase.busy = false) : coreStep s = .next s := by
  have hd : decodePhase s.phase.code = .error .restPhase := by
    obtain h | h := Phase.busy_eq_false.mp hp <;> rw [h] <;> rfl
  simp [coreStep, he, hd]

/-- Settles O17: the core moves, between two operations. -/
theorem stepRunsThePhasesOperation : Obligations.StepRunsThePhasesOperation :=
  fun _ _ hh hs he hi => (step_of_noHost hh).trans (coreStep_of_unit hs he hi)

/-- Settles O18: the core moves, inside a unit. -/
theorem stepRunsTheFetchedElement : Obligations.StepRunsTheFetchedElement :=
  fun _ _ _ hh hs he hf => (step_of_noHost hh).trans ((coreStep_of_element hs he).trans (elementStep_got hf))

/-- Settles O19: the host moves while the core rests, and its write is a command. -/
theorem stepRunsTheHostsCommand : Obligations.StepRunsTheHostsCommand :=
  fun _ _ _ _ hb hh hi => (step_of_rest hb hh).trans (hostWrite_cmd_of_ok hi _)

/-- `u` is `s` but for the host's script and the counter. -/
def State.SameButHost (s u : State) : Prop := u = { s with host := u.host, free := u.free }

/-- A step is the core's move or the host's action, after at most the host's script and the counter have changed (R84, log 8). -/
theorem step_cases (s : State) : ∃ u, s.SameButHost u ∧
    (step s = coreStep u ∨ ∃ a, s.host.head? = some a ∧ step s = hostAct a u) := by
  obtain hh | ⟨a, rest, hh⟩ : s.host = [] ∨ ∃ a rest, s.host = a :: rest := by cases s.host <;> simp
  · exact ⟨s, rfl, .inl (step_of_noHost hh)⟩
  have head : s.host.head? = some a := by rw [hh]; rfl
  by_cases hb : s.phase.busy = true
  · by_cases ha : a = .wait
    · subst ha
      exact ⟨s, rfl, .inl (by simp [step, stepState, hh, hb])⟩
    · by_cases hf : Config.hostFirst s.free = true
      · refine ⟨{ s with host := rest, free := s.free + 1 }, rfl, .inr ⟨a, head, ?_⟩⟩
        simp [step, stepState, hh, hb, hf]
      · refine ⟨{ s with free := s.free + 1 }, rfl, .inl ?_⟩
        simp [step, stepState, hh, hb, hf]
  · exact ⟨{ s with host := rest }, rfl, .inr ⟨a, head, step_of_rest (by simpa using hb) hh⟩⟩

/-- What the host does but reset while a command runs touches no control register and no transport (R89, R100 (a), U3). -/
theorem hostAct_while_busy {s t : State} {a : HostAction} (hp : s.phase.busy = true) (hb : s.busy = true) (ha : a ≠ .reset)
    (h : hostAct a s = .next t) : ∃ reads stalled, t = { s with reads := reads, stalled := stalled } ∧
      (s.stalled = true → stalled = true) := by
  cases a with
  | reset => exact absurd rfl ha
  | attachIn bits second => simp [hostAct, hp] at h
  | attachOut => simp [hostAct, hp] at h
  | write r v =>
    have hw : hostWrite r v s = .next s := by
      by_cases hr : r = 0
      · subst hr
        exact hostWrite_cmd_of_busy_or_faulted (.inl hb) v
      · exact hostWrite_of_ne_cmd hr v s
    obtain rfl : s = t := Host.Outcome.next.inj (hw.symm.trans h)
    exact ⟨s.reads, s.stalled, rfl, id⟩
  | read r => exact ⟨_, s.stalled, (Host.Outcome.next.inj h).symm, id⟩
  | wait => exact ⟨s.reads, s.stalled, (Host.Outcome.next.inj h).symm, id⟩
  | stall => exact ⟨s.reads, true, (Host.Outcome.next.inj h).symm, fun _ => rfl⟩

/-- Settles O21: a resting or a stalled core makes no move, and what the host may do to a stalled one changes none of these. -/
theorem restingCoreDoesNothing : Obligations.RestingCoreDoesNothing := by
  refine ⟨fun s hh he hp => ?_, fun s hh hs => ?_, fun s t hs hp hb hr h => ?_⟩
  · refine (step_of_noHost hh).trans (coreStep_of_rest he ?_)
    obtain hp | hp := hp <;> rw [hp] <;> rfl
  · exact (step_of_noHost hh).trans (coreStep_of_stalled hs)
  · obtain ⟨u, hu, hstep | ⟨a, hhead, hstep⟩⟩ := step_cases s <;> rw [hstep] at h
    · obtain rfl : u = t := Host.Outcome.next.inj ((coreStep_of_stalled (by rw [hu]; exact hs)).symm.trans h)
      rw [hu]
      exact ⟨rfl, rfl, hb, rfl, rfl, rfl, hs⟩
    · have ha : a ≠ .reset := by
        rintro rfl
        exact hr hhead
      obtain ⟨reads, stalled, rfl, hst⟩ := hostAct_while_busy (by rw [hu]; exact hp) (by rw [hu]; exact hb) ha h
      rw [hu] at hst ⊢
      exact ⟨rfl, rfl, hb, rfl, rfl, rfl, hst hs⟩

end Sys2Proof.Machine
end

section
/-! Proofs. Where an operation stops by name (logs 11, 17, 18, 21), fault entry (R188) and reset (R45, R200, R201). -/

namespace Sys2Proof.Machine

/-- Settles O45: PAD has an effect in CLOSE alone. -/
theorem paddingIsTheTransports : Obligations.PaddingIsTheTransports := by
  intro s n
  have hexec : exec (.pad n) s = execPad n s := rfl
  constructor <;> intro h <;> rw [hexec, execPad] <;> split
  · rfl
  · exact absurd h ‹_›
  · exact absurd ‹_› h
  · rfl

/-- A pointer past NODE names no entry (R9). -/
theorem nodeAt_of_le {s : State} {p : Ptr} (h : 513 ≤ p.toNat) : s.nodeAt p = none := Vector.getElem?_eq_none h

/-- Settles O46: each operation looks for what it needs before it does anything. -/
theorem operationsStopByName : Obligations.OperationsStopByName := by
  intro s
  refine ⟨fun f hf => ⟨?_, ?_⟩, fun hr hn => ?_, fun t ht hc => ?_⟩
  · show (gencodesAct s).outcome = _
    simp [gencodesAct, hf]
  · show (wrhdrAct s).outcome = _
    simp [wrhdrAct, hf]
  · show (decodeAct s).outcome = _
    have hnode : State.nodeAt { s with cur := s.root } s.root = none := nodeAt_of_le hr
    simp [decodeAct, hn, hnode]
  · show (wrhdrAct s).outcome = _
    simp [wrhdrAct, ht, outWriteBits_closed hc]

/-- Settles O47: the arms of the stream elements name the phases that write or read them. -/
theorem elementsOutOfPlaceAreRefused : Obligations.ElementsOutOfPlaceAreRefused := by
  refine fun s m sym c => ⟨fun hw hr => ⟨?_, ?_, ?_⟩, fun he hd => ?_⟩
  · show execMarker m s = _
    simp [execMarker]
  · show execNodeInternal s = _
    simp [execNodeInternal]
  · show execNodeLeaf sym s = _
    simp [execNodeLeaf]
  · show execCodeword c s = _
    simp [execCodeword]

/-- Settles O48: fault entry is a raised end, after which no piece runs. -/
theorem faultEntryRecordsTheFault : Obligations.FaultEntryRecordsTheFault := by
  intro e info s
  obtain ⟨t, ht, hphase, herr, hinfo, hstatus, hfv, htv, hcv, -, -, hinp, hout, htrace, -⟩ := raise_spec e info s
  have hflags : t.busy = false ∧ t.done = false ∧ t.faulted = true := by
    simp [State.busy, State.done, State.faulted, hstatus]
  obtain ⟨hb, hd, hf⟩ := hflags
  exact ⟨t, ht, fun f => by rw [ht]; rfl, herr, hinfo, hfv, htv, hcv, hphase, hb, hd, hf, hinp, hout, htrace⟩

/-- Settles O50: the host's reset of a resting core is `coreReset`. -/
theorem hostResetRestoresTheCore : Obligations.HostResetRestoresTheCore := by
  intro s rest hb hh
  refine ⟨State.coreReset { s with host := rest }, ?_, rfl, rfl, rfl, rfl, rfl, rfl, rfl, rfl, rfl, rfl, rfl, rfl, rfl, rfl, rfl, rfl, rfl⟩
  rw [step_of_rest hb hh]
  simp [hostAct, hb]

/-- Settles O51: the transactions that took effect are recorded, and touch the transports, the record and the counter alone. -/
theorem resetWhileBusyAbandonsTheCommand : Obligations.ResetWhileBusyAbandonsTheCommand := by
  intro s hb
  have htrace : (abandon s).trace = _ := foldl_applyTxn_trace _ _
  obtain ⟨hmagic, hhost⟩ : (abandon s).magic = _ ∧ (abandon s).host = _ := foldl_applyTxn_frame _ _
  exact ⟨(abandon s).coreReset, Config.abandoned s.free, abandon s, congrArg _ (if_pos hb), rfl, rfl, rfl, htrace,
    rfl, rfl, rfl, rfl, rfl, rfl, rfl, rfl, rfl, rfl, rfl, rfl, rfl, hmagic, hhost⟩

/-- Settles O52: the fields of `State.reset`. -/
theorem resetStateHasTheSpecsValues : Obligations.ResetStateHasTheSpecsValues :=
  ⟨rfl, rfl, rfl, rfl, rfl, rfl, rfl, rfl, rfl, rfl, rfl, rfl, rfl⟩

/-- Settles O53: the clauses of `State.Consistent` at reset. -/
theorem resetIsConsistent : Obligations.ResetIsConsistent := by
  show State.reset.Consistent
  decide

/-- Settles O56: at reset no unit runs and TV is 0, so no clause asks for anything. -/
theorem resetIsReady : Obligations.ResetIsReady := by
  show State.reset.Ready
  refine ⟨rfl, nofun, nofun, nofun, nofun, nofun⟩

end Sys2Proof.Machine
end

section
/-! Proofs. WRHDR and RDHDR (44_tree_serializer.md, 45_tree_deserializer.md): the header of a tree written and read back, the faults of
RDHDR, and the header elements run one by one. -/

namespace Sys2Proof.Machine

/-! ### The state a fault leaves -/

/-- `t` is the state in which fault entry leaves a unit that raised `e(info)` at `u` (R188). -/
structure FaultOf (e : ErrKind) (info : BitVec 2) (u t : State) : Prop where
  phase : t.phase = .fault
  status : t.status = 4#8
  err : t.err = e.code
  errinfo : t.errinfo = errinfoOf u.phase info
  fv : t.fv = false
  tv : t.tv = false
  cv : t.cv = false
  inp : t.inp = u.inp
  out : t.out = u.out
  trace : t.trace = u.trace
  root : u.phase = .rdhdr → t.root = u.root

/-- A fault of the spec is taken: it leaves a next state. -/
theorem raise_outcome (e : ErrKind) (info : BitVec 2) (u : State) : ∃ t, (raise e info u).outcome = .next t ∧ FaultOf e info u t := by
  obtain ⟨t, ht, hphase, herr, hinfo, hstatus, hfv, htv, hcv, -, -, hinp, hout, htrace, -, -, -, -, hroot⟩ := raise_spec e info u
  exact ⟨t, by rw [ht]; rfl, hphase, hstatus, herr, hinfo, hfv, htv, hcv, hinp, hout, htrace, hroot⟩

/-! ### WRHDR -/

/-- Settles O29: the marker's write, then those of the tree. -/
theorem wrhdrWritesMarkerAndTree : Obligations.WrhdrWritesMarkerAndTree := by
  intro s t ht ho
  show (wrhdrAct s).outcome = _
  simp only [wrhdrAct, ht]
  rw [outWriteBits_wrote ho, Act.go_andThen, ser_open t (by simpa using ho), State.wrote_wrote]
  rfl

/-- Settles O42: each element's own writes. -/
theorem headerElementsWriteTheirEncoding : Obligations.HeaderElementsWriteTheirEncoding := by
  refine fun s m sym hp ho => ⟨?_, ?_, ?_⟩
  · show execMarker m s = _
    simp only [execMarker, hp]
    rw [outWriteBits_wrote ho]
    rfl
  · show execNodeInternal s = _
    simp only [execNodeInternal, hp]
    rw [writeInternal_open ho]
    rfl
  · show execNodeLeaf sym s = _
    simp only [execNodeLeaf, hp]
    rw [writeLeaf_open sym ho]
    rfl

/-! ### RDHDR: the marker -/

/-- RDHDR's state before the marker (R150). -/
def headerStart (s : State) : State := { s with nalloc := 0#10, root := Config.null, walk := [], expect := .marker }

/-- RDHDR's state once the marker was found to be MAGIC (R151). -/
def headerAfterMarker (s : State) : State :=
  { headerStart s with
    expect := .node, inp := { s.inp with pos := s.inp.pos + 32 }
    trace := s.trace ++ [.inReadBits 32 (some s.magic.toNat)] }

/-- RDHDR is its marker and 514 elements at most. -/
theorem rdhdrAct_eq (s : State) : rdhdrAct s = (headerStep (headerStart s)).andThen (continueHeader 514) := by
  rw [rdhdrAct, show headerFuel = 514 + 1 from rfl, rdhdrLoop_succ, headerStart]

theorem rdhdrAct_marker {s : State} {rest : List Bool} (ha : s.ahead = bitsOf 32 s.magic.toNat ++ rest) :
    rdhdrAct s = rdhdrLoop 514 (headerAfterMarker s) ∧ (headerAfterMarker s).ahead = rest := by
  obtain ⟨h1, h2⟩ := headerStep_marker (s := headerStart s) (rest := rest) rfl ha
  exact ⟨by rw [rdhdrAct_eq, h1, Act.go_andThen, continueHeader, if_neg (by simp), headerAfterMarker, headerStart], h2⟩

/-- Fault entry out of RDHDR, whatever the state inside it. -/
theorem rdhdr_raises {s u : State} {e : ErrKind} {info : BitVec 2} (hact : rdhdrAct s = raise e info u) (hp : u.phase = .rdhdr) :
    ∃ t, exec .rdhdr s = .next t ∧ FaultOf e info u t ∧ t.errinfo = errinfoOf .rdhdr info ∧ t.root = u.root := by
  obtain ⟨t, ht, hf⟩ := raise_outcome e info u
  exact ⟨t, (congrArg Act.outcome hact).trans ht, hf, hp ▸ hf.errinfo, hf.root hp⟩

/-- A value that is not MAGIC where the marker stands (R151). -/
theorem headerStep_foreignMarker {s : State} {m : Nat} {rest : List Bool} (he : s.expect = .marker)
    (ha : s.ahead = bitsOf 32 m ++ rest) (hm : m < 2 ^ 32) (hne : m ≠ s.magic.toNat) :
    headerStep s = raise .formatError 0#2
      { s with inp := { s.inp with pos := s.inp.pos + 32 }, trace := s.trace ++ [.inReadBits 32 (some m)] } := by
  obtain ⟨hr, -⟩ := inReadBits_field (by decide) hm ha
  have hmark : BitVec.ofNat 32 m ≠ s.magic := by
    intro h
    exact hne (by rw [← h, BitVec.toNat_ofNat, Nat.mod_eq_of_lt hm])
  simp only [headerStep, he, if_true, fetchMarker, hr, readMarker]
  exact if_neg hmark

/-- Settles O31: the first element of RDHDR faults. -/
theorem foreignMarkerIsAFormatError : Obligations.ForeignMarkerIsAFormatError := by
  intro s m rest ha hm hne hp
  have hact := rdhdrAct_eq s
  rw [headerStep_foreignMarker (s := headerStart s) rfl ha hm hne] at hact
  obtain ⟨t, ht, hf, hi, -⟩ := rdhdr_raises hact hp
  exact ⟨t, ht, hf.phase, hf.status, hf.err, hi, hf.tv, congrArg InStream.pos hf.inp, hf.out, hf.trace⟩

/-! ### RDHDR: a whole tree -/

/-- Settles O30: `readSubtree` from the empty walk stack, where the subtree is the tree. -/
theorem headerSelfDescription : Obligations.HeaderSelfDescription := by
  intro s t rest ha hl hs
  have hsize := t.size_add_one
  rw [List.append_assoc] at ha
  obtain ⟨hact, hahead⟩ := rdhdrAct_marker ha
  obtain ⟨u, hloop, hu, hnalloc, -, -, hholds⟩ :=
    readSubtree t (headerAfterMarker s) rest rfl hahead (by simp [headerAfterMarker, headerStart]; omega) hs
  have hend : rdhdrAct s = .go (attach [] 0#10 u) := by
    have := hloop (514 - t.size)
    rw [Nat.sub_add_cancel (by omega)] at this
    exact hact.trans this
  have htree : (attach [] 0#10 u).tree = .ok t.shape :=
    hholds.treeAt (Nat.le_trans t.shape.depth_le_size (by rw [Tree.size_shape, Config.nodeCap]; omega))
  refine ⟨attach [] 0#10 u, by rw [show exec .rdhdr s = (rdhdrAct s).outcome from rfl, hend]; rfl, htree, ?_, ?_, rfl, ?_⟩
  · show u.inp.pos = _
    rw [hu]
    rfl
  · show u.nalloc.toNat = _
    rw [hnalloc]
    simp [headerAfterMarker, headerStart]
  · simp only [attach]
    rw [hu]
    simp [headerAfterMarker, headerStart]

/-! ### RDHDR: the faults of the tree (R153, R154) -/

/-- What the fetch stops with, the loop of RDHDR ends in (R150). -/
theorem rdhdrLoop_raise {s u : State} {fuel : Nat} {e : ErrKind} {info : BitVec 2} (hf : 0 < fuel) (he : s.expect = .node)
    (h : fetchNode s = .stopped (raise e info u)) : rdhdrLoop fuel s = raise e info u := by
  obtain ⟨fuel, rfl⟩ := Nat.exists_eq_add_of_lt hf
  rw [Nat.zero_add, rdhdrLoop_succ, headerStep, if_neg (node_ne_marker he), h]
  rfl

/-- Settles O32: where the marker's read, the nodes' reads or the reads of a subtree meet the end of the stream. -/
theorem truncatedHeaderIsRaised : Obligations.TruncatedHeaderIsRaised := by
  refine fun s hp => ⟨fun hl => ?_, fun nodes ha hn hs hleft => ?_, fun nodes p ha hpl hn hs hleft => ?_, fun t p ha hpre hne hl hs => ?_⟩
  · have hr := inReadBits_eos (n := 32) (s := headerStart s) hl
    have hact : rdhdrAct s = raise .truncatedStreamError 0#2 (inReadBits 32 (headerStart s)).2 := by
      rw [rdhdrAct_eq, headerStep, if_pos (by rfl), fetchMarker, hr]
      rfl
    rw [hr] at hact
    obtain ⟨t, ht, hf, hi, hroot⟩ := rdhdr_raises hact hp
    exact ⟨t, ht, hf.phase, hf.status, hf.err, hi, hf.tv, hroot, hf.out, hf.trace⟩
  · obtain ⟨u, hact, he, ha', hna, -, htrace, hphase, hroot, hout⟩ :=
      rdhdrAct_nodes (rest := []) (by rw [List.append_nil]; exact ha) hn.le hs hleft
    obtain ⟨v, hv, hv1, hv2, hv3, hv4⟩ := fetchNode_eos_tag ha' (by omega)
    obtain ⟨t, ht, hf, hi, hr⟩ := rdhdr_raises (hact.trans (rdhdrLoop_raise (by omega) he hv)) (hv1.trans (hphase.trans hp))
    refine ⟨t, ht, hf.phase, hf.status, hf.err, hi, hf.tv, hr.trans (hv2.trans hroot), hf.out.trans (hv3.trans hout), ?_⟩
    rw [hf.trace, hv4, htrace, List.append_assoc]
    rfl
  · obtain ⟨u, hact, he, ha', hna, -, htrace, hphase, hroot, hout⟩ := rdhdrAct_nodes ha hn.le hs hleft
    obtain ⟨v, hv, hv1, hv2, hv3, hv4⟩ := fetchNode_eos_sym ha' hpl (by omega)
    obtain ⟨t, ht, hf, hi, hr⟩ := rdhdr_raises (hact.trans (rdhdrLoop_raise (by omega) he hv)) (hv1.trans (hphase.trans hp))
    refine ⟨t, ht, hf.phase, hf.status, hf.err, hi, hf.tv, hr.trans (hv2.trans hroot), hf.out.trans (hv3.trans hout), ?_⟩
    rw [hf.trace, hv4, htrace, List.append_assoc]
    rfl
  · have hsize := t.size_add_one
    obtain ⟨hact, hahead⟩ := rdhdrAct_marker ha
    obtain ⟨u, c, hloop, hc, hphase, hroot, hout⟩ := readSubtree_truncated t (headerAfterMarker s) p rfl hahead hpre hne
      (by simp [headerAfterMarker, headerStart]; omega) hs (514 - t.size)
    rw [Nat.sub_add_cancel (by omega)] at hloop
    obtain ⟨v, hv, hf, hi, hr⟩ := rdhdr_raises (hact.trans hloop) (hphase.trans hp)
    refine ⟨v, hv, hf.phase, hf.status, hf.err, ?_, hf.tv, hr.trans hroot, hf.out.trans hout⟩
    obtain rfl | rfl := hc
    · exact .inl hi
    · exact .inr hi

/-- A node beyond the capacity is refused before its tag is read (R154, C10). -/
theorem fetchNode_full {s : State} (h : s.nalloc.toNat = 513) : fetchNode s = .stopped (raise .corruptTreeError 2#2 s) := by
  rw [fetchNode, if_pos (by exact h)]

/-- Settles O33: the node that meets NALLOC at the capacity is refused, inside a tree and after any 513 nodes. -/
theorem oversizedTreeIsRaised : Obligations.OversizedTreeIsRaised := by
  refine fun s rest hp => ⟨fun t ha hsz hs => ?_, fun nodes ha hn hs hleft => ?_⟩
  · rw [List.append_assoc] at ha
    obtain ⟨hact, hahead⟩ := rdhdrAct_marker ha
    obtain ⟨u, hloop, hphase, hout⟩ := readSubtree_oversized t (headerAfterMarker s) rest rfl hahead
      (by simp [headerAfterMarker, headerStart]) (by simpa [headerAfterMarker, headerStart] using hsz) hs 0
    obtain ⟨v, hv, hf, hi, -⟩ := rdhdr_raises (hact.trans hloop) (hphase.trans hp)
    exact ⟨v, hv, hf.phase, hf.status, hf.err, hi, hf.tv, hf.out.trans hout⟩
  · obtain ⟨u, hact, he, -, hna, hinp, htrace, hphase, -, hout⟩ := rdhdrAct_nodes ha hn.le hs hleft
    have hloop := rdhdrLoop_raise (fuel := 514 - nodes.length) (by omega) he (fetchNode_full (hna.trans hn))
    obtain ⟨t, ht, hf, hi, -⟩ := rdhdr_raises (hact.trans hloop) (hphase.trans hp)
    exact ⟨t, ht, hf.phase, hf.status, hf.err, hi, hf.tv, hf.out.trans hout, by rw [hf.inp, hinp], hf.trace.trans htrace⟩

/-- A leaf's symbol of 257 to 511 faults once its field was read (R154). -/
theorem readLeaf_reserved {s : State} {v : Nat} (hn : s.nalloc.toNat < 513) (h1 : 256 < v) (h2 : v < 512) :
    readLeaf (BitVec.ofNat 9 v) s = raise .corruptTreeError 1#2 { s with nalloc := s.nalloc + 1#10 } := by
  have hc : ¬ s.nalloc.toNat = Config.nodeCap := hn.ne
  have hv : (BitVec.ofNat 9 v).toNat > Config.eofSym := by
    rw [BitVec.toNat_ofNat, Nat.mod_eq_of_lt h2]
    exact h1
  rw [readLeaf, if_neg hc, if_pos hv]

theorem exec_nodeLeaf_rdhdr {s : State} (hp : s.phase = .rdhdr) (sym : Sym) : exec (.nodeLeaf sym) s = (readLeaf sym s).outcome := by
  show execNodeLeaf sym s = _
  simp only [execNodeLeaf, hp]

/-- The sequencer stands still in FAULT (R188). -/
theorem advanceIfEnded_of_fault {s : State} (h : s.phase = .fault) : advanceIfEnded s = s := by
  simp [advanceIfEnded, advancePhase, h]

/-- Settles O34: the checks of `fetchNode` and `readLeaf`, at the state behind any nodes and in a step. -/
theorem headerNodeChecks : Obligations.HeaderNodeChecks := by
  refine fun s hp => ⟨fun nodes v rest ha h1 h2 hn hs hleft => ?_, fun he hh hst => ⟨fun hn => ?_, fun v rest hn h1 h2 ha => ?_⟩⟩
  · obtain ⟨u, hact, he, ha', hna, hinp, htrace, hphase, -, hout⟩ := rdhdrAct_nodes ha hn.le hs hleft
    obtain ⟨hfetch, -⟩ := fetchNode_leaf (by omega) h2 ha'
    obtain ⟨fuel, hfuel⟩ : ∃ fuel, 514 - nodes.length = fuel + 1 := ⟨513 - nodes.length, by omega⟩
    rw [hfuel, rdhdrLoop_succ, headerStep, if_neg (node_ne_marker he), hfetch] at hact
    simp only at hact
    rw [readLeaf_reserved (by show u.nalloc.toNat < 513; omega) h1 h2] at hact
    obtain ⟨t, ht, hf, hi, -⟩ := rdhdr_raises hact (hphase.trans hp)
    refine ⟨t, ht, hf.phase, hf.status, hf.err, hi, hf.tv, hf.out.trans hout, by rw [hf.inp, hinp], ?_⟩
    rw [hf.trace]
    show u.trace ++ _ = _
    rw [htrace, List.append_assoc]
    rfl
  · have hfetch : fetchElement s = .stopped (raise .corruptTreeError 2#2 s) := by
      simp only [fetchElement, he, fetchNode_full hn]
    obtain ⟨t, ht, hf⟩ := raise_outcome .corruptTreeError 2#2 s
    refine ⟨t, ?_, hf.phase, hf.err, ?_, hf.inp, hf.trace⟩
    · rw [step_of_noHost hh, coreStep_of_element hst (by rw [he]; decide), elementStep_stopped hfetch, ht]
    · rw [hf.errinfo, hp]
      rfl
  · obtain ⟨hnode, -⟩ := fetchNode_leaf hn h2 ha
    have hfetch : fetchElement s = fetchNode s := by simp only [fetchElement, he]
    rw [hnode] at hfetch
    rw [step_of_noHost hh, coreStep_of_element hst (by rw [he]; decide), elementStep_got hfetch, exec_nodeLeaf_rdhdr (by exact hp),
      readLeaf_reserved (by exact hn) h1 h2]
    obtain ⟨t, ht, hf⟩ := raise_outcome .corruptTreeError 1#2 _
    rw [ht]
    refine ⟨_, rfl, ?_⟩
    rw [advanceIfEnded_of_fault hf.phase, hf.errinfo, hf.inp]
    refine ⟨hf.phase, hf.err, ?_, rfl⟩
    show errinfoOf s.phase 1#2 = _
    rw [hp]
    rfl

/-! ### RDHDR: element by element (log 17) -/

/-- What `attach` does where the stack below the completed nodes is known (R150). -/
theorem attach_nil (p : Ptr) (s : State) :
    attach [] p s = { s with walk := [], root := p, tv := true, expect := .unit, free := s.free + 1 } := rfl

theorem attach_waits (q p : Ptr) (st : List Frame) (s : State) :
    attach ({ ptr := q, left := none } :: st) p s = { s with walk := { ptr := q, left := some p } :: st } := rfl

/-- RDHDR's state when a leaf has taken its entry, before it is attached (R150). -/
def leafTaken (sym : Sym) (s : State) : State := State.setNode { s with nalloc := s.nalloc + 1#10 } s.nalloc (leafNode sym 0#41)

theorem readLeaf_taken {sym : Sym} {s : State} (hn : s.nalloc.toNat < 513) (hs : sym.toNat ≤ 256) :
    readLeaf sym s = .go (attach s.walk s.nalloc (leafTaken sym s)) := by
  have hc : ¬ s.nalloc.toNat = Config.nodeCap := hn.ne
  have hsym : ¬ sym.toNat > Config.eofSym := hs.not_gt
  rw [readLeaf, if_neg hc, if_neg hsym]
  rfl

theorem leafTaken_nodeAt (sym : Sym) {s : State} (hn : s.nalloc.toNat < 513) (p : Ptr) :
    (leafTaken sym s).nodeAt p = if p = s.nalloc then some (leafNode sym 0#41) else s.nodeAt p := by
  rw [State.nodeAt, leafTaken, setNode_getElem]
  by_cases h : p = s.nalloc
  · rw [if_pos h, if_pos ⟨by rw [h], by rw [h]; exact hn⟩]
  · rw [if_neg h, if_neg fun h' => h (BitVec.eq_of_toNat_eq h'.1.symm)]
    rfl

/-- Settles O43: `attach_changes` says what a leaf leaves alone, `attach_full` what the completed nodes become. -/
theorem headerElementsBuildTheTree : Obligations.HeaderElementsBuildTheTree := by
  refine fun s sym hp => ⟨?_, fun hn => ?_, fun hn hs => ?_⟩
  · show execMarker s.magic s = _
    simp only [execMarker, hp, readMarker, if_true]
    rfl
  · show execNodeInternal s = _
    have hc : ¬ s.nalloc.toNat = Config.nodeCap := hn.ne
    simp only [execNodeInternal, hp, readInternal, if_neg hc]
    rfl
  · obtain ⟨hframe, hother⟩ := attach_changes s.walk s.nalloc (leafTaken sym s)
    refine ⟨attach s.walk s.nalloc (leafTaken sym s), ?_, hframe, fun p hne hw => ?_, fun full st hwalk hst hd hb => ?_⟩
    · rw [exec_nodeLeaf_rdhdr hp, readLeaf_taken hn hs]
      rfl
    · rw [hother p hw, leafTaken_nodeAt sym hn, if_neg hne]
    · obtain ⟨hfresh, hd⟩ := List.nodup_cons.mp hd
      obtain ⟨nd, hattach, hkept, hfull⟩ := attach_full st full s.nalloc (leafTaken sym s) hd hb
      have hnode : (attach s.walk s.nalloc (leafTaken sym s)).node = nd := by
        rw [hwalk, hattach]
        match st with
        | [] => rfl
        | { ptr := q, left := none } :: st' => rfl
        | { ptr := q, left := some l } :: st' => exact absurd (hst _ rfl) (by simp)
      refine ⟨?_, fun i q l hi => ?_, ?_, ?_⟩
      · rw [State.nodeAt, hnode, hkept s.nalloc fun f hf h => hfresh (h ▸ List.mem_map_of_mem hf)]
        exact (leafTaken_nodeAt sym hn s.nalloc).trans (if_pos rfl)
      · obtain ⟨r, hr, hq⟩ := hfull i q l hi
        exact ⟨_, r, by rw [State.nodeAt, hnode]; exact hq, hr, rfl, rfl, rfl, rfl⟩
      · rintro rfl
        rw [hwalk, hattach, attach_nil]
        exact ⟨rfl, rfl, rfl, rfl⟩
      · rintro q st' rfl
        rw [hwalk, hattach, attach_waits]
        exact ⟨rfl, rfl, rfl, rfl⟩

end Sys2Proof.Machine
end

section
/-! Proofs. COUNT, BUILD and GENCODES (41_symbol_frequency_counter.md, 42_huffman_tree_builder.md, 43_canonical_code_generator.md). -/

namespace Sys2Proof.Machine

/-! ### COUNT -/

/-- The state COUNT's loop starts from (R110). -/
def countStart (s : State) : State := { s with freq := Vector.replicate Config.eofSym 0#32 }

theorem countAct_eq (s : State) :
    countAct s = (countLoop (s.unread + 1) (countStart s)).andThen fun t => .go { t with fv := true } := rfl

theorem countStart_freqAt (s : State) (b : Byte) : (countStart s).freqAt b.toNat = 0#32 := by
  have hb : b.toNat < 256 := b.isLt
  simp [State.freqAt, countStart, Config.eofSym, hb, hb.ne]

/-- A unit has a pass for every byte of the input (R216). -/
theorem length_le_unread {s : State} {bytes : List Byte} {tail : List Bool} (ha : s.ahead = bitsOfBytes bytes ++ tail) :
    bytes.length ≤ s.unread := by
  have := congrArg List.length ha
  simp [State.ahead] at this
  unfold State.unread
  omega

/-- Settles O22: the loop's counts, from a table of zeros. -/
theorem countTabulatesTheInput : Obligations.CountTabulatesTheInput := by
  intro s bytes tail hp ha ht hc
  have hfuel := length_le_unread ha
  obtain ⟨u, hu, hcount, hframe, hlo, hhi⟩ := countLoop_spec (s.unread + 1) (countStart s) bytes tail hp ha ht (by omega)
    fun b => by simpa [countStart_freqAt] using hc b
  refine ⟨{ u with fv := true }, ?_, fun b => ?_, rfl, ?_, hlo, hhi⟩
  · show (countAct s).outcome = _
    rw [countAct_eq, hu]
    rfl
  · exact (hcount b).trans (by simp [countStart_freqAt])
  · rw [hframe]
    rfl

/-- Settles O23: the loop overflows, from a table of zeros. -/
theorem countOverflowIsRaised : Obligations.CountOverflowIsRaised := by
  intro s bytes tail b ha hc hp
  have hfuel := length_le_unread ha
  obtain ⟨u, t, hloop, hraise, hphase, hout⟩ := countLoop_overflow (s.unread + 1) (countStart s) bytes tail b ha (by omega)
    (Nat.le_trans hc (Nat.le_add_left _ _))
  obtain ⟨t', ht', hf⟩ := raise_outcome .countOverflow 0#2 u
  refine ⟨t', ?_, hf.phase, hf.status, hf.err, ?_, hf.fv, hf.tv, hf.cv, hf.out.trans hout⟩
  · show (countAct s).outcome = _
    rw [countAct_eq, hloop, ← hraise, ← ht', hraise]
    rfl
  · rw [hf.errinfo, hphase, show (countStart s).phase = .count from hp]
    rfl

/-! ### BUILD -/

/-- Settles O24: `least` is in the queue, and no key is smaller. -/
theorem removeMinTakesTheLeastKey : Obligations.RemoveMinTakesTheLeastKey := by
  refine fun s q => ⟨fun h => by rw [h]; rfl, fun h => ?_⟩
  obtain ⟨x, es, rfl⟩ := List.exists_cons_of_ne_nil h
  refine ⟨_, _, rfl, removeMin_perm rfl, fun y hy => ?_⟩
  have hle := (keyLt_false ..).mp ((least_spec s es x).2 y hy)
  omega

/-- Settles O25: the queue of one tree that `build_spec` ends with, and the order `removeMin` keeps. -/
theorem buildMakesTheTreeOfTheCounts : Obligations.BuildMakesTheTreeOfTheCounts := by
  intro s
  obtain ⟨t, e, T, hact, hq, hroot, hQ, hframe⟩ := build_spec removeMin_takes s
  obtain ⟨next, hord⟩ := build_ordered hact
  have hfreq : t.freqAt = s.freqAt := by
    rw [hframe]
    rfl
  have hperm := hQ.perm
  have hcount := hQ.count
  have halloc := hQ.alloc
  have hlast := hQ.last e (by rw [hq]; rfl)
  rw [hq, List.flatMap_singleton] at hperm
  rw [hq, List.length_singleton] at hcount
  have hlen := hperm.length_eq
  rw [List.length_map] at hlen
  refine ⟨t, T e.ptr, congrArg Act.outcome hact, build_tree hQ hq hroot, hperm, ?_, fun p n hp hn hl => ?_, by omega,
    by rw [hroot]; omega, by omega, by rw [hq, hroot]; rfl, ?_⟩
  · rw [← hfreq]
    exact hQ.exact e (by simp [hq])
  · obtain ⟨-, -, l, r, hleft, hright, hkey⟩ := hord.node p.toNat hp n hn hl
    exact ⟨l, r, hleft, hright, hkey⟩
  · rw [hframe]

/-- R126 at the end of BUILD: the same nodes, and the same root. -/
theorem build_sameCounts {s s' t t' : State} (hf : ∀ n, n ≤ 256 → s.freqAt n = s'.freqAt n) (h : buildAct s = .go t)
    (h' : buildAct s' = .go t') : SameCounts t t' ∧ t.root = t'.root := by
  have hleaves := buildLeaves_same hf
  obtain ⟨-, T, hT⟩ := buildLeaves_spec s
  have hl : ((List.range 257).filter fun sym => s.freqAt sym ≠ 0#32).length ≤ 257 :=
    Nat.le_trans (List.length_filter_le ..) (by simp)
  have hsame := sameCounts_mergeLoop (buildLeaves s).q.length (buildLeaves s) (buildLeaves s') T _ hleaves hT hl
  have ht : buildEnd (mergeLoopBy State.removeMin (buildLeaves s).q.length (buildLeaves s)) = t := Act.go.inj h
  have ht' : buildEnd (mergeLoopBy State.removeMin (buildLeaves s').q.length (buildLeaves s')) = t' := Act.go.inj h'
  rw [← hleaves.q] at ht'
  generalize mergeLoopBy State.removeMin (buildLeaves s).q.length (buildLeaves s) = u at hsame ht
  generalize mergeLoopBy State.removeMin (buildLeaves s).q.length (buildLeaves s') = u' at hsame ht'
  subst ht ht'
  refine ⟨⟨hsame.freq, hsame.nalloc, hsame.q, hsame.k, hsame.nodes, hsame.lt⟩, ?_⟩
  simp only [buildEnd, hsame.q]

theorem buildAct_of_exec {s t : State} (h : exec .build s = .next t) : buildAct s = .go t := by
  obtain ⟨u, -, -, hact, -⟩ := build_spec removeMin_takes s
  rw [show exec .build s = (buildActBy State.removeMin s).outcome from rfl, hact] at h
  obtain rfl : u = t := Host.Outcome.next.inj h
  exact hact

/-- Settles O26: the tree held by the one node memory is held by the other, whose entries agree with it. -/
theorem buildDependsOnTheCountsAlone : Obligations.BuildDependsOnTheCountsAlone := by
  intro s s' t t' hf h h'
  replace h := buildAct_of_exec h
  replace h' := buildAct_of_exec h'
  obtain ⟨hsame, hrr⟩ := build_sameCounts hf h h'
  obtain ⟨u, e, T, hact, hq, hroot, hQ, -⟩ := build_spec removeMin_takes s
  obtain rfl : u = t := Act.go.inj (hact.symm.trans h)
  have htree := build_tree hQ hq hroot
  have hholds := (hQ.holds e (by simp [hq])).of_sameNodes hsame.nodes
  have hsize : (T e.ptr).size ≤ 513 := by
    have h1 := (T e.ptr).size_add_one
    have h2 := hQ.perm.length_eq
    have h3 := List.length_filter_le (fun sym => decide (s.freqAt sym ≠ 0#32)) (List.range 257)
    simp only [hq, List.flatMap_singleton, List.length_map] at h2
    simp only [List.length_range] at h3
    omega
  rw [htree, State.tree, ← hrr, hroot, hholds.treeAt (Nat.le_trans (Tree.depth_le_size _) hsize)]

/-- Settles O27: the loop's pass, and the fields of `merge`. -/
theorem mergeMakesTheInternalNode : Obligations.MergeMakesTheInternalNode := by
  refine fun s a b => ⟨fun fuel q1 q2 e1 e2 => mergeLoopBy_pass fuel e1 e2, fun q hn hw hk => ?_⟩
  have hnode : (s.merge a b q).nodeAt s.nalloc = some (internalNode s.free s.nalloc (BitVec.ofNat 41 (s.weightOf a + s.weightOf b)) a.ptr b.ptr) :=
    (setNode_getElem s s.nalloc _ _).trans (if_pos ⟨rfl, hn⟩)
  have hn' : s.nalloc.toNat < 513 := hn
  refine ⟨_, hnode, rfl, rfl, rfl, ?_, ?_, ?_, _, rfl, rfl, ?_⟩
  · show (BitVec.ofNat 41 _).toNat = _
    rw [BitVec.toNat_ofNat, Nat.mod_eq_of_lt hw]
  · show (s.k + 1#9).toNat = _
    bv_omega
  · show (s.nalloc + 1#10).toNat = _
    bv_omega
  · show (BitVec.ofNat 10 (257 + s.k.toNat)).toNat = _
    rw [BitVec.toNat_ofNat, Nat.mod_eq_of_lt (by omega)]

/-! ### GENCODES -/

theorem codevAt_cleared (s : State) (n : Nat) : State.codevAt { s with codev := Vector.replicate Config.alph false } n = false := by
  by_cases h : n < 257 <;> simp [State.codevAt, Config.alph, h]

/-- A symbol labels a leaf exactly when it has a path (R130). -/
theorem mem_symbols_iff (t : Tree) (sym : Sym) : sym ∈ t.symbols ↔ ∃ c ∈ t.codes, c.1 = sym := by
  rw [← Tree.codesFrom_symbols t []]
  exact List.mem_map

/-- GENCODES on a tree, its symbols in range (R20, R130). -/
theorem gencodesAct_tree {s : State} {t : Tree} (ht : s.tree = .ok t) :
    gencodesAct s = .go { t.codes.foldl recordCode { s with codev := Vector.replicate Config.alph false } with cv := true } ∧
    ∀ c ∈ t.codes, c.1.toNat ≤ 256 := by
  refine ⟨by simp [gencodesAct, ht], fun c hc => ?_⟩
  exact treeAt_symbols _ _ _ _ ht c.1 ((mem_symbols_iff t c.1).mpr ⟨c, hc, rfl⟩)

/-- Settles O28: recording leaf after leaf sets CODEV of their symbols, and the last leaf of a symbol is not written over. -/
theorem gencodesRecordsThePaths : Obligations.GencodesRecordsThePaths := by
  intro s t ht
  obtain ⟨hact, hrange⟩ := gencodesAct_tree ht
  refine ⟨_, congrArg Act.outcome hact, ?_, fun sym => ?_, fun before after sym path hcodes hafter => ?_⟩
  · rw [foldl_recordCode_frame]
  · show State.codevAt _ _ = _
    refine (foldl_recordCode_codevAt t.codes hrange _ _).trans ?_
    rw [codevAt_cleared, Bool.false_or]
    simp only [mem_symbols_iff, BitVec.toNat_inj]
  · have hmem : ∀ c ∈ (sym, path) :: after, c.1.toNat ≤ 256 := fun c hc => hrange c (by rw [hcodes]; exact List.mem_append_right _ hc)
    show State.codeAt (t.codes.foldl recordCode _) _ = _
    rw [hcodes, List.foldl_append, List.foldl_cons, foldl_recordCode_codeAt after (fun c hc => hmem c (by simp [hc])) _ _
      (fun c hc h => hafter c hc (BitVec.eq_of_toNat_eq h)), recordCode_codeAt _ _ (hmem _ (by simp)), if_pos rfl]

end Sys2Proof.Machine
end

section
/-! Proofs. ENCODE and DECODE (46_huffman_encoder.md, 47_huffman_decoder.md), and a codeword run by itself (log 17). -/

namespace Sys2Proof.Machine

/-! ### ENCODE -/

theorem exec_encode (s : State) :
    exec .encode s = ((encodeLoop (s.unread + 1) s).andThen fun t => .go { t with cv := false }).outcome := rfl

/-- Settles O35: the loop on bytes that all have an entry. -/
theorem encodeEmitsTheCodes : Obligations.EncodeEmitsTheCodes := by
  intro s bytes tail ha ht hc ho
  have hfuel := length_le_unread ha
  obtain ⟨p, f, hloop⟩ := encodeLoop_spec (s.unread + 1) s bytes tail ha ht (by omega) hc ho
  refine ⟨_, by rw [exec_encode, hloop]; rfl, rfl⟩

/-- Settles O36: the loop up to the byte without an entry. -/
theorem byteWithoutCodeIsRaised : Obligations.ByteWithoutCodeIsRaised := by
  intro s bytes b rest ha hc hb ho hp
  have hfuel := length_le_unread ha
  obtain ⟨u, hloop, hphase, hout, hpos⟩ := encodeLoop_missing (s.unread + 1) s bytes b rest ha (by omega) hc hb ho
  obtain ⟨t, ht, hf⟩ := raise_outcome .missingCode 0#2 u
  refine ⟨t, ?_, hf.phase, hf.status, hf.err, ?_, hf.out.trans hout, by rw [hf.inp, hpos]⟩
  · rw [exec_encode, hloop, ← ht]
    rfl
  · rw [hf.errinfo, hphase, hp]
    rfl

/-! ### DECODE before and in its loop -/

/-- The state DECODE's loop starts from (R170). -/
def decodeStart (s : State) : State := { s with cur := s.root, expect := .codeword }

/-- DECODE at a root that is the sentinel's leaf (R171). -/
theorem decodeAct_sentinel {s : State} {n : Node} (hn : s.nodeAt s.root = some n) (hl : n.leaf = true) (hs : n.sym = 256#9) :
    decodeAct s = .go { s with cur := s.root, expect := .unit } := by
  have hroot : s.root ≠ Config.null := by
    intro h
    simp [h] at hn
  have hn' : State.nodeAt { s with cur := s.root } s.root = some n := hn
  simp [decodeAct, hroot, hn', hl, hs]

/-- DECODE at any other root enters its loop (R170). -/
theorem decodeAct_loop {s : State} {n : Node} (hn : s.nodeAt s.root = some n) (hl : n.leaf = true → n.sym ≠ 256#9) :
    decodeAct s = decodeLoop (s.unread + 1) (decodeStart s) := by
  have hroot : s.root ≠ Config.null := by
    intro h
    simp [h] at hn
  have hn' : State.nodeAt { s with cur := s.root } s.root = some n := hn
  have hstop : ¬ (n.leaf = true ∧ n.sym.toNat = Config.eofSym) := fun h => hl h.1 ((toNat_eq_eofSym n.sym).mp h.2)
  simp only [decodeAct, hn', if_neg hroot, Bool.and_eq_true, decide_eq_true_eq, if_neg hstop]
  rfl

/-- A pass from a node whose child is NULL (R175). -/
theorem decodePass_null {s : State} {n : Node} {b : Bool} (hn : s.nodeAt s.cur = some n) (hb : childOf n b = Config.null) :
    decodePass b s = raise .corruptTreeError 0#2 { s with cur := Config.null } := by
  simp [decodePass, hn, hb]

/-- Settles O38: the test before the loop. -/
theorem decodeStopsAtASentinelRoot : Obligations.DecodeStopsAtASentinelRoot :=
  fun _ _ hn hl hs => congrArg Act.outcome (decodeAct_sentinel hn hl hs)

/-- Fault entry out of DECODE, whatever the state inside it. -/
theorem decode_raises {s u : State} {e : ErrKind} {info : BitVec 2} (hact : decodeAct s = raise e info u) (hp : u.phase = .decode) :
    ∃ t, exec .decode s = .next t ∧ FaultOf e info u t ∧ t.errinfo = errinfoOf .decode info := by
  obtain ⟨t, ht, hf⟩ := raise_outcome e info u
  exact ⟨t, (congrArg Act.outcome hact).trans ht, hf, hp ▸ hf.errinfo⟩

/-- The unread bits of a stream whose rest is known. -/
theorem unread_eq {s : State} {bits : List Bool} (ha : s.ahead = bits) : s.unread = bits.length := by
  rw [← ha, State.ahead, List.length_drop]
  rfl

/-- Settles O40: a pass from a childless root, the loop down internal nodes, and the test before the loop. -/
theorem absentCursorIsRaised : Obligations.AbsentCursorIsRaised := by
  refine fun s hp => ⟨fun n b rest hn hl hs h1 h2 ha => ?_, fun c n b rest hd hn hb ha => ?_, fun hroot => ?_⟩
  · have hchild : childOf n b = Config.null := by cases b <;> assumption
    obtain ⟨hloop, -⟩ := decodeLoop_bit s.unread (s := decodeStart s) ha
    rw [decodePass_null (by exact hn) hchild] at hloop
    obtain ⟨t, ht, hf, hi⟩ := decode_raises ((decodeAct_loop hn fun _ => hs).trans hloop) (by exact hp)
    exact ⟨t, ht, hf.phase, hf.status, hf.err, hi, hf.out, congrArg InStream.pos hf.inp⟩
  · obtain ⟨m, hm, hml⟩ := hd [] List.nil_prefix
    have hfuel : s.unread + 1 = rest.length + 1 + c.length + 1 := by
      rw [unread_eq ha]
      simp
      omega
    have hwalk : ∀ d, (decodeStart s).walkTo (decodeStart s).cur d = s.walkTo s.root d :=
      fun d => walkTo_congr (s := s) (t := decodeStart s) rfl d s.root
    obtain ⟨u, hloop, hphase, hout, hpos⟩ := decodeLoop_absent c (decodeStart s) n b rest (rest.length + 1)
      (fun d hd' => by rw [hwalk]; exact hd d hd') (by rw [hwalk]; exact hn) hb ha rfl
    rw [← hfuel] at hloop
    obtain ⟨t, ht, hf, hi⟩ := decode_raises ((decodeAct_loop hm fun h => absurd h (by simp [hml])).trans hloop) (hphase.trans hp)
    exact ⟨t, ht, hf.phase, hf.status, hf.err, hi, hf.out.trans hout, by rw [hf.inp, hpos]; rfl⟩
  · have hact : decodeAct s = raise .corruptTreeError 0#2 { s with cur := s.root } := if_pos hroot
    obtain ⟨t, ht, hf, hi⟩ := decode_raises hact hp
    exact ⟨t, ht, hf.phase, hf.status, hf.err, hi, hf.out, hf.inp⟩

/-! ### DECODE along the paths of a tree -/

/-- The root's entry where the node memory holds a tree of two leaves or more. -/
theorem root_of_internal {s : State} {w : Nat} {l r : Tree} (ht : s.tree = .ok (.internal w l r)) :
    ∃ n, s.nodeAt s.root = some n ∧ n.leaf = false := by
  obtain ⟨n, hn, hl, -⟩ := spells_of_tree ht
  exact ⟨n, hn, hl⟩

/-- The literals of a payload: DECODE's loop writes them and stands at the root again (R173). -/
def literalsDecoded (words : List (Sym × List Bool)) (s : State) : State :=
  { decodeStart s with
    trace := s.trace ++ words.flatMap (fun w => bitReads w.2 ++ [.outWriteBits 8 w.1.toNat])
    inp := { s.inp with pos := s.inp.pos + (words.flatMap (fun w => w.2)).length }
    out := { s.out with bits := s.out.bits ++ words.flatMap (fun w => bitsOf 8 w.1.toNat) } }

/-- DECODE past the literals of a payload (R173), where the tree has two leaves or more. -/
theorem decodeAct_words {s : State} {w : Nat} {l r : Tree} {words : List (Sym × List Bool)} {rest : List Bool}
    (ht : s.tree = .ok (.internal w l r)) (ho : s.out.closed = false)
    (hw : ∀ x ∈ words, x ∈ (Tree.internal w l r).codes ∧ x.1.toNat < 256) (ha : s.ahead = words.flatMap (fun w => w.2) ++ rest) :
    decodeAct s = decodeLoop (rest.length + 1) (literalsDecoded words s) ∧ (literalsDecoded words s).ahead = rest := by
  obtain ⟨n, hn, hl⟩ := root_of_internal ht
  obtain ⟨hloop, hahead⟩ := decodeLoop_words words (decodeStart s) rest (rest.length + 1) (spells_of_tree ht) rfl rfl ho
    (fun x hx => ⟨(hw x hx).1, (hw x hx).2, Tree.codes_ne_nil rfl (hw x hx).1⟩) ha
  have hfuel : s.unread + 1 = rest.length + 1 + (words.flatMap (fun w => w.2)).length := by
    rw [unread_eq ha, List.length_append]
    omega
  refine ⟨?_, hahead⟩
  rw [decodeAct_loop hn fun h => absurd h (by simp [hl]), hfuel, hloop]
  rfl

/-- In a tree of one leaf the only path is empty (R131). -/
theorem mem_codes_leaf {sym : Sym} {w : Nat} {c : Sym × List Bool} : c ∈ (Tree.leaf sym w).codes ↔ c = (sym, []) := by
  simp [Tree.codes, Tree.codesFrom]

/-- Settles O37: a sentinel alone stops DECODE before its loop; else the loop writes the literals, and the sentinel's path ends it. -/
theorem decodeFollowsThePaths : Obligations.DecodeFollowsThePaths := by
  intro s t words stop rest ht ho hw hstop ha
  have hclosed : ∀ bits, { s.out with bits := bits } = { bits := bits, closed := false } := fun bits => by rw [← ho]
  cases t with
  | leaf sym w =>
    obtain ⟨rfl, rfl⟩ := Prod.mk.inj (mem_codes_leaf.mp hstop)
    have hnil : words = [] := by
      refine List.eq_nil_iff_forall_not_mem.mpr fun x hx => ?_
      obtain ⟨hx1, hx2⟩ := hw x hx
      rw [mem_codes_leaf.mp hx1] at hx2
      exact absurd hx2 (by decide)
    subst hnil
    obtain ⟨n, hn, hl, hs⟩ := spells_of_tree ht
    rw [show exec .decode s = (decodeAct s).outcome from rfl, decodeAct_sentinel hn hl hs]
    simp [State.walkTo, bitReads, ← hclosed]
  | internal w l r =>
    rw [List.append_assoc] at ha
    obtain ⟨hact, hahead⟩ := decodeAct_words ht ho hw ha
    obtain ⟨hloop, -⟩ := decodeLoop_path (.internal w l r) (literalsDecoded words s) 256#9 stop rest (rest.length + 1)
      (spells_of_tree ht) hstop (Tree.codes_ne_nil rfl hstop) rfl hahead
    have hfuel : (stop ++ rest).length + 1 = rest.length + 1 + stop.length := by
      rw [List.length_append]
      omega
    rw [show exec .decode s = (decodeAct s).outcome from rfl, hact, hfuel, hloop, leafAct, if_pos rfl, Act.go_andThen, continueDecode,
      if_pos rfl, walkTo_congr (s := s) (by rfl)]
    simp [literalsDecoded, decodeStart, ← hclosed, Nat.add_assoc]

/-- Settles O39: the loop past the literals, on bits that end inside a path; and its first read at a root that is a leaf. -/
theorem truncatedPayloadIsRaised : Obligations.TruncatedPayloadIsRaised := by
  refine ⟨fun s t words c p ht ho hp hw hc hpre hne ha => ?_, fun s n hp hn hl hs ha => ?_⟩
  · have hclosed : ∀ bits, { s.out with bits := bits } = { bits := bits, closed := false } := fun bits => by rw [← ho]
    cases t with
    | leaf sym w =>
      rw [mem_codes_leaf.mp hc] at hpre hne
      exact absurd (List.prefix_nil.mp hpre) hne
    | internal w l r =>
      obtain ⟨hact, hahead⟩ := decodeAct_words ht ho hw ha
      obtain ⟨u, hloop, hphase, hout⟩ := decodeLoop_partial (.internal w l r) (literalsDecoded words s) c p 0 (spells_of_tree ht) hc
        hpre hne rfl hahead
      rw [Nat.zero_add] at hloop
      obtain ⟨v, hv, hf, hi⟩ := decode_raises (hact.trans hloop) (hphase.trans hp)
      exact ⟨v, hv, hf.phase, hf.status, hf.err, hi, hf.out.trans (hout.trans (hclosed _))⟩
  · have hr := inReadBits_eos (n := 1) (s := decodeStart s) (by show s.ahead.length < 1; rw [ha]; decide)
    have hloop : decodeAct s = raise .truncatedStreamError 3#2 (inReadBits 1 (decodeStart s)).2 := by
      rw [decodeAct_loop hn fun _ => hs, decodeLoop, hr]
    rw [hr] at hloop
    obtain ⟨v, hv, hf, hi⟩ := decode_raises hloop hp
    exact ⟨v, hv, hf.phase, hf.status, hf.err, hi, hf.out, hf.trace⟩

/-- What DECODE can do before its loop (R170, R171, R175 (c), R9). -/
theorem decodeAct_cases (s : State) :
    decodeAct s = raise .corruptTreeError 0#2 { s with cur := s.root } ∨ decodeAct s = .fault .nodeIndex { s with cur := s.root } ∨
    decodeAct s = .go { s with cur := s.root, expect := .unit } ∨ decodeAct s = decodeLoop (s.unread + 1) (decodeStart s) := by
  by_cases hroot : s.root = Config.null
  · exact .inl (if_pos hroot)
  cases hn : s.nodeAt s.root with
  | none =>
    have hn' : State.nodeAt { s with cur := s.root } s.root = none := hn
    exact .inr (.inl (by simp [decodeAct, hroot, hn']))
  | some n =>
    by_cases hstop : n.leaf = true ∧ n.sym = 256#9
    · exact .inr (.inr (.inl (decodeAct_sentinel hn hstop.1 hstop.2)))
    · exact .inr (.inr (.inr (decodeAct_loop hn fun hl hs => hstop ⟨hl, hs⟩)))

/-- Settles O41: DECODE's loop writes whole bytes, and its other ends write nothing. -/
theorem decodeWritesWholeBytes : Obligations.DecodeWritesWholeBytes := by
  intro s t h
  replace h : (decodeAct s).outcome = .next t := h
  obtain hact | hact | hact | hact := decodeAct_cases s <;> rw [hact] at h
  · obtain ⟨u, hu, hf⟩ := raise_outcome .corruptTreeError 0#2 { s with cur := s.root }
    obtain rfl : u = t := Host.Outcome.next.inj (hu.symm.trans h)
    exact ⟨[], by rw [hf.out]; simp⟩
  · exact nomatch h
  · obtain rfl := Host.Outcome.next.inj h
    exact ⟨[], by simp⟩
  · exact decodeLoop_out _ (s := decodeStart s) (Act.outcome_eq_next.mp h)

/-! ### A codeword by itself (log 17) -/

/-- Settles O44: in ENCODE a codeword is `emit`, in DECODE `decodeBits`, and the fetch reads what `takeCodeword` takes. -/
theorem codewordsAreEmittedAndWalked : Obligations.CodewordsAreEmittedAndWalked := by
  refine ⟨fun s t sym c ho => ⟨fun hp => ?_, fun hp => ?_, fun hp ht hcur he hc hne => ?_⟩, fun s t ht hl hcur he => ?_⟩
  · show execCodeword c s = _
    simp only [execCodeword, hp, emit_open c ho]
    rfl
  · show execCodeword [] s = _
    simp only [execCodeword, hp, decodeBits]
    rfl
  · have hexec : exec (.codeword c) s = (decodeBits c s).outcome := by
      show execCodeword c s = _
      simp only [execCodeword, hp]
    have hbits := decodeBits_path t s sym c (by rw [hcur]; exact spells_of_tree ht) hc hne he
    refine ⟨fun hsym => ?_, ?_⟩
    · rw [leafAct_literal hsym (by exact ho)] at hbits
      rw [hexec, hbits]
      simp [State.wrote, ← hcur]
    · rintro rfl
      rw [hexec, hbits, hcur]
      rfl
  · obtain ⟨w, l, r, rfl⟩ : ∃ w l r, t = .internal w l r := by
      cases t with
      | leaf sym w => simp [Tree.symbols] at hl
      | internal w l r => exact ⟨w, l, r, rfl⟩
    have hfetch : fetchElement s = fetchCodeword (s.unread + 1) s.cur [] s := by simp only [fetchElement, he]
    have hreads := fetchCodeword_reads w l r (s.unread + 1) s.cur [] s (by rw [hcur]; exact spells_of_tree ht)
      (by rw [unread_eq rfl]; omega)
    rw [← hfetch] at hreads
    refine ⟨fun i rest hd => ?_, fun e hd => ?_⟩
    · obtain ⟨c, rfl, hc⟩ := decode_codeword_ok hd
      rw [hc] at hreads
      exact hreads
    · cases hc : takeCodeword (.internal w l r) s.ahead with
      | none =>
        rw [hc] at hreads
        exact hreads
      | some cr => simp [decode, hc] at hd

end Sys2Proof.Machine
end

section
/-! Proofs. What a host action and an operation of the core can do, said once; and what every step keeps: MAGIC, the agreement of the
control registers, the preconditions of the operations (R42, R106). -/

namespace Sys2Proof.Machine

/-! ### The host's actions -/

/-- `u` is `s` after at most a reset's first part: MAGIC and the script as in `s`, IN.pos inside the stream where it was. -/
structure Abandons (s u : State) : Prop where
  magic : u.magic = s.magic
  pos : s.inp.pos ≤ s.inp.bits.length → u.inp.pos ≤ u.inp.bits.length

/-- What an action of the host can do: reset, write a command, or replace a transport and what the model records of the host. -/
theorem hostAct_cases {a : HostAction} {s t : State} (h : hostAct a s = .next t) :
    (∃ u, Abandons s u ∧ t = u.coreReset) ∨ (∃ p, (p = .count ∨ p = .rdhdr) ∧ t = accept p s) ∨
    ∃ inp out reads stalled, t = { s with inp := inp, out := out, reads := reads, stalled := stalled } ∧
      (inp = s.inp ∨ s.phase.busy = false ∧ inp.pos = 0) := by
  cases a with
  | reset =>
    have hmagic : (abandon s).magic = s.magic := (foldl_applyTxn_frame _ _).1
    have ht : t = if s.phase.busy = true then (abandon s).coreReset else s.coreReset := (Host.Outcome.next.inj h).symm
    split at ht
    · exact .inl ⟨abandon s, ⟨hmagic, abandon_pos⟩, ht⟩
    · exact .inl ⟨s, ⟨rfl, id⟩, ht⟩
  | attachIn bits second =>
    by_cases hb : s.phase.busy = true
    · simp [hostAct, hb] at h
    · simp only [hostAct, if_neg hb, Host.Outcome.next.injEq] at h
      exact .inr (.inr ⟨_, s.out, s.reads, false, h.symm, .inr ⟨by simpa using hb, rfl⟩⟩)
  | attachOut =>
    by_cases hb : s.phase.busy = true
    · simp [hostAct, hb] at h
    · simp only [hostAct, if_neg hb, Host.Outcome.next.injEq] at h
      exact .inr (.inr ⟨s.inp, _, s.reads, s.stalled, h.symm, .inl rfl⟩)
  | write r v =>
    replace h : hostWrite r v s = .next t := h
    by_cases hw : r ≠ 0 ∨ 1 < v.toNat
    · obtain rfl : s = t := Host.Outcome.next.inj ((hostWrite_ignored hw s).symm.trans h)
      exact .inr (.inr ⟨s.inp, s.out, s.reads, s.stalled, rfl, .inl rfl⟩)
    · obtain ⟨rfl, hv⟩ : r = 0 ∧ v.toNat ≤ 1 := by omega
      obtain rfl | rfl | hv' := cmd_cases v
      · exact .inr (.inl ⟨.count, .inl rfl, (Host.Outcome.next.inj h).symm⟩)
      · exact .inr (.inl ⟨.rdhdr, .inr rfl, (Host.Outcome.next.inj h).symm⟩)
      · omega
  | read r => exact .inr (.inr ⟨s.inp, s.out, _, s.stalled, (Host.Outcome.next.inj h).symm, .inl rfl⟩)
  | wait => exact .inr (.inr ⟨s.inp, s.out, s.reads, s.stalled, (Host.Outcome.next.inj h).symm, .inl rfl⟩)
  | stall => exact .inr (.inr ⟨s.inp, s.out, s.reads, true, (Host.Outcome.next.inj h).symm, .inl rfl⟩)

/-- An action of the host never faults, and is refused only where it attaches a transport while a command runs (U3). -/
theorem hostAct_stops (a : HostAction) (s : State) :
    (∃ t, hostAct a s = .next t) ∨ hostAct a s = .refused .transportInUse := by
  cases a with
  | reset => exact .inl ⟨_, rfl⟩
  | attachIn bits second => by_cases hb : s.phase.busy = true <;> simp [hostAct, hb]
  | attachOut => by_cases hb : s.phase.busy = true <;> simp [hostAct, hb]
  | write r v =>
    by_cases hr : r = 0
    · subst hr
      obtain rfl | rfl | hv := cmd_cases v
      · exact .inl ⟨_, hostWrite_cmd_zero s⟩
      · exact .inl ⟨_, hostWrite_cmd_one s⟩
      · exact .inl ⟨s, hostWrite_ignored (.inr hv) s⟩
    · exact .inl ⟨s, hostWrite_of_ne_cmd hr v s⟩
  | read r => exact .inl ⟨_, rfl⟩
  | wait => exact .inl ⟨_, rfl⟩
  | stall => exact .inl ⟨_, rfl⟩

/-! ### The core's moves -/

/-- Between two elements nothing of the operation is done yet: `remaining` is the whole operation PHASE names (R28). -/
theorem exec_of_phase {s : State} {i : Instr} (he : s.expect = .unit) (h : decodePhase s.phase.code = .ok i) :
    exec i s = (remaining s).outcome := by
  cases hp : s.phase <;> rw [hp] at h
  case idle => exact nomatch h
  case fault => exact nomatch h
  all_goals
    obtain rfl := Except.ok.inj h
    simp only [remaining, hp, he, if_true]
    rfl

/-- The core's move: none, the operation PHASE names and the sequencer's move after it (R101, R102), or an element (log 17). -/
theorem coreStep_cases (s : State) : coreStep s = .next s ∨
    (s.expect = .unit ∧ ∃ i, decodePhase s.phase.code = .ok i ∧ coreStep s = onNext advancePhase (exec i s)) ∨
    (s.expect ≠ .unit ∧ coreStep s = elementStep s) := by
  cases hs : s.stalled with
  | true => exact .inl (coreStep_of_stalled hs)
  | false =>
    by_cases he : s.expect = .unit
    · cases hi : decodePhase s.phase.code with
      | ok i => exact .inr (.inl ⟨he, i, rfl, coreStep_of_unit hs he hi⟩)
      | error e => exact .inl (by simp [coreStep, hs, he, hi])
    · exact .inr (.inr ⟨he, coreStep_of_element hs he⟩)

end Sys2Proof.Machine
end

section
/-! Proofs. No operation writes MAGIC (R7, R42). -/

namespace Sys2Proof.Machine

/-- A piece of an operation that leaves MAGIC at `m` wherever it ends. -/
def Act.KeepsMagic (m : Mark) (a : Act) : Prop := a.state.magic = m

theorem Act.KeepsMagic.andThen {m : Mark} {a : Act} {f : State → Act} (ha : a.KeepsMagic m)
    (hf : ∀ t, t.magic = m → (f t).KeepsMagic m) : (a.andThen f).KeepsMagic m := by
  cases a with
  | go t => exact hf t ha
  | raised t => exact ha
  | fault e t => exact ha
  | refuse r t => exact ha

theorem Act.KeepsMagic.next {m : Mark} {a : Act} {t : State} (ha : a.KeepsMagic m) (h : a.outcome = .next t) : t.magic = m := by
  obtain rfl | rfl := Act.outcome_eq_next.mp h <;> exact ha

theorem inReadBits_magic {n : Nat} {s t : State} {r : Option Nat} (h : inReadBits n s = (r, t)) : t.magic = s.magic := by
  unfold inReadBits at h
  split at h <;> exact (congrArg (·.2.magic) h).symm

theorem outWriteBits_keepsMagic (n v : Nat) (s : State) : (outWriteBits n v s).KeepsMagic s.magic := by
  unfold outWriteBits
  split <;> rfl

variable {m : Mark}

theorem countLoop_keepsMagic (fuel : Nat) : ∀ s : State, s.magic = m → (countLoop fuel s).KeepsMagic m := by
  induction fuel with
  | zero => exact fun s hs => hs
  | succ fuel ih =>
    intro s hs
    rw [countLoop]
    split
    next u hu => exact (inReadBits_magic hu).trans hs
    next v u hu =>
      have hm := (inReadBits_magic hu).trans hs
      split
      · exact hm
      · exact ih _ hm

theorem emit_keepsMagic (c : List Bool) : ∀ s : State, s.magic = m → (emit c s).KeepsMagic m := by
  induction c with
  | nil => exact fun s hs => hs
  | cons b c ih =>
    rintro s rfl
    exact (outWriteBits_keepsMagic _ _ s).andThen ih

theorem writeLeaf_keepsMagic (sym : Sym) (s : State) : (writeLeaf sym s).KeepsMagic s.magic :=
  (outWriteBits_keepsMagic _ _ s).andThen fun u hu => hu ▸ outWriteBits_keepsMagic _ _ u

theorem ser_keepsMagic (t : Tree) : ∀ s : State, s.magic = m → (ser t s).KeepsMagic m := by
  induction t with
  | leaf sym w =>
    rintro s rfl
    exact writeLeaf_keepsMagic sym s
  | internal w l r ihl ihr =>
    rintro s rfl
    exact ((outWriteBits_keepsMagic _ _ s).andThen ihl).andThen ihr

theorem encodeLoop_keepsMagic (fuel : Nat) : ∀ s : State, s.magic = m → (encodeLoop fuel s).KeepsMagic m := by
  induction fuel with
  | zero => exact fun s hs => hs
  | succ fuel ih =>
    intro s hs
    rw [encodeLoop]
    split
    next u hu => exact emit_keepsMagic _ u ((inReadBits_magic hu).trans hs)
    next v u hu =>
      have hm := (inReadBits_magic hu).trans hs
      split
      · exact (emit_keepsMagic _ u hm).andThen ih
      · exact hm

/-! ### The elements -/

theorem readMarker_keepsMagic (v : Mark) (s : State) : (readMarker v s).KeepsMagic s.magic := by
  unfold readMarker
  split <;> rfl

theorem readInternal_keepsMagic (s : State) : (readInternal s).KeepsMagic s.magic := by
  unfold readInternal
  split <;> rfl

theorem attach_magic (st : List Frame) (p : Ptr) (s : State) : (attach st p s).magic = s.magic := by
  rw [(attach_changes st p s).1]

theorem readLeaf_keepsMagic (sym : Sym) (s : State) : (readLeaf sym s).KeepsMagic s.magic := by
  unfold readLeaf
  split
  · rfl
  · dsimp only
    split
    · rfl
    · exact attach_magic _ _ _

theorem decodePass_keepsMagic (b : Bool) (s : State) : (decodePass b s).KeepsMagic s.magic := by
  unfold decodePass
  split
  · rfl
  dsimp only
  split
  · rfl
  split
  · rfl
  split
  · split
    · rfl
    · exact (outWriteBits_keepsMagic _ _ _).andThen fun u hu => hu
  · rfl

theorem decodeBits_keepsMagic (c : List Bool) : ∀ s : State, s.magic = m → (decodeBits c s).KeepsMagic m := by
  induction c with
  | nil => exact fun s hs => hs
  | cons b c ih =>
    rintro s rfl
    refine (decodePass_keepsMagic b s).andThen fun u hu => ?_
    split
    · exact hu
    · exact ih u hu

theorem decodeLoop_keepsMagic (fuel : Nat) : ∀ s : State, s.magic = m → (decodeLoop fuel s).KeepsMagic m := by
  induction fuel with
  | zero => exact fun s hs => hs
  | succ fuel ih =>
    intro s hs
    rw [decodeLoop]
    split
    next u hu => exact (inReadBits_magic hu).trans hs
    next v u hu =>
      obtain rfl : u.magic = m := (inReadBits_magic hu).trans hs
      refine (decodePass_keepsMagic _ u).andThen fun x hx => ?_
      split
      · exact hx
      · exact ih x hx

/-- What reading an element leaves at `m`: the state it stands in, or that of the end. -/
def Fetched.KeepsMagic (m : Mark) : Fetched → Prop
  | .got _ s => s.magic = m
  | .stopped a => a.KeepsMagic m

theorem fetchMarker_keepsMagic (s : State) : (fetchMarker s).KeepsMagic s.magic := by
  unfold fetchMarker
  split
  next u hu => exact (inReadBits_magic hu : u.magic = s.magic)
  next v u hu => exact inReadBits_magic hu

theorem fetchNode_keepsMagic (s : State) : (fetchNode s).KeepsMagic s.magic := by
  unfold fetchNode
  split
  · rfl
  split
  next u hu => exact (inReadBits_magic hu : u.magic = s.magic)
  next v u hu =>
    have hm := inReadBits_magic hu
    split
    · exact hm
    split
    next x hx => exact (inReadBits_magic hx).trans hm
    next w x hx => exact (inReadBits_magic hx).trans hm

theorem fetchCodeword_keepsMagic (fuel : Nat) : ∀ (p : Ptr) (acc : List Bool) (s : State), s.magic = m →
    (fetchCodeword fuel p acc s).KeepsMagic m := by
  induction fuel with
  | zero => exact fun _ _ s hs => hs
  | succ fuel ih =>
    intro p acc s hs
    rw [fetchCodeword]
    split
    next u hu => exact (inReadBits_magic hu).trans hs
    next v u hu =>
      have hm := (inReadBits_magic hu).trans hs
      dsimp only
      split
      · exact hm
      split
      · exact hm
      split
      · exact hm
      · exact ih _ _ u hm

theorem fetchElement_keepsMagic (s : State) : (fetchElement s).KeepsMagic s.magic := by
  unfold fetchElement
  split
  · exact fetchCodeword_keepsMagic _ _ _ s rfl
  · exact fetchMarker_keepsMagic s
  · exact fetchNode_keepsMagic s
  · rfl

theorem headerStep_keepsMagic (s : State) : (headerStep s).KeepsMagic s.magic := by
  have hf : Fetched.KeepsMagic s.magic (if s.expect = .marker then fetchMarker s else fetchNode s) := by
    split
    · exact fetchMarker_keepsMagic s
    · exact fetchNode_keepsMagic s
  unfold headerStep
  generalize (if s.expect = .marker then fetchMarker s else fetchNode s) = read at hf ⊢
  cases read with
  | stopped a => exact hf
  | got i u =>
    rw [← (hf : u.magic = s.magic)]
    cases i with
    | marker v => exact readMarker_keepsMagic v u
    | nodeInternal => exact readInternal_keepsMagic u
    | nodeLeaf sym => exact readLeaf_keepsMagic sym u
    | _ => rfl

theorem rdhdrLoop_keepsMagic (fuel : Nat) : ∀ s : State, s.magic = m → (rdhdrLoop fuel s).KeepsMagic m := by
  induction fuel with
  | zero => exact fun s hs => hs
  | succ fuel ih =>
    rintro s rfl
    rw [rdhdrLoop_succ]
    refine (headerStep_keepsMagic s).andThen fun u hu => ?_
    unfold continueHeader
    split
    · exact hu
    · exact ih u hu

/-! ### The operations -/

theorem decodeAct_keepsMagic (s : State) : (decodeAct s).KeepsMagic s.magic := by
  obtain h | h | h | h := decodeAct_cases s <;> rw [h]
  · rfl
  · rfl
  · rfl
  · exact decodeLoop_keepsMagic _ (decodeStart s) rfl

theorem gencodesAct_keepsMagic (s : State) : (gencodesAct s).KeepsMagic s.magic := by
  unfold gencodesAct
  split
  · rfl
  · show (List.foldl recordCode _ _).magic = _
    rw [foldl_recordCode_frame]

theorem wrhdrAct_keepsMagic (s : State) : (wrhdrAct s).KeepsMagic s.magic := by
  unfold wrhdrAct
  split
  · rfl
  · exact (outWriteBits_keepsMagic _ _ s).andThen (ser_keepsMagic _)

theorem buildAct_keepsMagic (s : State) : (buildAct s).KeepsMagic s.magic := by
  obtain ⟨t, -, -, hact, -, -, -, hframe⟩ := build_spec removeMin_takes s
  rw [show buildAct s = .go t from hact, hframe]
  rfl

theorem countAct_keepsMagic (s : State) : (countAct s).KeepsMagic s.magic :=
  (countLoop_keepsMagic _ (countStart s) rfl).andThen fun _ hu => hu

theorem encodeAct_keepsMagic (s : State) : (encodeAct s).KeepsMagic s.magic :=
  (encodeLoop_keepsMagic _ s rfl).andThen fun _ hu => hu

theorem rdhdrAct_keepsMagic (s : State) : (rdhdrAct s).KeepsMagic s.magic :=
  rdhdrLoop_keepsMagic _ (headerStart s) rfl

theorem accept_magic (p : Phase) (s : State) : (accept p s).magic = s.magic := by
  unfold accept
  split <;> rfl

theorem exec_magic {i : Instr} {s t : State} (h : exec i s = .next t) : t.magic = s.magic := by
  cases i with
  | compress => exact Host.Outcome.next.inj h ▸ accept_magic _ s
  | decompress => exact Host.Outcome.next.inj h ▸ accept_magic _ s
  | count => exact (countAct_keepsMagic s).next h
  | build => exact (buildAct_keepsMagic s).next h
  | gencodes => exact (gencodesAct_keepsMagic s).next h
  | wrhdr => exact (wrhdrAct_keepsMagic s).next h
  | encode => exact (encodeAct_keepsMagic s).next h
  | rdhdr => exact (rdhdrAct_keepsMagic s).next h
  | decode => exact (decodeAct_keepsMagic s).next h
  | rewind => exact Host.Outcome.next.inj h ▸ rfl
  | close => exact Host.Outcome.next.inj h ▸ rfl
  | marker v =>
    replace h : execMarker v s = .next t := h
    unfold execMarker at h
    split at h
    · exact (outWriteBits_keepsMagic _ _ s).next h
    · exact (readMarker_keepsMagic v s).next h
    · exact nomatch h
  | nodeInternal =>
    replace h : execNodeInternal s = .next t := h
    unfold execNodeInternal at h
    split at h
    · exact (outWriteBits_keepsMagic _ _ s).next h
    · exact (readInternal_keepsMagic s).next h
    · exact nomatch h
  | nodeLeaf sym =>
    replace h : execNodeLeaf sym s = .next t := h
    unfold execNodeLeaf at h
    split at h
    · exact (writeLeaf_keepsMagic sym s).next h
    · exact (readLeaf_keepsMagic sym s).next h
    · exact nomatch h
  | codeword c =>
    replace h : execCodeword c s = .next t := h
    unfold execCodeword at h
    split at h
    · exact (emit_keepsMagic c s rfl).next h
    · exact (decodeBits_keepsMagic c s rfl).next h
    · exact nomatch h
  | pad n =>
    replace h : execPad n s = .next t := h
    unfold execPad at h
    split at h <;> exact Host.Outcome.next.inj h ▸ rfl

/-! ### The step -/

theorem advancePhase_magic (s : State) : (advancePhase s).magic = s.magic := by
  unfold advancePhase
  split <;> rfl

theorem advanceIfEnded_magic (s : State) : (advanceIfEnded s).magic = s.magic := by
  unfold advanceIfEnded
  split
  · exact advancePhase_magic s
  · rfl

theorem elementStep_magic {s t : State} (h : elementStep s = .next t) : t.magic = s.magic := by
  have hf := fetchElement_keepsMagic s
  cases hfetch : fetchElement s with
  | stopped a =>
    rw [hfetch] at hf
    rw [elementStep_stopped hfetch] at h
    exact Act.KeepsMagic.next hf h
  | got i u =>
    rw [hfetch] at hf
    rw [elementStep_got hfetch] at h
    obtain ⟨x, hx, rfl⟩ := onNext_next h
    exact (advanceIfEnded_magic x).trans ((exec_magic hx).trans hf)

theorem coreStep_magic {s t : State} (h : coreStep s = .next t) : t.magic = s.magic := by
  obtain hs | ⟨-, i, -, hs⟩ | ⟨-, hs⟩ := coreStep_cases s <;> rw [hs] at h
  · exact Host.Outcome.next.inj h ▸ rfl
  · obtain ⟨x, hx, rfl⟩ := onNext_next h
    exact (advancePhase_magic x).trans (exec_magic hx)
  · exact elementStep_magic h

/-- Settles O55: neither a host action nor an operation of the core writes MAGIC. -/
theorem stepKeepsTheBuildParameter : Obligations.StepKeepsTheBuildParameter := by
  intro s t h
  obtain ⟨u, hu, hstep | ⟨a, -, hstep⟩⟩ := step_cases s <;> rw [hstep] at h
  · rw [coreStep_magic h, hu]
  · have hm : t.magic = u.magic := by
      obtain ⟨v, hv, rfl⟩ | ⟨p, -, rfl⟩ | ⟨inp, out, reads, stalled, rfl, -⟩ := hostAct_cases h
      · exact hv.magic
      · exact accept_magic p u
      · rfl
    rw [hm, hu]

end Sys2Proof.Machine
end

section
/-! Proofs. The two invariants (10_state.md R25 to R38, 40_commands.md R106): what the operation of each phase leaves for the next, what an
element leaves, what the host may do; and that a ready step stops for no want of its own. -/

namespace Sys2Proof.Machine

/-! ### Inside a unit, and where it has ended -/

/-- The control registers agree while the unit of phase `p` runs (R28 to R38). -/
structure InUnit (p : Phase) (s : State) : Prop where
  run : Running p s
  header : s.expect = .marker ∨ s.expect = .node → p = .rdhdr
  payload : s.expect = .codeword → p = .decode
  walk : s.expect ≠ .node → s.walk = []

/-- The same between two operations: the unit of phase `p` has not begun, or has ended. -/
structure AtUnit (p : Phase) (s : State) : Prop where
  run : Running p s
  unit : s.expect = .unit
  walk : s.walk = []

theorem AtUnit.inUnit {p : Phase} {s : State} (h : AtUnit p s) : InUnit p s where
  run := h.run
  header he := by simp [h.unit] at he
  payload he := by simp [h.unit] at he
  walk _ := h.walk

theorem InUnit.atUnit {p : Phase} {s : State} (h : InUnit p s) (he : s.expect = .unit) : AtUnit p s :=
  ⟨h.run, he, h.walk (by simp [he])⟩

theorem AtUnit.calm {p : Phase} {s t : State} (h : AtUnit p s) (c : Calm s t) (he : t.expect = .unit) : AtUnit p t :=
  ⟨h.run.calm c, he, c.walk.trans h.walk⟩

theorem Phase.ne_rest {p : Phase} (hb : p.busy = true) : p ≠ .idle ∧ p ≠ .fault := by
  constructor <;> rintro rfl <;> exact nomatch hb

/-- While a command runs, `State.Consistent` says this. -/
theorem consistent_of_inUnit {p : Phase} {s : State} (hb : p.busy = true) (h : InUnit p s) : s.Consistent := by
  obtain ⟨hidle, hfault⟩ := Phase.ne_rest hb
  obtain ⟨hphase, hstatus, herr, hinfo, hnalloc, hk, hpos⟩ := h.run
  subst hphase
  exact ⟨fun _ => hstatus, fun hp => absurd hp hidle, fun hp => absurd hp hfault, fun hp => absurd hp hfault, fun _ => ⟨herr, hinfo⟩,
    h.header, h.payload, h.walk, hnalloc, hk, hpos⟩

theorem State.Consistent.header {s : State} (h : s.Consistent) : s.expect = .marker ∨ s.expect = .node → s.phase = .rdhdr := by
  obtain ⟨-, -, -, -, -, hheader, -⟩ := h
  exact hheader

theorem State.Consistent.payload {s : State} (h : s.Consistent) : s.expect = .codeword → s.phase = .decode := by
  obtain ⟨-, -, -, -, -, -, hpayload, -⟩ := h
  exact hpayload

theorem State.Consistent.pos {s : State} (h : s.Consistent) : s.inp.pos ≤ s.inp.bits.length := by
  obtain ⟨-, -, -, -, -, -, -, -, -, -, hpos⟩ := h
  exact hpos

theorem State.Consistent.inUnit {s : State} (h : s.Consistent) (hb : s.phase.busy = true) : InUnit s.phase s := by
  obtain ⟨hstatus, -, -, -, herr, hheader, hpayload, hwalk, hnalloc, hk, hpos⟩ := h
  obtain ⟨he, hi⟩ := herr (Phase.ne_rest hb).2
  exact ⟨⟨rfl, hstatus hb, he, hi, hnalloc, hk, hpos⟩, hheader, hpayload, hwalk⟩

/-- The state fault entry leaves is consistent (R188). -/
theorem consistent_of_fault {t : State} (h : FaultTaken t) : t.Consistent := by
  obtain ⟨hphase, hstatus, hlegal, hwalk, hexpect, hnalloc, hk, hpos, -⟩ := h
  refine ⟨?_, ?_, fun _ => hstatus, fun _ => hlegal, fun hp => absurd hphase hp, ?_, ?_, fun _ => hwalk, hnalloc, hk, hpos⟩
  all_goals simp [hphase, hexpect, Phase.busy]

/-- FAULT asks for nothing, and TV is 0 (R188). -/
theorem ready_of_fault {t : State} (h : FaultTaken t) : t.Ready := by
  obtain ⟨hphase, -, -, -, hexpect, -, -, -, htv⟩ := h
  refine ⟨hexpect, ?_, ?_, ?_, ?_, ?_⟩
  all_goals simp [hphase, htv]

/-- An idle block with its registers in range is consistent (R31, R36). -/
theorem consistent_of_idle {s : State} (hp : s.phase = .idle) (hs : s.status = 0#8 ∨ s.status = 2#8) (he : s.err = 0#8)
    (hi : s.errinfo = 0#8) (hx : s.expect = .unit) (hw : s.walk = []) (hn : s.nalloc.toNat ≤ 513) (hk : s.k.toNat ≤ 256)
    (hpos : s.inp.pos ≤ s.inp.bits.length) : s.Consistent := by
  refine ⟨?_, fun _ => hs, ?_, ?_, fun _ => ⟨he, hi⟩, ?_, ?_, fun _ => hw, hn, hk, hpos⟩
  all_goals simp [hp, hx, Phase.busy]

/-! ### The sequencer -/

/-- Forgotten registers are in their ranges (R25, R35). -/
theorem forget_ranges (s : State) : s.forget.nalloc.toNat ≤ 513 ∧ s.forget.k.toNat ≤ 256 := by
  have h1 := Nat.mod_lt (Config.freeNalloc s.free) (show 0 < 514 by decide)
  have h2 := Nat.mod_lt (Config.freeK s.free) (show 0 < 257 by decide)
  rw [State.forget_nalloc, State.forget_k, BitVec.toNat_ofNat, BitVec.toNat_ofNat]
  omega

/-- Completion of a command (R103) leaves a consistent idle block. -/
theorem complete_consistent {s : State} (h : AtUnit .close s) : (complete s).Consistent := by
  have hf : s.faulted = false := by simp [State.faulted, h.run.status]
  obtain ⟨hphase, hstatus, -, -, -, herr, hinfo, hinp, -, -, -, -, -, hexpect⟩ := complete_spec s hf
  obtain ⟨hnalloc, hk⟩ := forget_ranges s
  exact consistent_of_idle hphase (.inr hstatus) (herr.trans h.run.err) (hinfo.trans h.run.errinfo) hexpect h.walk hnalloc hk
    (by rw [hinp]; exact h.run.pos)

/-- The phase that follows in a command (R101, R102). -/
def Phase.after : Phase → Phase
  | .idle => .idle
  | .count => .build
  | .build => .gencodes
  | .gencodes => .wrhdr
  | .wrhdr => .rewind
  | .rewind => .encode
  | .encode => .close
  | .rdhdr => .decode
  | .decode => .close
  | .close => .idle
  | .fault => .fault

theorem advancePhase_after {p : Phase} {s : State} (hp : s.phase = p) (hb : p.busy = true) (hc : p ≠ .close) :
    advancePhase s = { s with phase := p.after, expect := .unit } := by
  cases p
  case idle => exact nomatch hb
  case fault => exact nomatch hb
  case close => exact absurd rfl hc
  all_goals simp only [advancePhase, hp, Phase.after]

theorem Phase.after_busy {p : Phase} (hb : p.busy = true) (hc : p ≠ .close) : p.after.busy = true := by
  cases p <;> simp_all [Phase.after, Phase.busy]

/-- The sequencer's move from a unit that has ended (R101 to R103). -/
theorem advancePhase_consistent {p : Phase} {s : State} (hb : p.busy = true) (h : AtUnit p s) : (advancePhase s).Consistent := by
  obtain ⟨hphase, hstatus, herr, hinfo, hnalloc, hk, hpos⟩ := h.run
  by_cases hc : p = .close
  · subst hc
    rw [advancePhase_close hphase]
    exact complete_consistent h
  · rw [advancePhase_after hphase hb hc]
    exact consistent_of_inUnit (Phase.after_busy hb hc) (AtUnit.inUnit ⟨⟨rfl, hstatus, herr, hinfo, hnalloc, hk, hpos⟩, rfl, h.walk⟩)

/-! ### The operations, phase by phase -/

/-- While TV is 1 the node memory holds a tree (R43). -/
def HoldsTree (s : State) : Prop := s.tv = true → s.tree.isOk = true ∧ s.rootChildless = true

theorem HoldsTree.congr {s t : State} (h : HoldsTree s) (htv : t.tv = s.tv) (hn : t.node = s.node) (hr : t.root = s.root) :
    HoldsTree t := by
  simpa only [HoldsTree, State.tree, State.rootChildless, State.nodeAt, htv, hn, hr] using h

theorem State.Ready.unit {s : State} (h : s.Ready) : s.expect = .unit := by
  obtain ⟨hunit, -⟩ := h
  exact hunit

theorem State.Ready.holdsTree {s : State} (h : s.Ready) : HoldsTree s := by
  obtain ⟨-, -, -, -, -, htree⟩ := h
  exact htree

/-- A unit of phase `p` ends `AtUnit`, and ready for the next one where it was ready itself. -/
def Prepares (s : State) (p : Phase) (t : State) : Prop := AtUnit p t ∧ (s.Ready → (advancePhase t).Ready)

theorem count_prepares {s : State} (h : AtUnit .count s) : EndsIn (Prepares s .count) (countAct s) := by
  refine (countAct_ends h.run).mono ?_
  rintro t ⟨hrun, hfv, htv, -, hnode, hroot, hwalk, hexpect⟩
  refine ⟨⟨hrun, hexpect.trans h.unit, hwalk.trans h.walk⟩, fun hr => ?_⟩
  have htree : HoldsTree t := hr.holdsTree.congr htv hnode hroot
  simp only [advancePhase, hrun.phase]
  exact ⟨rfl, fun _ => hfv, nofun, nofun, nofun, htree⟩

theorem build_prepares {s : State} (h : AtUnit .build s) : EndsIn (Prepares s .build) (buildAct s) := by
  obtain ⟨t, hact, hrun, htv, htree, hroot, -, hwalk, hexpect⟩ := buildAct_ends h.run
  rw [hact]
  refine ⟨⟨hrun, hexpect.trans h.unit, hwalk.trans h.walk⟩, fun _ => ?_⟩
  simp only [advancePhase, hrun.phase]
  exact ⟨rfl, nofun, fun _ => htv, nofun, nofun, fun _ => ⟨htree, hroot⟩⟩

theorem State.Ready.tv {s : State} (h : s.Ready) (hp : s.phase = .gencodes ∨ s.phase = .wrhdr ∨ s.phase = .decode) :
    s.tv = true := by
  obtain ⟨-, -, htv, -⟩ := h
  exact htv hp

theorem State.Ready.cv {s : State} (h : s.Ready) (hp : s.phase = .wrhdr ∨ s.phase = .rewind ∨ s.phase = .encode) :
    s.cv = true := by
  obtain ⟨-, -, -, hcv, -⟩ := h
  exact hcv hp

theorem gencodes_prepares {s : State} (h : AtUnit .gencodes s) : EndsIn (Prepares s .gencodes) (gencodesAct s) := by
  refine (gencodesAct_ends s).mono ?_
  rintro t ⟨c, d, rfl⟩
  obtain ⟨hphase, hstatus, herr, hinfo, hnalloc, hk, hpos⟩ := h.run
  refine ⟨⟨⟨hphase, hstatus, herr, hinfo, hnalloc, hk, hpos⟩, h.unit, h.walk⟩, fun hr => ?_⟩
  have htv := hr.tv (.inl hphase)
  simp only [advancePhase, hphase]
  exact ⟨rfl, nofun, fun _ => htv, fun _ => rfl, nofun, hr.holdsTree⟩

theorem wrhdr_prepares {s : State} (h : AtUnit .wrhdr s) : EndsIn (Prepares s .wrhdr) (wrhdrAct s) := by
  refine (wrhdrAct_ends s).mono ?_
  rintro t ⟨hcalm, hexpect, -⟩
  refine ⟨h.calm hcalm (hexpect.trans h.unit), fun hr => ?_⟩
  have hcv := hcalm.cv.trans (hr.cv (.inl h.run.phase))
  have htree : HoldsTree t := hr.holdsTree.congr hcalm.tv hcalm.node hcalm.root
  simp only [advancePhase, hcalm.phase.trans h.run.phase]
  exact ⟨rfl, nofun, nofun, fun _ => hcv, nofun, htree⟩

theorem rewind_prepares {s : State} (h : AtUnit .rewind s) : Prepares s .rewind (inReset s) := by
  obtain ⟨hphase, hstatus, herr, hinfo, hnalloc, hk, -⟩ := h.run
  refine ⟨⟨⟨hphase, hstatus, herr, hinfo, hnalloc, hk, Nat.zero_le _⟩, h.unit, h.walk⟩, fun hr => ?_⟩
  have hcv := hr.cv (.inr (.inl hphase))
  simp only [advancePhase, show (inReset s).phase = .rewind from hphase]
  exact ⟨rfl, nofun, nofun, fun _ => hcv, fun _ => rfl, hr.holdsTree⟩

theorem encode_prepares {s : State} (h : AtUnit .encode s) : EndsIn (Prepares s .encode) (encodeAct s) := by
  refine (encodeLoop_ends _ s h.run).andThen fun t ⟨hcalm, hexpect⟩ => ?_
  obtain ⟨⟨hphase, hstatus, herr, hinfo, hnalloc, hk, hpos⟩, hunit, hwalk⟩ := h.calm hcalm (hexpect.trans h.unit)
  refine ⟨⟨⟨hphase, hstatus, herr, hinfo, hnalloc, hk, hpos⟩, hunit, hwalk⟩, fun hr => ?_⟩
  have htree : HoldsTree t := hr.holdsTree.congr hcalm.tv hcalm.node hcalm.root
  simp only [advancePhase, hphase]
  exact ⟨rfl, nofun, nofun, nofun, nofun, htree⟩

theorem rdhdr_prepares {s : State} (h : AtUnit .rdhdr s) : EndsIn (Prepares s .rdhdr) (rdhdrAct s) := by
  obtain ⟨hends, -⟩ := rdhdrAct_ends h.run
  refine hends.mono fun t ⟨hread, htree, hroot⟩ => ⟨⟨hread.u, hread.unit, hread.walk⟩, fun _ => ?_⟩
  have htv := hread.tv
  simp only [advancePhase, hread.u.phase]
  exact ⟨rfl, nofun, fun _ => htv, nofun, nofun, fun _ => ⟨htree, hroot⟩⟩

theorem decode_prepares {s : State} (h : AtUnit .decode s) : EndsIn (Prepares s .decode) (decodeAct s) := by
  refine (decodeAct_ends h.run).mono fun t ⟨hcalm, hexpect⟩ => ⟨h.calm hcalm hexpect, fun hr => ?_⟩
  have htree : HoldsTree t := hr.holdsTree.congr hcalm.tv hcalm.node hcalm.root
  simp only [advancePhase, hcalm.phase.trans h.run.phase]
  exact ⟨rfl, nofun, nofun, nofun, nofun, htree⟩

theorem close_prepares {s : State} (h : AtUnit .close s) : Prepares s .close (outClose s) := by
  obtain ⟨hphase, hstatus, herr, hinfo, hnalloc, hk, hpos⟩ := h.run
  refine ⟨⟨⟨hphase, hstatus, herr, hinfo, hnalloc, hk, hpos⟩, h.unit, h.walk⟩, fun _ => ?_⟩
  rw [advancePhase_close (by exact hphase)]
  exact ⟨rfl, nofun, nofun, nofun, nofun, nofun⟩

/-- The operation PHASE names, whichever it is. -/
theorem remaining_prepares {s : State} (hb : s.phase.busy = true) (h : AtUnit s.phase s) :
    EndsIn (Prepares s s.phase) (remaining s) := by
  have hu := h.unit
  cases hp : s.phase <;> rw [hp] at h hb <;> simp only [remaining, hp, hu, if_true]
  case idle => exact nomatch hb
  case fault => exact nomatch hb
  case count => exact count_prepares h
  case build => exact build_prepares h
  case gencodes => exact gencodes_prepares h
  case wrhdr => exact wrhdr_prepares h
  case encode => exact encode_prepares h
  case rdhdr => exact rdhdr_prepares h
  case decode => exact decode_prepares h
  case rewind => exact rewind_prepares h
  case close => exact close_prepares h

/-- A ready operation stops for nothing but a closed output (R106, R127, R144, R216). -/
theorem remaining_noStop {s : State} (h : AtUnit s.phase s) (hr : s.Ready) : NoStop (remaining s) := by
  have hu := h.unit
  have htree (hp : s.phase = .gencodes ∨ s.phase = .wrhdr ∨ s.phase = .decode) : ∃ t, s.tree = .ok t := by
    obtain ⟨hok, -⟩ := hr.holdsTree (hr.tv hp)
    cases ht : s.tree with
    | error e => rw [ht] at hok; exact nomatch hok
    | ok t => exact ⟨t, rfl⟩
  cases hp : s.phase <;> rw [hp] at h <;> simp only [remaining, hp, hu, if_true]
  case idle => trivial
  case fault => trivial
  case count => exact countAct_noStop s
  case build => trivial
  case gencodes =>
    obtain ⟨t, ht⟩ := htree (.inl hp)
    rw [(gencodesAct_tree ht).1]
    trivial
  case wrhdr =>
    obtain ⟨t, ht⟩ := htree (.inr (.inl hp))
    simp only [wrhdrAct, ht]
    exact ((Writes.write _ _ s).andThen (ser_writes t)).noStop
  case encode => exact (encodeLoop_noStop _ s (Nat.lt_succ_self _)).andThen fun t _ => trivial
  case rdhdr => exact (rdhdrAct_ends h.run).2
  case decode =>
    obtain ⟨hok, hroot⟩ := hr.holdsTree (hr.tv (.inr (.inr hp)))
    exact decodeAct_noStop h.run hok hroot
  case rewind => trivial
  case close => trivial

/-! ### The elements (log 17) -/

/-- After an element: the unit goes on or has ended, and the sequencer moves in the second case. -/
theorem advanceIfEnded_consistent {p : Phase} {s : State} (hb : p.busy = true) (h : InUnit p s) : (advanceIfEnded s).Consistent := by
  unfold advanceIfEnded
  split
  · exact advancePhase_consistent hb (h.atUnit ‹_›)
  · exact consistent_of_inUnit hb h

/-- An element that ends `InUnit` or in a fault keeps the registers in agreement. -/
theorem onNext_advanceIfEnded_consistent {p : Phase} {a : Act} {t : State} (hb : p.busy = true) (ha : EndsIn (InUnit p) a)
    (h : onNext advanceIfEnded a.outcome = .next t) : t.Consistent := by
  obtain ⟨u, hu, rfl⟩ := onNext_next h
  obtain hin | hf := ha.next hu
  · exact advanceIfEnded_consistent hb hin
  · rw [(advance_faulted hf).2]
    exact consistent_of_fault hf

/-- A fetch that stops, stops in the state of fault entry. -/
theorem outcome_consistent {a : Act} {t : State} (ha : ∀ P, EndsIn P a) (h : a.outcome = .next t) : t.Consistent := by
  obtain hno | hf := (ha fun _ => False).next h
  · exact hno.elim
  · exact consistent_of_fault hf

theorem exec_marker_rdhdr {s : State} (hp : s.phase = .rdhdr) (m : Mark) : exec (.marker m) s = (readMarker m s).outcome := by
  show execMarker m s = _
  simp only [execMarker, hp]

theorem exec_nodeInternal_rdhdr {s : State} (hp : s.phase = .rdhdr) : exec .nodeInternal s = (readInternal s).outcome := by
  show execNodeInternal s = _
  simp only [execNodeInternal, hp]

theorem exec_codeword_decode {s : State} (hp : s.phase = .decode) (c : List Bool) :
    exec (.codeword c) s = (decodeBits c s).outcome := by
  show execCodeword c s = _
  simp only [execCodeword, hp]

/-- Between two nodes the walk stack is free to hold open nodes (R36). -/
theorem inUnit_node {s : State} (h : Running .rdhdr s) (he : s.expect = .node) : InUnit .rdhdr s where
  run := h
  header _ := rfl
  payload he' := by simp [he] at he'
  walk hne := absurd he hne

theorem readMarker_inUnit {m : Mark} {s : State} (h : Running .rdhdr s) : EndsIn (InUnit .rdhdr) (readMarker m s) := by
  refine (readMarker_ends h).mono ?_
  rintro t ⟨hrun, he, -⟩
  exact inUnit_node hrun he

theorem readInternal_inUnit {s : State} (h : Running .rdhdr s) (he : s.expect = .node) :
    EndsIn (InUnit .rdhdr) (readInternal s) := by
  refine (readInternal_ends h he).mono ?_
  rintro t ⟨hrun, he', -⟩
  exact inUnit_node hrun he'

theorem readLeaf_inUnit {sym : Sym} {s : State} (h : Running .rdhdr s) (he : s.expect = .node) :
    EndsIn (InUnit .rdhdr) (readLeaf sym s) := by
  refine (readLeaf_ends h he).mono ?_
  rintro t ⟨⟨hrun, hnode | ⟨hunit, hwalk, -⟩⟩, -⟩
  · exact inUnit_node hrun hnode
  · exact AtUnit.inUnit ⟨hrun, hunit, hwalk⟩

theorem decodeBits_inUnit {c : List Bool} {s : State} (h : Running .decode s) (he : s.expect = .codeword) (hw : s.walk = []) :
    EndsIn (InUnit .decode) (decodeBits c s) := by
  refine (decodeBits_ends c s h).mono ?_
  rintro t ⟨hcalm, he'⟩
  rw [he] at he'
  refine ⟨h.calm hcalm, fun hh => ?_, fun _ => rfl, fun _ => hcalm.walk.trans hw⟩
  obtain he' | he' := he' <;> simp [he'] at hh

/-- An element's step from a consistent state: the fetch stops in a fault, or the element ends `InUnit` or in one. -/
theorem elementStep_consistent {s t : State} (hs : s.Consistent) (h : elementStep s = .next t) : t.Consistent := by
  cases he : s.expect with
  | unit =>
    rw [elementStep_stopped (a := .go s) (by simp only [fetchElement, he])] at h
    exact Host.Outcome.next.inj h ▸ hs
  | marker =>
    have hp := hs.header (.inl he)
    have hrun : Running .rdhdr s := hp ▸ (hs.inUnit (by rw [hp]; rfl)).run
    have hfetch : fetchElement s = fetchMarker s := by simp only [fetchElement, he]
    obtain ⟨m, u, hu, hcalm, -⟩ | ⟨a, ha, hends⟩ := fetchMarker_ends hrun
    · rw [elementStep_got (hfetch.trans hu), exec_marker_rdhdr (hrun.calm hcalm).phase] at h
      exact onNext_advanceIfEnded_consistent (p := .rdhdr) rfl (readMarker_inUnit (hrun.calm hcalm)) h
    · rw [elementStep_stopped (hfetch.trans ha)] at h
      exact outcome_consistent (fun P => (hends P).1) h
  | node =>
    have hp := hs.header (.inr he)
    have hrun : Running .rdhdr s := hp ▸ (hs.inUnit (by rw [hp]; rfl)).run
    have hfetch : fetchElement s = fetchNode s := by simp only [fetchElement, he]
    obtain ⟨u, hu, hcalm, hexp⟩ | ⟨sym, u, hu, hcalm, hexp⟩ | ⟨a, ha, hends⟩ := fetchNode_ends hrun
    · rw [elementStep_got (hfetch.trans hu), exec_nodeInternal_rdhdr (hrun.calm hcalm).phase] at h
      exact onNext_advanceIfEnded_consistent (p := .rdhdr) rfl (readInternal_inUnit (hrun.calm hcalm) (hexp.trans he)) h
    · rw [elementStep_got (hfetch.trans hu), exec_nodeLeaf_rdhdr (hrun.calm hcalm).phase] at h
      exact onNext_advanceIfEnded_consistent (p := .rdhdr) rfl (readLeaf_inUnit (hrun.calm hcalm) (hexp.trans he)) h
    · rw [elementStep_stopped (hfetch.trans ha)] at h
      exact outcome_consistent (fun P => (hends P).1) h
  | codeword =>
    have hp := hs.payload he
    have hin := hs.inUnit (by rw [hp]; rfl)
    have hrun : Running .decode s := hp ▸ hin.run
    have hfetch : fetchElement s = fetchCodeword (s.unread + 1) s.cur [] s := by simp only [fetchElement, he]
    obtain ⟨c, u, hu, hcalm, hexp⟩ | ⟨a, ha, hends⟩ := fetchCodeword_ends (s.unread + 1) s.cur [] s hrun
    · rw [elementStep_got (hfetch.trans hu), exec_codeword_decode (hrun.calm hcalm).phase] at h
      exact onNext_advanceIfEnded_consistent (p := .decode) rfl (decodeBits_inUnit (hrun.calm hcalm) (hexp.trans he)
        (hcalm.walk.trans (hin.walk (by simp [he])))) h
    · rw [elementStep_stopped (hfetch.trans ha)] at h
      exact outcome_consistent hends h

/-! ### The host -/

/-- Reset leaves the registers in agreement, and nothing ready (R45, R200). -/
theorem coreReset_consistent {u : State} (hpos : u.inp.pos ≤ u.inp.bits.length) : u.coreReset.Consistent :=
  consistent_of_idle rfl (.inl rfl) rfl rfl rfl rfl (Nat.zero_le _) (Nat.zero_le _) hpos

theorem coreReset_ready (u : State) : u.coreReset.Ready := ⟨rfl, nofun, nofun, nofun, nofun, nofun⟩

/-- A command is accepted by an idle block alone (R100, R31). -/
theorem accept_cases {s : State} (hs : s.Consistent) (p : Phase) :
    accept p s = s ∨ (s.phase = .idle ∧
      accept p s = { s with status := 1#8, fv := false, tv := false, cv := false, phase := p, expect := .unit }) := by
  by_cases h : s.busy = true ∨ s.faulted = true
  · exact .inl (accept_of_busy_or_faulted h p)
  · obtain ⟨hb, hf⟩ : s.busy = false ∧ s.faulted = false := by simpa using h
    refine .inr ⟨?_, accept_of_idle hb hf p⟩
    by_contra hidle
    by_cases hp : s.phase = .fault
    · simp [State.faulted, hs.status_of_fault hp] at hf
    · have hbusy : s.phase.busy = true := Bool.of_not_eq_false fun h => (Phase.busy_eq_false.mp h).elim hidle hp
      simp [State.busy, (hs.inUnit hbusy).run.status] at hb

/-- An idle block is inside no unit (R36). -/
theorem State.Consistent.of_idle {s : State} (hs : s.Consistent) (hp : s.phase = .idle) :
    s.err = 0#8 ∧ s.errinfo = 0#8 ∧ s.walk = [] ∧ s.nalloc.toNat ≤ 513 ∧ s.k.toNat ≤ 256 ∧ s.inp.pos ≤ s.inp.bits.length := by
  obtain ⟨-, -, -, -, herr, hheader, -, hwalk, hnalloc, hk, hpos⟩ := hs
  obtain ⟨he, hi⟩ := herr (by simp [hp])
  exact ⟨he, hi, hwalk fun hn => by simp [hheader (.inr hn)] at hp, hnalloc, hk, hpos⟩

theorem accept_consistent {s : State} (hs : s.Consistent) {p : Phase} (hb : p.busy = true) : (accept p s).Consistent := by
  obtain h | ⟨hidle, h⟩ := accept_cases hs p <;> rw [h]
  · exact hs
  · obtain ⟨he, hi, hwalk, hnalloc, hk, hpos⟩ := hs.of_idle hidle
    exact consistent_of_inUnit hb (AtUnit.inUnit ⟨⟨rfl, rfl, he, hi, hnalloc, hk, hpos⟩, rfl, hwalk⟩)

/-- The first unit of a command needs nothing the block sees to (R106). -/
theorem accept_ready {s : State} (hs : s.Consistent) (hr : s.Ready) {p : Phase} (hp : p = .count ∨ p = .rdhdr) :
    (accept p s).Ready := by
  obtain h | ⟨-, h⟩ := accept_cases hs p <;> rw [h]
  · exact hr
  · obtain rfl | rfl := hp
    · exact ⟨rfl, nofun, nofun, nofun, nofun, nofun⟩
    · exact ⟨rfl, nofun, nofun, nofun, nofun, nofun⟩

theorem hostAct_consistent {a : HostAction} {s t : State} (hs : s.Consistent) (h : hostAct a s = .next t) : t.Consistent := by
  obtain ⟨u, hu, rfl⟩ | ⟨p, hp, rfl⟩ | ⟨inp, out, reads, stalled, rfl, hinp⟩ := hostAct_cases h
  · exact coreReset_consistent (hu.pos hs.pos)
  · exact accept_consistent hs (by obtain rfl | rfl := hp <;> rfl)
  · obtain ⟨h1, h2, h3, h4, h5, h6, h7, h8, h9, h10, hpos⟩ := hs
    refine ⟨h1, h2, h3, h4, h5, h6, h7, h8, h9, h10, ?_⟩
    obtain rfl | ⟨-, h0⟩ := hinp
    · exact hpos
    · show inp.pos ≤ inp.bits.length
      omega

theorem hostAct_ready {a : HostAction} {s t : State} (hs : s.Consistent) (hr : s.Ready) (h : hostAct a s = .next t) : t.Ready := by
  obtain ⟨u, -, rfl⟩ | ⟨p, hp, rfl⟩ | ⟨inp, out, reads, stalled, rfl, hinp⟩ := hostAct_cases h
  · exact coreReset_ready u
  · exact accept_ready hs hr hp
  · obtain ⟨h1, h2, h3, h4, hpos, h6⟩ := hr
    refine ⟨h1, h2, h3, h4, fun hp => ?_, h6⟩
    obtain rfl | ⟨-, h0⟩ := hinp
    · exact hpos hp
    · exact h0

/-! ### The step -/

theorem State.SameButHost.consistent {s u : State} (h : s.SameButHost u) (hs : s.Consistent) : u.Consistent := by
  rw [h]
  exact hs

theorem State.SameButHost.ready {s u : State} (h : s.SameButHost u) (hr : s.Ready) : u.Ready := by
  rw [h]
  exact hr

/-- The operation of a step from a consistent state ends in a fault, or prepares the sequencer's move. -/
theorem unitStep_cases {s t : State} {i : Instr} (hs : s.Consistent) (he : s.expect = .unit) (hi : decodePhase s.phase.code = .ok i)
    (h : onNext advancePhase (exec i s) = .next t) :
    FaultTaken t ∨ ∃ u, Prepares s s.phase u ∧ t = advancePhase u := by
  have hb := decodePhase_rest hi
  rw [exec_of_phase he hi] at h
  obtain ⟨u, hu, rfl⟩ := onNext_next h
  obtain hp | hf := (remaining_prepares hb ((hs.inUnit hb).atUnit he)).next hu
  · exact .inr ⟨u, hp, rfl⟩
  · rw [(advance_faulted hf).1]
    exact .inl hf

theorem coreStep_consistent {s t : State} (hs : s.Consistent) (h : coreStep s = .next t) : t.Consistent := by
  obtain hc | ⟨he, i, hi, hc⟩ | ⟨-, hc⟩ := coreStep_cases s <;> rw [hc] at h
  · exact Host.Outcome.next.inj h ▸ hs
  · obtain hf | ⟨u, ⟨hu, -⟩, rfl⟩ := unitStep_cases hs he hi h
    · exact consistent_of_fault hf
    · exact advancePhase_consistent (decodePhase_rest hi) hu
  · exact elementStep_consistent hs h

theorem coreStep_ready {s t : State} (hs : s.Consistent) (hr : s.Ready) (h : coreStep s = .next t) : t.Ready := by
  obtain hc | ⟨he, i, hi, hc⟩ | ⟨hne, -⟩ := coreStep_cases s
  · exact Host.Outcome.next.inj (hc.symm.trans h) ▸ hr
  · obtain hf | ⟨u, ⟨-, hu⟩, rfl⟩ := unitStep_cases hs he hi (hc.symm.trans h)
    · exact ready_of_fault hf
    · exact hu hr
  · exact absurd hr.unit hne

/-- Settles O54: the host's actions, the operations and the elements each keep the registers in agreement. -/
theorem stepKeepsConsistent : Obligations.StepKeepsConsistent := by
  intro s t hs h
  obtain ⟨u, hu, hstep | ⟨a, -, hstep⟩⟩ := step_cases s <;> rw [hstep] at h
  · exact coreStep_consistent (hu.consistent hs) h
  · exact hostAct_consistent (hu.consistent hs) h

/-- Settles O57: each operation leaves what the next one needs, and the host takes nothing away. -/
theorem stepKeepsReady : Obligations.StepKeepsReady := by
  intro s t hs hr h
  obtain ⟨u, hu, hstep | ⟨a, -, hstep⟩⟩ := step_cases s <;> rw [hstep] at h
  · exact coreStep_ready (hu.consistent hs) (hu.ready hr) h
  · exact hostAct_ready (hu.consistent hs) (hu.ready hr) h

/-- An outcome that is a next state, or a refusal one of the two the host makes (logs 11, 12). -/
def GoesOnOrHostRefused (o : Host.Outcome State Fault Refusal) : Prop :=
  (∃ t, o = .next t) ∨ o = .refused .closedOutput ∨ o = .refused .transportInUse

theorem NoStop.outcome {a : Act} (h : NoStop a) : (∃ t, a.outcome = .next t) ∨ a.outcome = .refused .closedOutput := by
  cases a with
  | go t => exact .inl ⟨t, rfl⟩
  | raised t => exact .inl ⟨t, rfl⟩
  | fault f t => exact h.elim
  | refuse r t => exact .inr (congrArg _ h)

theorem coreStep_goesOn {s : State} (hs : s.Consistent) (hr : s.Ready) : GoesOnOrHostRefused (coreStep s) := by
  obtain hc | ⟨he, i, hi, hc⟩ | ⟨hne, -⟩ := coreStep_cases s
  · exact .inl ⟨s, hc⟩
  · have hstop := remaining_noStop ((hs.inUnit (decodePhase_rest hi)).atUnit he) hr
    rw [hc, exec_of_phase he hi]
    obtain ⟨t, ht⟩ | ht := hstop.outcome <;> rw [ht]
    · exact .inl ⟨_, rfl⟩
    · exact .inr (.inl rfl)
  · exact absurd hr.unit hne

/-- Settles O58: a host action is refused as a transport in use, an operation for a closed output, and nothing else stops. -/
theorem readyStepNeverStops : Obligations.ReadyStepNeverStops := by
  intro s hs hr
  have hstep : GoesOnOrHostRefused (step s) := by
    obtain ⟨u, hu, hstep | ⟨a, -, hstep⟩⟩ := step_cases s <;> rw [hstep]
    · exact coreStep_goesOn (hu.consistent hs) (hu.ready hr)
    · exact (hostAct_stops a u).imp_right .inr
  obtain ⟨t, ht⟩ | ht | ht := hstep <;> rw [ht]
  · exact ⟨nofun, nofun⟩
  · exact ⟨nofun, fun r hr => .inl (Host.Outcome.refused.inj hr).symm⟩
  · exact ⟨nofun, fun r hr => .inr (Host.Outcome.refused.inj hr).symm⟩

end Sys2Proof.Machine
end

section
/-! Proofs. Whole commands (40_commands.md R101, R102, R105, R107): COMPRESS stage by stage under any tie-break rule, and DECOMPRESS of
what it wrote. -/

namespace Sys2Proof.Machine

/-! ### Runs of the machine -/

theorem run_of_step {s t : State} (h : step s = .next t) (k : Nat) : Sys2Proof.core.run (k + 1) s = Sys2Proof.core.run k t := by
  have h' : Sys2Proof.core.step s = .next t := h
  simp only [Host.Core.run, h']

/-- A command runs at phase `p` on these transports, between two operations; `input` is on IN and `written` on OUT. -/
structure Stage (p : Phase) (magic : Mark) (input written : List Bool) (s : State) : Prop where
  phase : s.phase = p
  status : s.status = 1#8
  host : s.host = []
  stalled : s.stalled = false
  expect : s.expect = .unit
  magic : s.magic = magic
  bits : s.inp.bits = input
  second : s.inp.second = none
  out : s.out = { bits := written, closed := false }

section
variable {p : Phase} {m : Mark} {input written : List Bool} {c : State}

/-- The step of a stage: the operation PHASE names, then the sequencer's move (R101, R102). -/
theorem Stage.step (h : Stage p m input written c) {i : Instr} (hi : decodePhase p.code = .ok i) {t : State}
    (ht : exec i c = .next t) : step c = .next (advancePhase t) := by
  rw [step_of_noHost h.host, coreStep_of_unit h.stalled h.expect (by rw [h.phase]; exact hi), ht]
  rfl

theorem Stage.isOpen (h : Stage p m input written c) : c.out.closed = false := by rw [h.out]

/-- At IN.pos = 0 the whole input is ahead. -/
theorem Stage.ahead (h : Stage p m input written c) (hpos : c.inp.pos = 0) : c.ahead = input := by
  rw [State.ahead, hpos, h.bits, List.drop_zero]

/-- The block once it has accepted a command (R100). -/
def started (p : Phase) (s : State) : State :=
  { s with host := [], status := 1#8, fv := false, tv := false, cv := false, phase := p, expect := .unit }

/-- The step of a fresh block whose host writes a command (R100, R202). -/
theorem started_step {s : State} (hs : s.Fresh input) {v : Byte} (hv : ∀ u, hostWrite 0 v u = .next (accept p u)) :
    Machine.step { s with host := [.write 0 v] } = .next (started p s) ∧ Stage p s.magic input [] (started p s) ∧
      (started p s).inp.pos = 0 := by
  refine ⟨?_, ⟨rfl, rfl, rfl, hs.stalled, rfl, rfl, ?_, ?_, hs.out⟩, ?_⟩
  · have hrest : ({ s with host := [.write 0 v] } : State).phase.busy = false := by
      show s.phase.busy = false
      rw [hs.phase]
      rfl
    rw [step_of_rest hrest rfl]
    show hostWrite 0 v _ = _
    rw [hv, accept_of_idle (by exact hs.busy) (by exact hs.faulted)]
    rfl
  all_goals
    simp only [started, hs.inp]

/-! ### The stages of COMPRESS -/

theorem count_stage {bytes : List Byte} (h : Stage .count m (bitsOfBytes bytes) [] c) (hpos : c.inp.pos = 0)
    (hc : ∀ b : Byte, bytes.count b < 2 ^ 32) :
    ∃ d, Machine.step c = .next d ∧ Stage .build m (bitsOfBytes bytes) [] d ∧ ∀ b : Byte, (d.freqAt b.toNat).toNat = bytes.count b := by
  obtain ⟨t, ht, hfreq, -, hframe, -⟩ := countTabulatesTheInput c bytes [] (by omega) (by simpa using h.ahead hpos) (by simp) hc
  have hphase : t.phase = .count := by rw [hframe]; exact h.phase
  have hnext := advancePhase_after hphase rfl nofun
  refine ⟨_, h.step rfl ht, ?_, by rw [hnext]; exact hfreq⟩
  rw [hnext, hframe]
  exact ⟨rfl, h.status, h.host, h.stalled, rfl, h.magic, h.bits, h.second, h.out⟩

/-- BUILD's tree has the symbols with a count (R121, R125). -/
theorem build_stage {pick : TieBreak} (hpick : TakesOne pick) (h : Stage .build m input [] c) :
    ∃ b tr, buildActBy pick c = .go b ∧ Stage .gencodes m input [] (advancePhase b) ∧ (advancePhase b).tree = .ok tr ∧
      (tr.symbols.map BitVec.toNat).Perm ((List.range 257).filter fun sym => c.freqAt sym ≠ 0#32) := by
  obtain ⟨b, e, T, hact, hq, hroot, hQ, hframe⟩ := build_spec hpick c
  have hphase : b.phase = .build := by rw [hframe]; exact h.phase
  have hnext := advancePhase_after hphase rfl nofun
  have hperm := hQ.perm
  rw [hq, List.flatMap_singleton] at hperm
  refine ⟨b, T e.ptr, hact, ?_, ?_, hperm⟩
  · rw [hnext, hframe]
    exact ⟨rfl, h.status, h.host, h.stalled, rfl, h.magic, h.bits, h.second, h.out⟩
  · rw [hnext]
    exact build_tree (t := b) hQ hq hroot

/-- The leaf of a symbol that is visited last (R135). -/
theorem exists_last_leaf {cs : List (Sym × List Bool)} {sym : Sym} (h : ∃ x ∈ cs, x.1 = sym) :
    ∃ before path after, cs = before ++ (sym, path) :: after ∧ ∀ x ∈ after, x.1 ≠ sym := by
  induction cs with
  | nil => simp at h
  | cons y cs ih =>
    by_cases hcs : ∃ x ∈ cs, x.1 = sym
    · obtain ⟨before, path, after, rfl, hafter⟩ := ih hcs
      exact ⟨y :: before, path, after, rfl, hafter⟩
    · obtain ⟨x, hx, rfl⟩ := h
      obtain rfl : x = y := (List.mem_cons.mp hx).resolve_right fun hx' => hcs ⟨x, hx', rfl⟩
      exact ⟨[], x.2, cs, rfl, fun z hz hzx => hcs ⟨z, hz, hzx⟩⟩

/-- The table of a tree holds a path of it for each of its symbols, and an entry for no other (R130). -/
def TableOf (tr : Tree) (s : State) : Prop :=
  (∀ sym : Sym, s.codevAt sym.toNat = decide (sym ∈ tr.symbols)) ∧
  ∀ sym ∈ tr.symbols, (sym, s.codeAt sym.toNat) ∈ tr.codes

theorem TableOf.congr {tr : Tree} {s t : State} (h : TableOf tr s) (hc : t.code = s.code) (hv : t.codev = s.codev) : TableOf tr t := by
  simpa only [TableOf, State.codevAt, State.codeAt, hc, hv] using h

theorem gencodes_stage {tr : Tree} (h : Stage .gencodes m input [] c) (htree : c.tree = .ok tr) :
    ∃ d, Machine.step c = .next d ∧ Stage .wrhdr m input [] d ∧ d.tree = .ok tr ∧ TableOf tr d := by
  obtain ⟨u, hu, hframe, hcodev, hcode⟩ := gencodesRecordsThePaths c tr htree
  have hphase : u.phase = .gencodes := by rw [hframe]; exact h.phase
  have hnext := advancePhase_after hphase rfl nofun
  refine ⟨_, h.step rfl hu, ?_, ?_, ?_⟩
  · rw [hnext, hframe]
    exact ⟨rfl, h.status, h.host, h.stalled, rfl, h.magic, h.bits, h.second, h.out⟩
  · rw [hnext, hframe]
    exact htree
  · rw [hnext]
    refine ⟨hcodev, fun sym hsym => ?_⟩
    obtain ⟨before, path, after, hcodes, hafter⟩ := exists_last_leaf ((mem_symbols_iff tr sym).mp hsym)
    have hpath : u.codeAt sym.toNat = path := hcode before after sym path hcodes hafter
    rw [hcodes]
    show (sym, u.codeAt sym.toNat) ∈ _
    rw [hpath]
    simp

theorem wrhdr_stage {tr : Tree} (h : Stage .wrhdr m input [] c) (htree : c.tree = .ok tr) (htable : TableOf tr c) :
    ∃ d, Machine.step c = .next d ∧ Stage .rewind m input (bitsOf 32 m.toNat ++ tr.enc) d ∧ TableOf tr d := by
  have hu := wrhdrWritesMarkerAndTree c tr htree h.isOpen
  refine ⟨_, h.step rfl hu, ?_⟩
  rw [advancePhase_after (p := .wrhdr) (by exact h.phase) rfl nofun]
  refine ⟨⟨rfl, h.status, h.host, h.stalled, rfl, h.magic, h.bits, h.second, ?_⟩, htable⟩
  simp [State.wrote, h.out, h.magic]

theorem rewind_stage {tr : Tree} (h : Stage .rewind m input written c) (htable : TableOf tr c) :
    ∃ d, Machine.step c = .next d ∧ Stage .encode m input written d ∧ TableOf tr d ∧ d.inp.pos = 0 := by
  obtain ⟨hu, -⟩ := rewindReturnsToTheStart c
  refine ⟨_, h.step rfl (hu h.second), ?_⟩
  rw [advancePhase_after (p := .rewind) (by exact h.phase) rfl nofun]
  exact ⟨⟨rfl, h.status, h.host, h.stalled, rfl, h.magic, h.bits, h.second, h.out⟩, htable, rfl⟩

/-- The symbol of a byte (R20). -/
theorem toNat_symbol (b : Byte) : (b.setWidth 9).toNat = b.toNat := by
  rw [BitVec.toNat_setWidth]
  exact Nat.mod_eq_of_lt (Nat.lt_trans b.isLt (by decide))

theorem encode_stage {tr : Tree} {bytes : List Byte} (h : Stage .encode m (bitsOfBytes bytes) written c) (htable : TableOf tr c)
    (hpos : c.inp.pos = 0) (hmem : ∀ b ∈ bytes, b.setWidth 9 ∈ tr.symbols) :
    ∃ d, Machine.step c = .next d ∧
      Stage .close m (bitsOfBytes bytes) (written ++ (bytes.flatMap (fun b => c.codeAt b.toNat) ++ c.codeAt 256)) d := by
  have hentry : ∀ b ∈ bytes, c.codevAt b.toNat = true := fun b hb => by
    rw [← toNat_symbol b, htable.1]
    exact decide_eq_true (hmem b hb)
  obtain ⟨t, ht, hframe⟩ := encodeEmitsTheCodes c bytes [] (by simpa using h.ahead hpos) (by simp) hentry h.isOpen
  have hphase : t.phase = .encode := by rw [hframe]; exact h.phase
  have hnext := advancePhase_after hphase rfl nofun
  refine ⟨_, h.step rfl ht, ?_⟩
  rw [hnext, hframe]
  refine ⟨rfl, h.status, h.host, h.stalled, rfl, h.magic, h.bits, h.second, ?_⟩
  simp [State.wrote, h.out]

/-- CLOSE and completion (R55, R103). -/
theorem close_stage (h : Stage .close m input written c) :
    ∃ d p, Machine.step c = .next d ∧ p ≤ 7 ∧ (written.length + p) % 8 = 0 ∧ d.phase = .idle ∧ d.status = 2#8 ∧
      d.out = { bits := written ++ List.replicate p false, closed := true } ∧ d.inp = c.inp := by
  obtain ⟨p, hp, hlen, hu⟩ := closePadsToAByte c
  rw [h.out] at hlen
  refine ⟨_, p, h.step rfl hu, hp, hlen, ?_⟩
  rw [advancePhase_close (by exact h.phase)]
  obtain ⟨hphase, hstatus, -, -, -, -, -, hinp, hout, -⟩ := complete_spec
    { c with out := { bits := c.out.bits ++ List.replicate p false, closed := true }, trace := c.trace ++ [.outClose] }
    (by show c.status.getLsbD 2 = false; rw [h.status]; rfl)
  exact ⟨hphase, hstatus, hout.trans (by rw [h.out]), hinp⟩

end

/-! ### COMPRESS -/

/-- The symbols with a count are the sentinel and the symbols of the bytes (R121, R41). -/
theorem counted_iff {c : State} {bytes : List Byte} (h : ∀ b : Byte, (c.freqAt b.toNat).toNat = bytes.count b) (sym : Sym) :
    (sym.toNat < 257 ∧ c.freqAt sym.toNat ≠ 0#32) ↔ sym = 256#9 ∨ ∃ b ∈ bytes, sym = b.setWidth 9 := by
  have hcount : ∀ b : Byte, c.freqAt b.toNat ≠ 0#32 ↔ b ∈ bytes := fun b => by
    rw [← List.count_pos_iff, ← h b]
    bv_omega
  constructor
  · rintro ⟨hlt, hne⟩
    by_cases hs : sym = 256#9
    · exact .inl hs
    · obtain ⟨b, rfl⟩ : ∃ b : Byte, sym = b.setWidth 9 := ⟨sym.setWidth 8, by bv_omega⟩
      rw [toNat_symbol, hcount] at hne
      exact .inr ⟨b, hne, rfl⟩
  · rintro (rfl | ⟨b, hb, rfl⟩)
    · exact ⟨by decide, by simp [State.freqAt, Config.eofSym]⟩
    · rw [toNat_symbol, hcount]
      exact ⟨by have := b.isLt; omega, hb⟩

/-- The tree of an input: its leaves are the sentinel and the symbols of the bytes, each once (R107). -/
structure TreeOfInput (bytes : List Byte) (tr : Tree) : Prop where
  nodup : tr.symbols.Nodup
  mem : ∀ sym : Sym, sym ∈ tr.symbols ↔ sym = 256#9 ∨ ∃ b ∈ bytes, sym = b.setWidth 9

theorem treeOfInput_of_counts {c : State} {bytes : List Byte} {tr : Tree}
    (hfreq : ∀ b : Byte, (c.freqAt b.toNat).toNat = bytes.count b)
    (hperm : (tr.symbols.map BitVec.toNat).Perm ((List.range 257).filter fun sym => c.freqAt sym ≠ 0#32)) : TreeOfInput bytes tr := by
  constructor
  · exact List.Nodup.of_map BitVec.toNat (hperm.nodup_iff.mpr (List.nodup_range.filter _))
  · intro sym
    rw [← counted_iff hfreq sym, ← List.mem_map_of_injective (f := BitVec.toNat) fun _ _ => BitVec.eq_of_toNat_eq, hperm.mem_iff]
    simp

/-- What COMPRESS leaves (R70, R105, R107): marker, tree encoding, payload and padding on a closed output. -/
structure Compressed (magic : Mark) (bytes : List Byte) (tr : Tree) (code : Byte → List Bool) (stop : List Bool) (p : Nat)
    (d : State) : Prop where
  phase : d.phase = .idle
  status : d.status = 2#8
  closed : d.out.closed = true
  pad : p ≤ 7
  whole : d.out.bits.length % 8 = 0
  tree : TreeOfInput bytes tr
  codes : ∀ b ∈ bytes, (b.setWidth 9, code b) ∈ tr.codes
  sentinel : (256#9, stop) ∈ tr.codes
  bits : d.out.bits = bitsOf 32 magic.toNat ++ tr.enc ++ (bytes.flatMap code ++ stop) ++ List.replicate p false

/-- COMPRESS of a fresh block under any tie-break rule, stage by stage (R101). -/
theorem compressBy_compressed {pick : TieBreak} (hpick : TakesOne pick) {s : State} {bytes : List Byte}
    (hs : s.Fresh (bitsOfBytes bytes)) (hc : ∀ b : Byte, bytes.count b < 2 ^ 32) :
    ∃ d tr code stop p, compressBy pick { s with host := [.write 0 0#8] } = .next d ∧
      (pick = State.removeMin → Sys2Proof.core.run 8 { s with host := [.write 0 0#8] } = .next d) ∧
      Compressed s.magic bytes tr code stop p d := by
  obtain ⟨h0, hcount, hpos⟩ := started_step hs hostWrite_cmd_zero
  obtain ⟨c1, h1, hbuild, hfreq⟩ := count_stage hcount hpos hc
  obtain ⟨b, tr, hact, hgencodes, htree, hperm⟩ := build_stage hpick hbuild
  have htr := treeOfInput_of_counts hfreq hperm
  obtain ⟨c3, h3, hwrhdr, htree, htable⟩ := gencodes_stage hgencodes htree
  obtain ⟨c4, h4, hrewind, htable⟩ := wrhdr_stage hwrhdr htree htable
  obtain ⟨c5, h5, hencode, htable, hpos⟩ := rewind_stage hrewind htable
  obtain ⟨c6, h6, hclose⟩ := encode_stage hencode htable hpos fun x hx => (htr.mem _).mpr (.inr ⟨x, hx, rfl⟩)
  obtain ⟨d, p, h7, hp, hlen, hphase, hstatus, hout, -⟩ := close_stage hclose
  have hrun2 : Sys2Proof.core.run 2 { s with host := [.write 0 0#8] } = .next c1 :=
    (run_of_step h0 1).trans (run_of_step h1 0)
  have hrun5 : Sys2Proof.core.run 5 (advancePhase b) = .next d :=
    (run_of_step h3 4).trans ((run_of_step h4 3).trans ((run_of_step h5 2).trans ((run_of_step h6 1).trans (run_of_step h7 0))))
  refine ⟨d, tr, fun x => c5.codeAt x.toNat, c5.codeAt 256, p, ?_, ?_, hphase, hstatus, by rw [hout], hp, ?_, htr, fun x hx => ?_, ?_,
    by rw [hout]⟩
  · rw [compressBy, hrun2]
    simp only [hact]
    exact hrun5
  · rintro rfl
    have h2 : Machine.step c1 = .next (advancePhase b) := hbuild.step (i := .build) rfl (congrArg Act.outcome hact)
    exact (run_of_step h0 7).trans ((run_of_step h1 6).trans ((run_of_step h2 5).trans hrun5))
  · rw [hout, List.length_append, List.length_replicate]
    exact hlen
  · have := htable.2 (x.setWidth 9) ((htr.mem _).mpr (.inr ⟨x, hx, rfl⟩))
    rwa [toNat_symbol] at this
  · exact htable.2 256#9 ((htr.mem _).mpr (.inl rfl))

/-- Settles O59: COMPRESS under R122's own rule is this machine's eight steps. -/
theorem compressWritesACompressedStream : Obligations.CompressWritesACompressedStream := by
  intro s bytes hs hc
  obtain ⟨d, tr, code, stop, p, -, hrun, h⟩ := compressBy_compressed removeMin_takes hs hc
  exact ⟨d, tr, code, stop, p, hrun rfl, h.phase, h.status, h.closed, h.pad, h.whole, h.tree.nodup, h.tree.mem, h.codes, h.sentinel,
    h.bits.trans (by simp)⟩

/-! ### DECOMPRESS -/

/-- A tree of an input fits the node memory, and its symbols the alphabet (R20, R21). -/
theorem TreeOfInput.fits {bytes : List Byte} {tr : Tree} (h : TreeOfInput bytes tr) :
    (∀ sym ∈ tr.symbols, sym.toNat ≤ 256) ∧ tr.symbols.length ≤ 257 := by
  have hle : ∀ sym ∈ tr.symbols, sym.toNat ≤ 256 := fun sym hsym => by
    obtain rfl | ⟨b, -, rfl⟩ := (h.mem sym).mp hsym
    · decide
    · rw [toNat_symbol]
      exact b.isLt.le
  refine ⟨hle, ?_⟩
  have hsub : tr.symbols.map BitVec.toNat ⊆ List.range 257 := fun n hn => by
    obtain ⟨sym, hsym, rfl⟩ := List.mem_map.mp hn
    exact List.mem_range.mpr (Nat.lt_succ_of_le (hle sym hsym))
  have hnodup : (tr.symbols.map BitVec.toNat).Nodup := h.nodup.map fun _ _ => BitVec.eq_of_toNat_eq
  simpa using (hnodup.subperm hsub).length_le

section
variable {m : Mark} {input written : List Bool} {c : State}

/-- RDHDR of a header gives the tree's shape, and stands behind it (R156). -/
theorem rdhdr_stage {tr : Tree} {rest : List Bool} (h : Stage .rdhdr m (bitsOf 32 m.toNat ++ tr.enc ++ rest) [] c) (hpos : c.inp.pos = 0)
    (hl : tr.symbols.length ≤ 257) (hsym : ∀ sym ∈ tr.symbols, sym.toNat ≤ 256) :
    ∃ d, Machine.step c = .next d ∧ Stage .decode m (bitsOf 32 m.toNat ++ tr.enc ++ rest) [] d ∧ d.tree = .ok tr.shape ∧
      d.inp.pos = 32 + tr.enc.length := by
  obtain ⟨u, hu, htree, hupos, -, -, hframe⟩ := headerSelfDescription c tr rest (by rw [h.ahead hpos, h.magic]) hl hsym
  have hphase : u.phase = .rdhdr := by rw [hframe]; exact h.phase
  have hnext := advancePhase_after hphase rfl nofun
  rw [hpos, Nat.zero_add] at hupos
  refine ⟨_, h.step rfl hu, ?_, by rw [hnext]; exact htree, by rw [hnext]; exact hupos⟩
  rw [hnext, hframe]
  exact ⟨rfl, h.status, h.host, h.stalled, rfl, h.magic, h.bits, h.second, h.out⟩

/-- DECODE of a payload of the bytes' codes and a sentinel's gives back the bytes (R173, R177). -/
theorem decode_stage {tr : Tree} {bytes : List Byte} {code : Byte → List Bool} {stop rest : List Bool}
    (h : Stage .decode m input [] c) (htree : c.tree = .ok tr) (hcodes : ∀ b ∈ bytes, (b.setWidth 9, code b) ∈ tr.codes)
    (hstop : (256#9, stop) ∈ tr.codes) (ha : c.ahead = bytes.flatMap code ++ stop ++ rest) :
    ∃ d, Machine.step c = .next d ∧ Stage .close m input (bitsOfBytes bytes) d ∧
      d.inp.pos = c.inp.pos + (bytes.flatMap code ++ stop).length := by
  have hu := decodeFollowsThePaths c tr (bytes.map fun b => (b.setWidth 9, code b)) stop rest htree h.isOpen
    (fun w hw => by
      obtain ⟨b, hb, rfl⟩ := List.mem_map.mp hw
      exact ⟨hcodes b hb, by rw [toNat_symbol]; exact b.isLt⟩)
    hstop (by rw [ha, List.flatMap_map])
  refine ⟨_, h.step rfl hu, ?_⟩
  rw [advancePhase_after (p := .decode) (by exact h.phase) rfl nofun]
  refine ⟨⟨rfl, h.status, h.host, h.stalled, rfl, h.magic, h.bits, h.second, ?_⟩, ?_⟩
  · simp only [h.out, List.flatMap_map, toNat_symbol, List.nil_append]
    rfl
  · simp only [List.flatMap_map, List.length_append, Nat.add_assoc]

end

/-- DECOMPRESS by a fresh block of what COMPRESS left (R102, R105). -/
theorem decompress_compressed {s : State} {d : State} {bytes : List Byte} {tr : Tree} {code : Byte → List Bool} {stop : List Bool} {p : Nat}
    (hd : Compressed s.magic bytes tr code stop p d) (hs : s.Fresh d.out.bits) :
    ∃ e : State, Sys2Proof.core.run 4 { s with host := [.write 0 1#8] } = .next e ∧ e.phase = .idle ∧ e.status = 2#8 ∧
      e.out = { bits := bitsOfBytes bytes, closed := true } ∧
      e.inp.pos = 32 + tr.enc.length + (bytes.flatMap code ++ stop).length := by
  rw [hd.bits, List.append_assoc] at hs
  obtain ⟨hsym, hlen⟩ := hd.tree.fits
  obtain ⟨h0, hrdhdr, hpos⟩ := started_step hs hostWrite_cmd_one
  obtain ⟨c1, h1, hdecode, htree, hpos⟩ := rdhdr_stage hrdhdr hpos hlen hsym
  have hshape : tr.shape.codes = tr.codes := tr.codesFrom_shape []
  have hahead : c1.ahead = bytes.flatMap code ++ stop ++ List.replicate p false := by
    rw [State.ahead, hdecode.bits, hpos]
    exact List.drop_left' (by simp)
  obtain ⟨c2, h2, hclose, hpos2⟩ := decode_stage hdecode htree (by rw [hshape]; exact hd.codes) (by rw [hshape]; exact hd.sentinel) hahead
  obtain ⟨e, p', h3, hp, hfill, hphase, hstatus, hout, hinp⟩ := close_stage hclose
  obtain rfl : p' = 0 := by
    rw [bitsOfBytes_length] at hfill
    omega
  refine ⟨e, ?_, hphase, hstatus, by rw [hout]; simp, by rw [hinp, hpos2, hpos]⟩
  exact (run_of_step h0 3).trans ((run_of_step h1 2).trans ((run_of_step h2 1).trans (run_of_step h3 0)))

/-- Settles O60: what COMPRESS leaves under any tie-break rule, DECOMPRESS gives back. -/
theorem roundTrip : Obligations.RoundTrip := by
  refine ⟨removeMin_takes, fun pick s s' bytes hpick hs hc hm => ?_⟩
  obtain ⟨d, tr, code, stop, p, hby, hrun, h⟩ := compressBy_compressed hpick hs hc
  refine ⟨d, tr, code, stop, p, hby, hrun, h.phase, h.status, h.closed, h.pad, h.codes, h.sentinel, h.bits, fun hs' => ?_⟩
  rw [← hm] at h
  exact decompress_compressed h hs'

end Sys2Proof.Machine
end
